-- ==== Sys2Proof/Word.lean ====
section
/-! DEFINITION. The word types of the SAT builder and the four-channel vector they are grouped in. -/

namespace Sys2Proof

/-- A 32-bit register, command word or SatPixel channel (00_scope.md R5). -/
abbrev Word := BitVec 32

/-- A byte of memory, a Pixel channel (00_scope.md R4). -/
abbrev Byte := BitVec 8

/-- A 4-vector of channels in the order R, G, B, A (00_scope.md R4). -/
structure Quad (α : Type) where
  r : α
  g : α
  b : α
  a : α
deriving DecidableEq, Repr

end Sys2Proof
end

