-- ==== Sys2Proof/Config.lean ====
section
/-! DEFINITION. What the spec fixes for every block, its suggested defaults for the open parameters, and the free
values: constants without a body that stand for what the spec calls unspecified. -/

namespace Sys2Proof.Config

/-- The constant of the register `ID` (10_state.md R31). -/
def idWord : Word := 0x53415401#32

/-- Suggested default of `NW_MAX` (92_eei_decisions.md part 2). -/
def nwMaxDefault : Nat := 8

/-- The size of the one address space in bytes (10_state.md R43). -/
def addrSpace : Nat := 2 ^ 32

/-- Which enabled agent takes the next step when no script says so (40_build.md R130, 93 U5; log 2). -/
opaque freeChoice : Nat → Nat

/-- The `k`-th unspecified 32-bit value of draw `d` (93 X1, X5; log 1). -/
opaque freeWord : (d k : Nat) → Word

/-- What the host reads at an address nobody has written: the same at every read (20_memory.md R67, 93 X6; log 11). -/
opaque unwrittenByte : (a : Nat) → Byte

/-- The unspecified byte number `k` of draw `d` (93 X2, X4; log 1). -/
opaque freeByte : (d k : Nat) → Byte

/-- The unspecified bit number `k` of draw `d` (93 X4, X5; log 1). -/
opaque freeBit : (d k : Nat) → Bool

end Sys2Proof.Config
end

