-- ==== Sys2Proof/Syntax.lean ====
section
/-! DEFINITION. The command set SATCMD version 1: one constructor per row of the opcode table. -/

namespace Sys2Proof

/-- The ten parameter registers by name, in the order of their numbers 0 to 9 (10_state.md R20). -/
inductive PReg where
  | src | sat | dst | rows | cols | ksize | nwork | batch | qrow | qcol
deriving DecidableEq, Repr

/-- The three build strategies (00_scope.md R2, 40_build.md). -/
inductive Strategy where
  | serial | wavefront | barrier
deriving DecidableEq, Repr

/-- The twelve commands (30_encoding.md R95). A destination register is kept as its 4-bit field `pd`; only 0 to 9
exist (30_encoding.md R92), which `Instr.wellFormed` checks. -/
inductive Instr where
  | nop
  | halt
  | jmp (off24 : BitVec 24)
  | setl (pd : BitVec 4) (imm16 : BitVec 16)
  | seth (pd : BitVec 4) (imm16 : BitVec 16)
  | buildS
  | buildW
  | buildB
  | qsum
  | qblur
  | qapply
  | rdcell
deriving DecidableEq, Repr

/-- The pseudo-instructions of the assembler (30_encoding.md R100). -/
inductive Pseudo where
  | set (pd : BitVec 4) (imm32 : Word)
  | build (strategy : Strategy)
deriving DecidableEq, Repr

end Sys2Proof
end

