-- ==== Sys2Proof/WellFormed.lean ====
section
/-! DEFINITION. Which commands have a word: the destination register of `SETL` and `SETH` must exist. -/

namespace Sys2Proof

/-- "only `0 .. 9` are legal" (30_encoding.md R92; 10_state.md R20). -/
def Instr.wellFormed : Instr → Bool
  | .nop => true
  | .halt => true
  | .jmp _ => true
  | .setl pd _ => decide (pd.toNat ≤ 9)
  | .seth pd _ => decide (pd.toNat ≤ 9)
  | .buildS => true
  | .buildW => true
  | .buildB => true
  | .qsum => true
  | .qblur => true
  | .qapply => true
  | .rdcell => true

end Sys2Proof
end

