-- ==== Sys2Proof/Decode.lean ====
section
/-! DEFINITION. The command decoder, total on all words and on all byte strings, and the encoder after it. -/

namespace Sys2Proof

/-- Why a byte string is no command: the cases (a) to (d) of 30_encoding.md R96, and too few bytes. -/
inductive DecodeError where
  | truncated
  | unassignedOpcode
  | mustBeZero
  | noSuchRegister
deriving DecidableEq, Repr

/-- Format Z: bits 23:0 must be 0 (30_encoding.md R91). -/
def decodeZ (w : Word) (i : Instr) : Except DecodeError Instr :=
  if w.extractLsb' 0 24 = 0#24 then .ok i else .error .mustBeZero

/-- Format I: bits 19:16 must be 0 and `pd` at most 9 (30_encoding.md R92). -/
def decodeI (w : Word) (mk : BitVec 4 → BitVec 16 → Instr) : Except DecodeError Instr :=
  if w.extractLsb' 16 4 = 0#4 then
    if (w.extractLsb' 20 4).toNat ≤ 9 then .ok (mk (w.extractLsb' 20 4) (w.extractLsb' 0 16))
    else .error .noSuchRegister
  else .error .mustBeZero

/-- The decoding procedure, total on all words (30_encoding.md R101). -/
def decodeWord (w : Word) : Except DecodeError Instr :=
  let op := w.extractLsb' 24 8
  if op = 0x01#8 then decodeZ w .nop
  else if op = 0x02#8 then decodeZ w .halt
  else if op = 0x03#8 then .ok (.jmp (w.extractLsb' 0 24))
  else if op = 0x08#8 then decodeI w .setl
  else if op = 0x09#8 then decodeI w .seth
  else if op = 0x10#8 then decodeZ w .buildS
  else if op = 0x11#8 then decodeZ w .buildW
  else if op = 0x12#8 then decodeZ w .buildB
  else if op = 0x20#8 then decodeZ w .qsum
  else if op = 0x21#8 then decodeZ w .qblur
  else if op = 0x22#8 then decodeZ w .qapply
  else if op = 0x23#8 then decodeZ w .rdcell
  else .error .unassignedOpcode

/-- A command is four bytes, the first at bits 7:0 (30_encoding.md R90, 20_memory.md R60). -/
def decodeBytes : List Byte → Except DecodeError (Instr × List Byte)
  | b0 :: b1 :: b2 :: b3 :: rest =>
    match decodeWord (b3 ++ b2 ++ b1 ++ b0) with
    | .ok i => .ok (i, rest)
    | .error e => .error e
  | _ => .error .truncated

/-- The `n` bytes of a number, the least significant first (20_memory.md R60). -/
def bytesLE : (n : Nat) → (v : Nat) → List Byte
  | 0, _ => []
  | n + 1, v => BitVec.ofNat 8 v :: bytesLE n (v / 256)

/-- What the decoder reads from an instruction whose bits, numbered as the opcode table numbers them, are `w`. -/
def decodeTableWord (nbits w : Nat) : Option Instr :=
  match decodeBytes (bytesLE 4 (w % 2 ^ nbits)) with
  | .ok (i, _) => some i
  | .error _ => none

/-- The opcode of a command, bits 31:24 of its word (30_encoding.md R95). -/
def Instr.opcode : Instr → BitVec 8
  | .nop => 0x01#8
  | .halt => 0x02#8
  | .jmp _ => 0x03#8
  | .setl _ _ => 0x08#8
  | .seth _ _ => 0x09#8
  | .buildS => 0x10#8
  | .buildW => 0x11#8
  | .buildB => 0x12#8
  | .qsum => 0x20#8
  | .qblur => 0x21#8
  | .qapply => 0x22#8
  | .rdcell => 0x23#8

/-- Bits 23:0 of a command's word: 0, `off24`, or `pd << 20 | imm16` (30_encoding.md R91 to R93). -/
def Instr.operandField : Instr → BitVec 24
  | .nop => 0#24
  | .halt => 0#24
  | .jmp off24 => off24
  | .setl pd imm16 => pd ++ (0#4 ++ imm16)
  | .seth pd imm16 => pd ++ (0#4 ++ imm16)
  | .buildS => 0#24
  | .buildW => 0#24
  | .buildB => 0#24
  | .qsum => 0#24
  | .qblur => 0#24
  | .qapply => 0#24
  | .rdcell => 0#24

/-- "The encoder is the inverse" (30_encoding.md R101). On an ill-formed `SETL` or `SETH` it gives the illegal word
that names the missing register. -/
def encode (i : Instr) : Word := i.opcode ++ i.operandField

/-- The opcode map: `op`, match, mask, and whether the row is of format I, whose `pd` must be at most 9
(30_encoding.md R95). -/
def opcodeRows : List (BitVec 8 × Word × Word × Bool) :=
  [ (0x01#8, 0x01000000#32, 0xFFFFFFFF#32, false), (0x02#8, 0x02000000#32, 0xFFFFFFFF#32, false),
    (0x03#8, 0x03000000#32, 0xFF000000#32, false), (0x08#8, 0x08000000#32, 0xFF0F0000#32, true),
    (0x09#8, 0x09000000#32, 0xFF0F0000#32, true), (0x10#8, 0x10000000#32, 0xFFFFFFFF#32, false),
    (0x11#8, 0x11000000#32, 0xFFFFFFFF#32, false), (0x12#8, 0x12000000#32, 0xFFFFFFFF#32, false),
    (0x20#8, 0x20000000#32, 0xFFFFFFFF#32, false), (0x21#8, 0x21000000#32, 0xFFFFFFFF#32, false),
    (0x22#8, 0x22000000#32, 0xFFFFFFFF#32, false), (0x23#8, 0x23000000#32, 0xFFFFFFFF#32, false) ]

/-- "A word `w` is the command of a row when `(w AND mask) = match` and, for format I, `w[23:20] <= 9`"
(30_encoding.md R95). -/
def matchesRow (w : Word) (row : BitVec 8 × Word × Word × Bool) : Prop :=
  w &&& row.2.2.1 = row.2.1 ∧ (row.2.2.2 = true → (w.extractLsb' 20 4).toNat ≤ 9)

/-- The command words of the pseudo-instructions (30_encoding.md R100). -/
def Pseudo.expand : Pseudo → List Instr
  | .set pd imm32 => [.setl pd (imm32.extractLsb' 0 16), .seth pd (imm32.extractLsb' 16 16)]
  | .build .serial => [.buildS]
  | .build .wavefront => [.buildW]
  | .build .barrier => [.buildB]

end Sys2Proof
end

