-- ==== Sys2Proof/Machine/State.lean ====
section
/-! DEFINITION. Everything the spec gives the machine, as plain data; the reasons a step can stop; the state after
reset. -/

namespace Sys2Proof.Machine

/-- The memory space of 10_state.md R43 as (address, byte) pairs. An unlisted address holds no value: "a location the
host has not written holds no value" (10_state.md R50; log 6). -/
abbrev Memory := List Host.Cell

/-- The canonical form: addresses strictly rising, all inside the address space. An unlisted address reads as no value
and an entry is always a byte, so no entry equals what an unlisted address reads as. -/
abbrev Memory.wf (m : Memory) : Prop :=
  m.Pairwise (fun x y => x.1 < y.1) ∧ ∀ x ∈ m, x.1 < Config.addrSpace

/-- The ten parameter registers (10_state.md R20). -/
structure Params where
  src : Word
  sat : Word
  dst : Word
  rows : Word
  cols : Word
  ksize : Word
  nwork : Word
  batch : Word
  qrow : Word
  qcol : Word
deriving DecidableEq, Repr

/-- The fault record `CAUSE` (bits `CODE` and `FATAL`), `ECP`, `EINFO` (10_state.md R35 to R37). -/
structure FaultRecord where
  code : BitVec 8
  fatal : Bool
  ecp : Word
  einfo : Word
deriving DecidableEq, Repr

/-- The mode of the wavefront's consumer (10_state.md R47). -/
inductive WaitMode where
  | waiting | draining
deriving DecidableEq, Repr

/-- Hidden state of the Wavefront-Pipeline strategy (10_state.md R47). -/
structure Wave where
  safeRow : Nat
  pr : Nat
  pc : Nat
  pdone : Bool
  cur : Nat
  cc : Nat
  limit : Nat
  mode : WaitMode
deriving DecidableEq, Repr

/-- The two passes of the Two-Pass-Barrier strategy (10_state.md R48). -/
inductive Pass where
  | one | two
deriving DecidableEq, Repr

/-- One worker: its span `[lo, hi)`, the cell `(r, c)` it computes next, whether it has arrived (10_state.md R48). -/
structure Worker where
  lo : Nat
  hi : Nat
  r : Nat
  c : Nat
  arrived : Bool
deriving DecidableEq, Repr

/-- Hidden state of the Two-Pass-Barrier strategy (10_state.md R48). -/
structure Barrier where
  pass : Pass
  arrivedCount : Nat
  workers : List Worker
deriving DecidableEq, Repr

/-- The substate of a command that takes more than one step (10_state.md R45 to R49). `traverse` carries, beside the
cursor `(ar, ac)` and the running OR `acc`, the memory at the start of the `QAPPLY`: the model's own, read only when
the command is cut (log 14). -/
inductive CmdState where
  | sentinels (strategy : Strategy) (z : Nat)
  | serial (r c : Nat)
  | wave (w : Wave)
  | barrier (b : Barrier)
  | traverse (ar ac : Nat) (acc : Bool) (old : Memory)
deriving DecidableEq, Repr

/-- The sequencer phase (10_state.md R44). -/
inductive Phase where
  | fetch
  | exec (cmd : CmdState)
deriving DecidableEq, Repr

/-- `STATE` (10_state.md R41). The hidden state of a run "exists only while `STATE = BUSY`", so BUSY carries it. -/
inductive Engine where
  | idle
  | busy (phase : Phase)
  | done
  | faulted
deriving DecidableEq, Repr

/-- The open parameters of 92_eei_decisions.md part 2 and the device ranges of 20_memory.md R67, as (base, length)
ranges. No step changes them (log 5, log 7). -/
structure Platform where
  nwMax : Nat
  memValid : List (Nat × Nat)
  devices : List (Nat × Nat)
  regBase : Nat
deriving DecidableEq, Repr

/-- `count` blocks of `len` bytes, the first at `base`, each `stride` bytes after the one before it. -/
structure Span where
  base : Nat
  len : Nat
  stride : Nat
  count : Nat
deriving DecidableEq, Repr

/-- The bytes a command reads and the bytes it writes (20_memory.md R73). -/
structure Footprint where
  reads : List Span
  writes : List Span
deriving DecidableEq, Repr

/-- A transaction of the host: the register port (10_state.md R28), the shared memory (10_state.md R43), the reset
input (70_reset_and_hazards.md R240). -/
inductive HostOp where
  | regRead (idx : BitVec 6)
  | regWrite (idx : BitVec 6) (data : Word)
  | memRead (addr : Word) (n : Nat)
  | memWrite (addr : Word) (bytes : List Byte)
  | resetInput
deriving DecidableEq, Repr

/-- Who moves next: the host with a transaction, or the engine, where `pick` chooses among the agents that have an
enabled step (40_build.md R130; log 2, log 3). -/
inductive Turn where
  | host (op : HostOp)
  | engine (pick : Nat)
deriving DecidableEq, Repr

/-- A byte that a memory read of the host returned. A byte read while BUSY that no command fetched so far writes is
`pending`: it is `free` if a later command of the run writes it (20_memory.md R77), else `kept`, the byte that was
there (R67; log 9). -/
inductive ReadByte where
  | settled (v : Byte)
  | pending (addr : Nat) (kept free : Byte)
deriving DecidableEq, Repr

/-- What a read transaction returned to the host (log 4). -/
inductive Answer where
  | word (v : Word)
  | bytes (bs : List ReadByte)
deriving DecidableEq, Repr

/-- The machine. -/
structure State where
  /-- parameter registers, 10_state.md R20 -/
  p : Params
  /-- command pointer, 10_state.md R23 -/
  cp : Word
  /-- `STATE` and the hidden state of the run, 10_state.md R41, R44 to R49 -/
  engine : Engine
  /-- `SATVALID`, 10_state.md R25 -/
  satValid : Bool
  /-- `SATOVF`, 10_state.md R26 -/
  satOvf : Bool
  /-- `QINEXACT`, 10_state.md R27 -/
  qInexact : Bool
  /-- `CTRL.IE_DONE`, 10_state.md R32 -/
  ieDone : Bool
  /-- `CTRL.IE_FAULT`, 10_state.md R32 -/
  ieFault : Bool
  /-- `CAUSE`, `ECP`, `EINFO`, 10_state.md R35 to R37 -/
  fault : FaultRecord
  /-- `QS[0..3]`, 10_state.md R38 -/
  qs : Quad Word
  /-- `QPIX`, 10_state.md R39 -/
  qpix : Word
  /-- memory, 10_state.md R43 -/
  mem : Memory
  /-- parameters of the platform, 92_eei_decisions.md part 2 -/
  platform : Platform
  /-- the turns still to come; when the list is empty the engine moves and chooses freely (log 2, log 3) -/
  env : List Turn
  /-- what the last read transaction returned (log 4, log 9) -/
  portOut : Option Answer
  /-- how many free values have been drawn (log 1) -/
  draws : Nat
  /-- the bytes the commands fetched in this run read and write, 20_memory.md R73, R77 (log 8, log 9) -/
  runFoot : Footprint
  /-- the addresses the host has written during this run, 20_memory.md R77 (log 8) -/
  hostWrote : List Nat
deriving DecidableEq, Repr

/-- What stops the machine for good. -/
inductive Fault where
  /-- Raised by the engine when a command is not complete and no agent has an enabled step, or when an agent without an
  enabled step is asked to move. 60_exceptions.md R225: "A model in which a build reaches a state with no enabled step
  and the command not complete has departed from this spec." No state that meets the invariant raises it. Safe. -/
  | noEnabledStep
deriving DecidableEq, Repr

/-- Why the model gives a step no meaning. -/
inductive Refusal where
  /-- An instruction without a meaning; raised by no arm of this model. Safe. -/
  | notModelled (mnemonic : String)
  /-- Raised by a memory access of the engine at `addr` that reads a byte nobody has written: 93 X6 "`refuse` for a run
  that reads it". Safe (log 6). -/
  | unwrittenRead (addr : Nat)
  /-- Raised by a memory access of the engine at `addr` that touches a range the platform maps to a device: 93 X7
  "`refuse`". Safe (log 7). -/
  | deviceAccess (addr : Nat)
  /-- Raised by the step in which a byte is both written by the host while BUSY and in the footprint of a command of the
  run: 93 X3 "`refuse`". Safe (log 8). -/
  | hostWriteInFootprint
  /-- Raised by a host access of `addr` that no memory backs, or that a device answers; the spec gives it no effect.
  Safe (log 10). -/
  | hostUnbacked (addr : Nat)
deriving DecidableEq, Repr

/-- Reset values of the parameter registers (10_state.md R50). -/
def Params.reset : Params :=
  { src := 0#32, sat := 0#32, dst := 0#32, rows := 0#32, cols := 0#32, ksize := 0#32, nwork := 1#32, batch := 32#32,
    qrow := 0#32, qcol := 0#32 }

/-- No fault: the fault record reads 0 (10_state.md R35 to R37, R50). -/
def FaultRecord.none : FaultRecord := { code := 0#8, fatal := false, ecp := 0#32, einfo := 0#32 }

/-- Nothing is touched. -/
def Footprint.empty : Footprint := { reads := [], writes := [] }

/-- The suggested defaults of the open parameters (92_eei_decisions.md part 2; DESIGN CHOICE, log 5, log 7). -/
def Platform.default : Platform :=
  { nwMax := Config.nwMaxDefault, memValid := [(0, Config.addrSpace)], devices := [], regBase := 0 }

/-- The machine right after reset (10_state.md R50, 70_reset_and_hazards.md R240), with nothing in memory and no turn
of the script. The values of the model's own fields are DESIGN CHOICE (log 24). -/
def State.reset : State :=
  { p := Params.reset, cp := 0#32, engine := .idle, satValid := false, satOvf := false, qInexact := false,
    ieDone := false, ieFault := false, fault := FaultRecord.none, qs := ⟨0#32, 0#32, 0#32, 0#32⟩, qpix := 0#32,
    mem := [], platform := Platform.default, env := [], portOut := none, draws := 0, runFoot := Footprint.empty,
    hostWrote := [] }

end Sys2Proof.Machine
end

