-- ==== Sys2Proof/Machine/Ops.lean ====
section
/-! DEFINITION. The named operations over memory and registers: bytes and little-endian values of memory, the memory
port with its checks, the parameter registers, the command pointer, raising a fault, returning from one, reset. -/

namespace Sys2Proof.Machine

/-! ## Bytes of memory -/

/-- The byte at an address, or none where nothing has been written (10_state.md R50). -/
def Memory.byteAt : (m : Memory) → (a : Nat) → Option Byte
  | [], _ => none
  | (k, v) :: rest, a => if a = k then some v else Memory.byteAt rest a

/-- Write one byte, keeping the canonical form. -/
def Memory.setByte : (m : Memory) → (a : Nat) → (v : Byte) → Memory
  | [], a, v => [(a, v)]
  | (k, w) :: rest, a, v =>
    if a < k then (a, v) :: (k, w) :: rest
    else if a = k then (a, v) :: rest
    else (k, w) :: Memory.setByte rest a v

/-- Make an address hold no value again. -/
def Memory.eraseByte (m : Memory) (a : Nat) : Memory := m.filter fun x => x.1 != a

/-- Give `n` bytes from `a` the values they have in `old`. -/
def Memory.restore (old : Memory) : (n : Nat) → (a : Nat) → (m : Memory) → Memory
  | 0, _, m => m
  | n + 1, a, m =>
    Memory.restore old n (a + 1)
      (match old.byteAt a with
        | some v => m.setByte a v
        | none => m.eraseByte a)

/-- The little-endian value of `n` bytes from `a` (20_memory.md R60); none if one of them has no value. -/
def Memory.readLE (m : Memory) : (a n : Nat) → Option Nat
  | _, 0 => some 0
  | a, n + 1 =>
    match m.byteAt a, Memory.readLE m (a + 1) n with
    | some b, some v => some (b.toNat + 256 * v)
    | _, _ => none

/-- Write a list of bytes at ascending addresses from `a`. -/
def Memory.writeBytes : (m : Memory) → (a : Nat) → (bs : List Byte) → Memory
  | m, _, [] => m
  | m, a, b :: bs => Memory.writeBytes (m.setByte a b) (a + 1) bs

/-- Write the `n` bytes of `v` from `a`, little-endian (20_memory.md R60). -/
def Memory.writeLE (m : Memory) (a n v : Nat) : Memory := m.writeBytes a (bytesLE n v)

/-! ## Address ranges -/

/-- The address lies in the range (base, length). -/
def inRange (a : Nat) (r : Nat × Nat) : Bool := decide (r.1 ≤ a) && decide (a < r.1 + r.2)

/-- The memory port accepts the address: `MemValid` (20_memory.md R82), inside the address space. -/
def Platform.backs (pl : Platform) (a : Nat) : Bool :=
  decide (a < Config.addrSpace) && pl.memValid.any (inRange a)

/-- The platform maps the address to a device (20_memory.md R67). -/
def Platform.isDevice (pl : Platform) (a : Nat) : Bool := pl.devices.any (inRange a)

/-- Plain memory: backed and no device. -/
def Platform.plain (pl : Platform) (a : Nat) : Bool := pl.backs a && !pl.isDevice a

/-- The byte address at which the platform shows word `idx` of the register map (10_state.md R28). -/
def Platform.regAddress (pl : Platform) (idx : BitVec 6) : Nat := pl.regBase + 4 * idx.toNat

/-- The `len` bytes at `base`. -/
def Span.block (base len : Nat) : Span := { base := base, len := len, stride := len, count := 1 }

/-- The address lies in one of the blocks. -/
def inSpan (a : Nat) (x : Span) : Bool :=
  decide (x.base ≤ a) && decide ((a - x.base) % x.stride < x.len) && decide ((a - x.base) / x.stride < x.count)

/-- Every byte of a footprint, read or written. -/
def Footprint.spans (f : Footprint) : List Span := f.reads ++ f.writes

/-! ## The memory port -/

/-- How an access of the memory port fails: rejected with its address (20_memory.md R82), or given no meaning. -/
inductive Stop where
  | bus (addr : Nat)
  | refuse (why : Refusal)
deriving DecidableEq, Repr

/-- May the `n` bytes at `a` be accessed? `MemValid` first, then devices (20_memory.md R82, R67; log 26). -/
def portCheck (pl : Platform) (a n : Nat) : Except Stop Unit :=
  if (List.range n).all fun i => pl.backs (a + i) then
    if (List.range n).any fun i => pl.isDevice (a + i) then .error (.refuse (.deviceAccess a)) else .ok ()
  else .error (.bus a)

/-- `MemRead(addr, n)` (20_memory.md R60, R82). -/
def memRead (s : State) (a n : Nat) : Except Stop Nat :=
  match portCheck s.platform a n with
  | .error e => .error e
  | .ok _ =>
    match s.mem.readLE a n with
    | some v => .ok v
    | none => .error (.refuse (.unwrittenRead a))

/-- `MemWrite(addr, n, v)` (20_memory.md R60, R82). -/
def memWrite (s : State) (a n v : Nat) : Except Stop State :=
  match portCheck s.platform a n with
  | .error e => .error e
  | .ok _ => .ok { s with mem := s.mem.writeLE a n v }

/-! ## Registers -/

/-- `p[i]` (10_state.md R20). -/
def Params.get (p : Params) : PReg → Word
  | .src => p.src
  | .sat => p.sat
  | .dst => p.dst
  | .rows => p.rows
  | .cols => p.cols
  | .ksize => p.ksize
  | .nwork => p.nwork
  | .batch => p.batch
  | .qrow => p.qrow
  | .qcol => p.qcol

/-- `p[i] <- v` (10_state.md R20). -/
def Params.set (p : Params) (r : PReg) (v : Word) : Params :=
  match r with
  | .src => { p with src := v }
  | .sat => { p with sat := v }
  | .dst => { p with dst := v }
  | .rows => { p with rows := v }
  | .cols => { p with cols := v }
  | .ksize => { p with ksize := v }
  | .nwork => { p with nwork := v }
  | .batch => { p with batch := v }
  | .qrow => { p with qrow := v }
  | .qcol => { p with qcol := v }

/-- The registers whose every write clears `SATVALID` (10_state.md R21). -/
def clearsSatValid : PReg → Bool
  | .src | .sat | .rows | .cols => true
  | .dst | .ksize | .nwork | .batch | .qrow | .qcol => false

/-- Write a parameter register, with the side effect of 10_state.md R21. -/
def setParam (r : PReg) (v : Word) (s : State) : State :=
  { s with p := s.p.set r v, satValid := s.satValid && !clearsSatValid r }

/-- Write `cp`: "stores `value[31:2] ++ 00`" (10_state.md R23). -/
def setCp (v : Word) (s : State) : State := { s with cp := v &&& 0xFFFFFFFC#32 }

/-- A command other than `JMP` and `HALT` has completed: `cp` advances and the sequencer fetches again
(10_state.md R24, 42_sequencer.md R180). -/
def complete (s : State) : State := { setCp (s.cp + 4#32) s with engine := .busy .fetch }

/-- The command in flight has this substate now. -/
def setCmd (c : CmdState) (s : State) : State := { s with engine := .busy (.exec c) }

/-! ## Faults -/

/-- The faults by name (60_exceptions.md R200). -/
inductive FaultCode where
  | notLoaded | invalidKernel | illegalCommand | paramMisaligned | paramRange | overlap | satNotValid | badParam
  | busError
deriving DecidableEq, Repr

/-- `CAUSE.CODE` (60_exceptions.md R200). -/
def FaultCode.number : FaultCode → BitVec 8
  | .notLoaded => 1#8
  | .invalidKernel => 2#8
  | .illegalCommand => 3#8
  | .paramMisaligned => 4#8
  | .paramRange => 5#8
  | .overlap => 6#8
  | .satNotValid => 7#8
  | .badParam => 8#8
  | .busError => 9#8

/-- `raise Fault(code, info)` (60_exceptions.md R210): the record is written, `cp` is kept, the hidden state of the run
is discarded with BUSY. -/
def raiseFault (code : FaultCode) (info : Word) (s : State) : State :=
  { s with
    fault := { code := code.number, fatal := decide (code = .busError), ecp := s.cp, einfo := info }
    engine := .faulted }

/-- The return from a fault: the CLR action (60_exceptions.md R215). -/
def clrAction (s : State) : State :=
  match s.engine with
  | .done => { s with engine := .idle }
  | .faulted => if s.fault.fatal then s else { s with fault := FaultRecord.none, engine := .idle }
  | .idle => s
  | .busy _ => s

/-! ## Bytes the host has read -/

/-- The byte when a command that writes the spans is fetched (20_memory.md R77; log 9). -/
def ReadByte.settle (writes : List Span) : ReadByte → ReadByte
  | .settled v => .settled v
  | .pending a kept free => if writes.any (inSpan a) then .settled free else .pending a kept free

/-- The byte when the run is over: no command can write it any more (20_memory.md R67; log 9). -/
def ReadByte.close : ReadByte → ReadByte
  | .settled v => .settled v
  | .pending _ kept _ => .settled kept

/-- The value of a read byte; none while the run that may still write it goes on (log 9). -/
def ReadByte.value (busy : Bool) : ReadByte → Option Byte
  | .settled v => some v
  | .pending _ kept _ => if busy then none else some kept

/-- Change every byte of an answer. -/
def Answer.mapBytes (f : ReadByte → ReadByte) : Answer → Answer
  | .word v => .word v
  | .bytes bs => .bytes (bs.map f)

/-- The bytes of the run before are settled: a new run begins (log 9). -/
def closeAnswer (s : State) : Option Answer := s.portOut.map (Answer.mapBytes ReadByte.close)

/-! ## Launch, irq, check lists -/

/-- Launch: the GO action (42_sequencer.md R187). The record of the run's footprint begins anew (log 8, log 9). -/
def goAction (s : State) : State :=
  match s.engine with
  | .idle =>
    { s with engine := .busy .fetch, portOut := closeAnswer s, runFoot := Footprint.empty, hostWrote := [] }
  | .busy _ => s
  | .done => s
  | .faulted => s

/-- The level of the output `irq` (60_exceptions.md R214). -/
def irq (s : State) : Bool :=
  match s.engine with
  | .done => s.ieDone
  | .faulted => s.ieFault
  | .idle => false
  | .busy _ => false

/-- The first fault of a check list whose condition holds, with its `EINFO` (60_exceptions.md R212). -/
def firstFault : List (Bool × FaultCode × Word) → Option (FaultCode × Word)
  | [] => none
  | (cond, code, info) :: rest => if cond then some (code, info) else firstFault rest

/-! ## Unspecified contents -/

/-- Give every plain byte of `n` bytes from `a` the free value of draw `d` (93 X4; log 13). -/
def Memory.havoc (pl : Platform) (d : Nat) : (n : Nat) → (a : Nat) → (m : Memory) → Memory
  | 0, _, m => m
  | n + 1, a, m => Memory.havoc pl d n (a + 1) (if pl.plain a then m.setByte a (Config.freeByte d a) else m)

/-- All state of 10_state.md R50 to its reset value; memory is not touched (70_reset_and_hazards.md R240 to R242). The
platform, the script, the host's answer and the draw counter are no state of that table. -/
def resetRegs (s : State) : State :=
  { State.reset with mem := s.mem, platform := s.platform, env := s.env, portOut := s.portOut, draws := s.draws }

end Sys2Proof.Machine
end

