-- ==== Sys2Proof/Machine/Flags.lean ====
section
/-! DEFINITION. The arithmetic of the channels: exact integers, one clamp at the end (00_scope.md R6 to R8), the three
cell-update laws with the flag `SATOVF`, the average, the flag `QINEXACT`. -/

namespace Sys2Proof.Machine

/-- The largest SatPixel channel, `M` (00_scope.md R5). -/
def maxSum : Nat := 2 ^ 32 - 1

/-- `clamp(v, lo, hi)` (00_scope.md, notation). -/
def clamp (v lo hi : Int) : Int := if v < lo then lo else if hi < v then hi else v

/-- `sat32(v)` (00_scope.md R7). -/
def sat32 (v : Int) : Word := BitVec.ofInt 32 (clamp v 0 maxSum)

/-- `sat8(v)` (00_scope.md R7). -/
def sat8 (v : Int) : Byte := BitVec.ofInt 8 (clamp v 0 255)

/-- The exact value does not fit a SatPixel channel (40_build.md R112). -/
def exceeds (v : Int) : Bool := decide ((maxSum : Int) < v)

/-- The same operation on each channel (00_scope.md R6). -/
def Quad.map {α β : Type} (f : α → β) (q : Quad α) : Quad β := ⟨f q.r, f q.g, f q.b, f q.a⟩

/-- Some channel satisfies the test. -/
def Quad.any {α : Type} (f : α → Bool) (q : Quad α) : Bool := f q.r || f q.g || f q.b || f q.a

/-- The same operation on each pair of channels (00_scope.md R6). -/
def Quad.zip {α β γ : Type} (f : α → β → γ) (x : Quad α) (y : Quad β) : Quad γ :=
  ⟨f x.r y.r, f x.g y.g, f x.b y.b, f x.a y.a⟩

/-- The channel of a Pixel as an integer. -/
def byteInt (x : Byte) : Int := (x.toNat : Int)

/-- The channel of a SatPixel as an integer. -/
def wordInt (x : Word) : Int := (x.toNat : Int)

/-- The exact value of `ColStep(px, up)` (40_build.md R112). -/
def colExact (px : Quad Byte) (up : Quad Word) : Quad Int := Quad.zip (fun x u => byteInt x + wordInt u) px up

/-- The exact value of `RowStep(cur, left)` (40_build.md R112). -/
def rowExact (cur left : Quad Word) : Quad Int := Quad.zip (fun x l => wordInt x + wordInt l) cur left

/-- The exact value of `SerialStep(px, up, left, diag)` (40_build.md R112): no partial sum is clamped. -/
def serialExact (px : Quad Byte) (up left diag : Quad Word) : Quad Int :=
  Quad.zip (fun x d => x - d) (Quad.zip (fun x l => x + l) (colExact px up) (Quad.map wordInt left))
    (Quad.map wordInt diag)

/-- The exact value of a window sum `BR - BL - TR + TL` (41_query.md R152). -/
def winExact (br bl tr tl : Quad Word) : Quad Int :=
  Quad.zip (fun x t => x + wordInt t) (Quad.zip (fun x t => x - wordInt t) (Quad.zip (fun x l => wordInt x - wordInt l) br bl) tr) tl

/-- Some channel equals `0xFFFFFFFF` (10_state.md R27). -/
def atMax (q : Quad Word) : Bool := Quad.any (fun x => decide (x = 0xFFFFFFFF#32)) q

/-- The flag of a window sum (41_query.md R152). -/
def winInexact (br bl tr tl : Quad Word) : Bool := atMax br || atMax bl || atMax tr || atMax tl

/-- One colour channel of the average: `min(255, q div area)` (41_query.md R154). -/
def avgChannel (area : Nat) (q : Word) : Byte := BitVec.ofNat 8 (min 255 (q.toNat / area))

/-- `AvgPix(q)` with the constant alpha (41_query.md R154, R155), packed `A ++ B ++ G ++ R`. -/
def avgPix (area : Nat) (q : Quad Word) : Word :=
  0xFF#8 ++ avgChannel area q.b ++ avgChannel area q.g ++ avgChannel area q.r

end Sys2Proof.Machine
end

