-- ==== Sys2Proof/Machine/Operands.lean ====
section
/-! DEFINITION. Operands: the destination register of `SETL` and `SETH`, the geometry of the three grids, the grid
access primitives, the window sum, and the check lists of the builds and the queries. -/

namespace Sys2Proof.Machine

/-- The parameter register a 4-bit number names; 10 to 15 do not exist (10_state.md R20). -/
def pregOf (pd : BitVec 4) : Option PReg :=
  match pd.toNat with
  | 0 => some .src
  | 1 => some .sat
  | 2 => some .dst
  | 3 => some .rows
  | 4 => some .cols
  | 5 => some .ksize
  | 6 => some .nwork
  | 7 => some .batch
  | 8 => some .qrow
  | 9 => some .qcol
  | _ => none

/-! ## Geometry -/

/-- `Hp`, rows of the padded grid and of the SAT grid (20_memory.md section 4). -/
def hp (s : State) : Nat := s.p.rows.toNat

/-- `Wp`, columns of the padded grid and of the SAT grid (20_memory.md section 4). -/
def wp (s : State) : Nat := s.p.cols.toNat

/-- `K`, the kernel size (41_query.md R150). -/
def kSize (s : State) : Nat := s.p.ksize.toNat

/-- `H = Hp - K - 1`, which may be zero or negative (41_query.md R150, R151). -/
def imgH (s : State) : Int := (hp s : Int) - kSize s - 1

/-- `W = Wp - K - 1`, which may be zero or negative (41_query.md R150, R151). -/
def imgW (s : State) : Int := (wp s : Int) - kSize s - 1

/-- `addr(base, cols, es, r, c)` (20_memory.md R63). -/
def gridAddr (base cols es r c : Nat) : Nat := base + es * (r * cols + c)

/-- The address of the Pixel `(r, c)` of the padded grid (20_memory.md R68). -/
def pxAddr (s : State) (r c : Nat) : Nat := gridAddr s.p.src.toNat (wp s) 4 r c

/-- The address of the SatPixel `(r, c)` (20_memory.md R69). -/
def satAddr (s : State) (r c : Nat) : Nat := gridAddr s.p.sat.toNat (wp s) 16 r c

/-- The address of the Pixel `(r, c)` of the output image (20_memory.md R70). -/
def dstAddr (s : State) (r c : Nat) : Nat := gridAddr s.p.dst.toNat (imgW s).toNat 4 r c

/-! ## Element layouts -/

/-- The Pixel in a 4-byte value (20_memory.md R61). -/
def unpackPixel (v : Nat) : Quad Byte :=
  ⟨BitVec.ofNat 8 v, BitVec.ofNat 8 (v / 2 ^ 8), BitVec.ofNat 8 (v / 2 ^ 16), BitVec.ofNat 8 (v / 2 ^ 24)⟩

/-- The SatPixel in a 16-byte value (20_memory.md R62). -/
def unpackSat (v : Nat) : Quad Word :=
  ⟨BitVec.ofNat 32 v, BitVec.ofNat 32 (v / 2 ^ 32), BitVec.ofNat 32 (v / 2 ^ 64), BitVec.ofNat 32 (v / 2 ^ 96)⟩

/-- The 16-byte value of a SatPixel (20_memory.md R62, R69). -/
def packSat (q : Quad Word) : Nat :=
  q.r.toNat + 2 ^ 32 * q.g.toNat + 2 ^ 64 * q.b.toNat + 2 ^ 96 * q.a.toNat

/-! ## The grid access primitives -/

/-- `PX(r, c)` (20_memory.md R68). -/
def readPx (s : State) (r c : Nat) : Except Stop (Quad Byte) :=
  match memRead s (pxAddr s r c) 4 with
  | .error e => .error e
  | .ok v => .ok (unpackPixel v)

/-- `SATR(r, c)` (20_memory.md R69). -/
def satR (s : State) (r c : Nat) : Except Stop (Quad Word) :=
  match memRead s (satAddr s r c) 16 with
  | .error e => .error e
  | .ok v => .ok (unpackSat v)

/-- `SATW(r, c, q)` (20_memory.md R69). -/
def satW (s : State) (r c : Nat) (q : Quad Word) : Except Stop State :=
  memWrite s (satAddr s r c) 16 (packSat q)

/-- `DSTW(r, c, pix)` (20_memory.md R70). -/
def dstW (s : State) (r c : Nat) (pix : Word) : Except Stop State :=
  memWrite s (dstAddr s r c) 4 pix.toNat

/-- `WinSum(row, col)` (41_query.md R152): four reads in the order written. -/
def winSum (s : State) (row col : Nat) : Except Stop (Quad Int × Bool) :=
  match satR s (row + kSize s) (col + kSize s) with
  | .error e => .error e
  | .ok br =>
    match satR s (row + kSize s) col with
    | .error e => .error e
    | .ok bl =>
      match satR s row (col + kSize s) with
      | .error e => .error e
      | .ok tr =>
        match satR s row col with
        | .error e => .error e
        | .ok tl => .ok (winExact br bl tr tl, winInexact br bl tr tl)

/-! ## Check lists -/

/-- The checks of a build, in order (40_build.md R113). -/
def buildChecks (strategy : Strategy) (s : State) : List (Bool × FaultCode × Word) :=
  let nc := hp s * wp s
  let src := s.p.src.toNat
  let sat := s.p.sat.toNat
  [ (decide (hp s = 0) || decide (wp s = 0), .notLoaded, 0#32),
    (decide (strategy = .wavefront) && decide (s.p.batch.toNat = 0), .badParam, 7#32),
    (decide (strategy = .barrier) &&
      (decide (s.p.nwork.toNat = 0) || decide (s.platform.nwMax < s.p.nwork.toNat)), .badParam, 6#32),
    (decide (src % 4 ≠ 0), .paramMisaligned, 0#32),
    (decide (sat % 16 ≠ 0), .paramMisaligned, 1#32),
    (decide (Config.addrSpace < src + 4 * nc), .paramRange, 0#32),
    (decide (Config.addrSpace < sat + 16 * nc), .paramRange, 1#32),
    (decide (src < sat + 16 * nc) && decide (sat < src + 4 * nc), .overlap, 0#32) ]

/-- The three commands that share the checks of 41_query.md R151. -/
inductive QueryKind where
  | sum | blur | apply
deriving DecidableEq, Repr

/-- The command writes the output image. -/
def QueryKind.writesImage : QueryKind → Bool
  | .sum => false
  | .blur => true
  | .apply => true

/-- The command takes `p[QROW]` and `p[QCOL]`. -/
def QueryKind.takesPosition : QueryKind → Bool
  | .sum => true
  | .blur => true
  | .apply => false

/-- The checks of a query, in order (41_query.md R151). -/
def queryChecks (k : QueryKind) (s : State) : List (Bool × FaultCode × Word) :=
  let dst := s.p.dst.toNat
  let sat := s.p.sat.toNat
  [ (decide (hp s = 0) || decide (wp s = 0), .notLoaded, 0#32),
    (decide (s.p.ksize.toInt ≤ 0) || decide (kSize s % 2 = 0), .invalidKernel, s.p.ksize),
    (!s.satValid, .satNotValid, 0#32),
    (k.writesImage && decide (dst % 4 ≠ 0), .paramMisaligned, 2#32),
    (decide (imgH s < 1) || decide (imgW s < 1), .paramRange, 5#32),
    (k.takesPosition && decide (imgH s ≤ (s.p.qrow.toNat : Int)), .paramRange, 8#32),
    (k.takesPosition && decide (imgW s ≤ (s.p.qcol.toNat : Int)), .paramRange, 9#32),
    (k.writesImage && decide ((Config.addrSpace : Int) < dst + 4 * (imgH s * imgW s)), .paramRange, 2#32),
    (k.writesImage && decide (dst < sat + 16 * (hp s * wp s)) &&
      decide ((sat : Int) < dst + 4 * (imgH s * imgW s)), .overlap, 2#32) ]

/-- The checks of `RDCELL`, in order (41_query.md R158). -/
def cellChecks (s : State) : List (Bool × FaultCode × Word) :=
  [ (decide (hp s = 0) || decide (wp s = 0), .notLoaded, 0#32),
    (!s.satValid, .satNotValid, 0#32),
    (decide (hp s ≤ s.p.qrow.toNat), .paramRange, 8#32),
    (decide (wp s ≤ s.p.qcol.toNat), .paramRange, 9#32) ]

end Sys2Proof.Machine
end

