-- ==== Sys2Proof/Machine/Build.lean ====
section
/-! DEFINITION. The build commands (40_build.md). The meaning of a `BUILD` makes the checks and starts the command;
each cell update, publication, wake-up, arrival and release is then one step of its agent (40_build.md R130). -/

namespace Sys2Proof.Machine

/-! ## Start and completion -/

/-- Checks, then start (40_build.md R113, R114): the flags are cleared and the sentinel initialisation begins. -/
def startBuild (strategy : Strategy) (s : State) : Host.Outcome State Fault Refusal :=
  match firstFault (buildChecks strategy s) with
  | some (code, info) => .next (raiseFault code info s)
  | none => .next (setCmd (.sentinels strategy 0) { s with satValid := false, satOvf := false })

/-- `BUILD.S` (40_build.md R117). -/
def execBuildS (s : State) : Host.Outcome State Fault Refusal := startBuild .serial s

/-- `BUILD.W` (40_build.md R118). -/
def execBuildW (s : State) : Host.Outcome State Fault Refusal := startBuild .wavefront s

/-- `BUILD.B` (40_build.md R122). -/
def execBuildB (s : State) : Host.Outcome State Fault Refusal := startBuild .barrier s

/-- Completion (40_build.md R116). -/
def completeBuild (s : State) : State := { complete s with satValid := true }

/-- What a build leaves behind when it is cut by a BusError or by `SRST`: `SATVALID = 0`, and free values in the SAT
grid and in `SATOVF` (60_exceptions.md R211, R216; 93 X4; log 13). -/
def cutBuild (s : State) : State :=
  { s with
    satValid := false
    satOvf := Config.freeBit s.draws 0
    mem := Memory.havoc s.platform s.draws (16 * (hp s * wp s)) s.p.sat.toNat s.mem
    draws := s.draws + 1 }

/-- One step of an agent of a build: `result` is what its memory accesses gave, `k` moves the agent's cursor. A
rejected access raises BusError, and every agent of the command stops (60_exceptions.md R209). -/
def buildStep (result : Except Stop State) (s : State) (k : State → State) : Host.Outcome State Fault Refusal :=
  match result with
  | .error (.bus a) => .next (raiseFault .busError (BitVec.ofNat 32 a) (cutBuild s))
  | .error (.refuse why) => .refused why
  | .ok t => .next (k t)

/-! ## Cell updates -/

/-- Store the clamped exact value in cell `(r, c)`; `SATOVF` is set when a channel exceeds `M` (40_build.md R112). -/
def cellUpdate (s : State) (r c : Nat) (x : Quad Int) : Except Stop State :=
  match satW s r c (Quad.map sat32 x) with
  | .error e => .error e
  | .ok t => .ok { t with satOvf := s.satOvf || Quad.any exceeds x }

/-- `SATW(r, c, ColStep(PX(r,c), SATR(r-1,c)))` (40_build.md R119, R124). The reads are made left to right, which no rule
says (DESIGN CHOICE, log 32). -/
def colCell (s : State) (r c : Nat) : Except Stop State :=
  match readPx s r c with
  | .error e => .error e
  | .ok px =>
    match satR s (r - 1) c with
    | .error e => .error e
    | .ok up => cellUpdate s r c (colExact px up)

/-- `SATW(r, c, RowStep(SATR(r,c), SATR(r,c-1)))` (40_build.md R120, R126). The reads are made left to right, which no
rule says (DESIGN CHOICE, log 32). -/
def rowCell (s : State) (r c : Nat) : Except Stop State :=
  match satR s r c with
  | .error e => .error e
  | .ok cur =>
    match satR s r (c - 1) with
    | .error e => .error e
    | .ok left => cellUpdate s r c (rowExact cur left)

/-- `SATW(r, c, SerialStep(PX(r,c), SATR(r-1,c), SATR(r,c-1), SATR(r-1,c-1)))` (40_build.md R117). The reads are made
left to right, which no rule says (DESIGN CHOICE, log 32). -/
def serialCell (s : State) (r c : Nat) : Except Stop State :=
  match readPx s r c with
  | .error e => .error e
  | .ok px =>
    match satR s (r - 1) c with
    | .error e => .error e
    | .ok up =>
      match satR s r (c - 1) with
      | .error e => .error e
      | .ok left =>
        match satR s (r - 1) (c - 1) with
        | .error e => .error e
        | .ok diag => cellUpdate s r c (serialExact px up left diag)

/-! ## Sentinel initialisation -/

/-- The `z`-th sentinel cell: row 0 left to right, then column 0 downward (40_build.md R115). -/
def sentinelCell (wp z : Nat) : Nat × Nat := if z < wp then (0, z) else (z - wp + 1, 0)

/-- The span `[lo, hi)` of worker `w` of `n` over the indices `1 .. l-1` (40_build.md R123). -/
def spanLo (l n w : Nat) : Nat := 1 + w * (l - 1) / n

/-- The end of the span of worker `w` (40_build.md R123). -/
def spanHi (l n w : Nat) : Nat := 1 + (w + 1) * (l - 1) / n

/-- Worker `w` at the start of pass 1, over columns (40_build.md R124). -/
def pass1Worker (s : State) (w : Nat) : Worker :=
  { lo := spanLo (wp s) s.p.nwork.toNat w, hi := spanHi (wp s) s.p.nwork.toNat w, r := 1,
    c := spanLo (wp s) s.p.nwork.toNat w, arrived := false }

/-- Worker `w` at the start of pass 2, over rows (40_build.md R126). -/
def pass2Worker (s : State) (w : Nat) : Worker :=
  { lo := spanLo (hp s) s.p.nwork.toNat w, hi := spanHi (hp s) s.p.nwork.toNat w,
    r := spanLo (hp s) s.p.nwork.toNat w, c := 1, arrived := false }

/-- Pass 1 begins: `N` workers, none arrived (40_build.md R122). -/
def pass1 (s : State) : Barrier :=
  { pass := .one, arrivedCount := 0, workers := (List.range s.p.nwork.toNat).map (pass1Worker s) }

/-- Pass 2 begins: `N` workers, none arrived (40_build.md R122). -/
def pass2 (s : State) : Barrier :=
  { pass := .two, arrivedCount := 0, workers := (List.range s.p.nwork.toNat).map (pass2Worker s) }

/-- The wavefront's hidden state at its start (40_build.md R118, R119). Neither R118 nor 10_state.md R47 gives `limit` and
`cc` a value before the first `C-WAKE`, which writes both before they are read: 0 and 1 are the model's own (DESIGN
CHOICE, log 31). -/
def waveStart : Wave :=
  { safeRow := 0, pr := 1, pc := 1, pdone := false, cur := 1, cc := 1, limit := 0, mode := .waiting }

/-- The strategy's agents at their start (10_state.md R46 to R48). -/
def strategyStart (strategy : Strategy) (s : State) : CmdState :=
  match strategy with
  | .serial => .serial 1 1
  | .wavefront => .wave waveStart
  | .barrier => .barrier (pass1 s)

/-- `Z-CELL` (40_build.md R115, R130): one sentinel is zeroed; after the last one the strategy's agents exist. -/
def sentinelStep (strategy : Strategy) (z : Nat) (s : State) : Host.Outcome State Fault Refusal :=
  buildStep (satW s (sentinelCell (wp s) z).1 (sentinelCell (wp s) z).2 ⟨0#32, 0#32, 0#32, 0#32⟩) s
    (setCmd (if z + 1 < hp s + wp s - 1 then .sentinels strategy (z + 1) else strategyStart strategy s))

/-! ## Serial -/

/-- `S-CELL`, or completion after the last cell (40_build.md R117). -/
def serialStep (r c : Nat) (s : State) : Host.Outcome State Fault Refusal :=
  if r < hp s ∧ c < wp s then
    buildStep (serialCell s r c) s (setCmd (if c + 1 < wp s then .serial r (c + 1) else .serial (r + 1) 1))
  else .next (completeBuild s)

/-! ## Wavefront-Pipeline -/

/-- The end of a row of the producer: `P-PUBLISH` certifies the row before it when the batch is full, and the producer
goes to the next row (40_build.md R119; log 16). -/
def producerRowEnd (batch : Nat) (w : Wave) : Wave :=
  { w with safeRow := if w.pr % batch = 0 then w.pr - 1 else w.safeRow, pr := w.pr + 1, pc := 1 }

/-- A step of the producer: `P-CELL`, the end of a row, or `P-FINAL` (40_build.md R119). -/
def producerStep (w : Wave) (s : State) : Host.Outcome State Fault Refusal :=
  if w.pdone then .fault .noEnabledStep
  else if w.pr < hp s then
    if w.pc < wp s then buildStep (colCell s w.pr w.pc) s (setCmd (.wave { w with pc := w.pc + 1 }))
    else .next (setCmd (.wave (producerRowEnd s.p.batch.toNat w)) s)
  else .next (setCmd (.wave { w with safeRow := hp s - 1, pdone := true }) s)

/-- The end of a row of the consumer: the next row if it is within `limit`, else it waits (40_build.md R120; log 16). -/
def consumerRowEnd (w : Wave) : Wave :=
  { w with cur := w.cur + 1, cc := 1, mode := if w.cur + 1 ≤ w.limit then .draining else .waiting }

/-- `C-WAKE` is enabled only when `safeRow >= cur`; while draining the consumer always has a step (40_build.md R120). -/
def consumerEnabled (w : Wave) (s : State) : Bool :=
  match w.mode with
  | .waiting => decide (w.cur < hp s) && decide (w.cur ≤ w.safeRow)
  | .draining => true

/-- A step of the consumer: `C-WAKE`, `C-CELL`, or the end of a row (40_build.md R120). -/
def consumerStep (w : Wave) (s : State) : Host.Outcome State Fault Refusal :=
  match w.mode with
  | .waiting =>
    if w.cur < hp s ∧ w.cur ≤ w.safeRow then
      .next (setCmd (.wave { w with limit := w.safeRow, mode := .draining, cc := 1 }) s)
    else .fault .noEnabledStep
  | .draining =>
    if w.cc < wp s then buildStep (rowCell s w.cur w.cc) s (setCmd (.wave { w with cc := w.cc + 1 }))
    else .next (setCmd (.wave (consumerRowEnd w)) s)

/-- Producer and consumer have finished (40_build.md R118). -/
def waveJoined (w : Wave) (s : State) : Bool :=
  w.pdone && decide (w.mode = .waiting) && decide (hp s ≤ w.cur)

/-! ## Two-Pass-Barrier -/

/-- The cursor of a pass-1 worker after a cell: the next column of its span, else the next row (40_build.md R124). -/
def nextInPass1 (k : Worker) : Worker :=
  if k.c + 1 < k.hi then { k with c := k.c + 1 } else { k with r := k.r + 1, c := k.lo }

/-- The cursor of a pass-2 worker after a cell: the next column, else the next row of its span (40_build.md R126). -/
def nextInPass2 (wp : Nat) (k : Worker) : Worker :=
  if k.c + 1 < wp then { k with c := k.c + 1 } else { k with r := k.r + 1, c := 1 }

/-- The barrier's state with worker `i` changed. -/
def setWorker (b : Barrier) (i : Nat) (k : Worker) : Barrier := { b with workers := b.workers.set i k }

/-- `ARRIVE` (40_build.md R124, R126). -/
def arrive (b : Barrier) (i : Nat) (k : Worker) : Barrier :=
  { setWorker b i { k with arrived := true } with arrivedCount := b.arrivedCount + 1 }

/-- A step of worker `i`: `W1-CELL` or `W2-CELL`, else `ARRIVE` (40_build.md R124, R126). -/
def workerStep (i : Nat) (b : Barrier) (s : State) : Host.Outcome State Fault Refusal :=
  match b.workers[i]? with
  | none => .fault .noEnabledStep
  | some k =>
    if k.arrived then .fault .noEnabledStep
    else
      match b.pass with
      | .one =>
        if k.r < hp s ∧ k.c < k.hi then
          buildStep (colCell s k.r k.c) s (setCmd (.barrier (setWorker b i (nextInPass1 k))))
        else .next (setCmd (.barrier (arrive b i k)) s)
      | .two =>
        if k.r < k.hi ∧ k.c < wp s then
          buildStep (rowCell s k.r k.c) s (setCmd (.barrier (setWorker b i (nextInPass2 (wp s) k))))
        else .next (setCmd (.barrier (arrive b i k)) s)

/-- All workers of the pass have arrived (40_build.md R125). -/
def allArrived (b : Barrier) : Bool := decide (b.arrivedCount = b.workers.length)

/-- `RELEASE` after pass 1, completion after pass 2 (40_build.md R122, R125). -/
def barrierOpens (b : Barrier) (s : State) : Host.Outcome State Fault Refusal :=
  match b.pass with
  | .one => .next (setCmd (.barrier (pass2 s)) s)
  | .two => .next (completeBuild s)

end Sys2Proof.Machine
end

