-- ==== Sys2Proof/Machine/Query.lean ====
section
/-! DEFINITION. The query commands (41_query.md). `QSUM`, `QBLUR` and `RDCELL` are one step; `QAPPLY` makes its checks
and starts, and each `A-PIXEL` is then one step. -/

namespace Sys2Proof.Machine

/-- The four result registers and `QPIX` and `QINEXACT` after a BusError of a command that writes them: free values
(60_exceptions.md R211; 93 X5; log 15). -/
def cutResults (s : State) : State :=
  { s with
    qs := ⟨Config.freeWord s.draws 0, Config.freeWord s.draws 1, Config.freeWord s.draws 2, Config.freeWord s.draws 3⟩
    qpix := Config.freeWord s.draws 4
    qInexact := Config.freeBit s.draws 0
    draws := s.draws + 1 }

/-- A rejected access: BusError at its address, after `cut` has said what is unspecified; or no meaning. -/
def queryStop (e : Stop) (cut : State) : Host.Outcome State Fault Refusal :=
  match e with
  | .bus a => .next (raiseFault .busError (BitVec.ofNat 32 a) cut)
  | .refuse why => .refused why

/-- `QSUM` (41_query.md R153). -/
def execQsum (s : State) : Host.Outcome State Fault Refusal :=
  match firstFault (queryChecks .sum s) with
  | some (code, info) => .next (raiseFault code info s)
  | none =>
    match winSum s s.p.qrow.toNat s.p.qcol.toNat with
    | .error e => queryStop e s
    | .ok (x, inexact) => .next (complete { s with qs := Quad.map sat32 x, qInexact := inexact })

/-- The packed average of the clamped window sums (41_query.md R154). -/
def averagePixel (s : State) (x : Quad Int) : Word := avgPix (kSize s * kSize s) (Quad.map sat32 x)

/-- `QBLUR` (41_query.md R156). -/
def execQblur (s : State) : Host.Outcome State Fault Refusal :=
  match firstFault (queryChecks .blur s) with
  | some (code, info) => .next (raiseFault code info s)
  | none =>
    match winSum s s.p.qrow.toNat s.p.qcol.toNat with
    | .error e => queryStop e (cutResults s)
    | .ok (x, inexact) =>
      match dstW s s.p.qrow.toNat s.p.qcol.toNat (averagePixel s x) with
      | .error e => queryStop e (cutResults s)
      | .ok t =>
        .next (complete { t with qs := Quad.map sat32 x, qInexact := inexact, qpix := averagePixel s x })

/-- `QAPPLY` (41_query.md R157): checks, then the traversal begins with `acc = false`. -/
def execQapply (s : State) : Host.Outcome State Fault Refusal :=
  match firstFault (queryChecks .apply s) with
  | some (code, info) => .next (raiseFault code info s)
  | none => .next (setCmd (.traverse 0 0 false s.mem) s)

/-- `RDCELL` (41_query.md R158). -/
def execRdcell (s : State) : Host.Outcome State Fault Refusal :=
  match firstFault (cellChecks s) with
  | some (code, info) => .next (raiseFault code info s)
  | none =>
    match satR s s.p.qrow.toNat s.p.qcol.toNat with
    | .error e => queryStop e s
    | .ok q => .next (complete { s with qs := q })

/-! ## The traversal of `QAPPLY` -/

/-- The final value of output Pixel `(r, c)`, where its four cells can be read and it can be written. -/
def finalPixel (s : State) (r c : Nat) : Option Word :=
  match winSum s r c, portCheck s.platform (dstAddr s r c) 4 with
  | .ok (x, _), .ok _ => some (averagePixel s x)
  | _, _ => none

/-- The memory in which each of the first `n` output Pixels, in row-major order, has its old or its final value, which
of the two a free bit says (60_exceptions.md R211; 93 X5; log 14). -/
def cutImage (old : Memory) (s : State) : (n : Nat) → Memory
  | 0 => s.mem
  | n + 1 =>
    match Config.freeBit s.draws (n + 1), finalPixel s (n / (imgW s).toNat) (n % (imgW s).toNat) with
    | true, some pix => (cutImage old s n).writeLE (s.p.dst.toNat + 4 * n) 4 pix.toNat
    | _, _ => Memory.restore old 4 (s.p.dst.toNat + 4 * n) (cutImage old s n)

/-- What a `QAPPLY` leaves behind when it is cut by a BusError or by `SRST`. -/
def cutTraverse (old : Memory) (s : State) : State :=
  cutResults { s with mem := cutImage old s ((imgH s).toNat * (imgW s).toNat) }

/-- `A-PIXEL`, or the end of the traversal after the last Pixel (41_query.md R157). -/
def traverseStep (ar ac : Nat) (acc : Bool) (old : Memory) (s : State) : Host.Outcome State Fault Refusal :=
  if (ar : Int) < imgH s ∧ (ac : Int) < imgW s then
    match winSum s ar ac with
    | .error e => queryStop e (cutTraverse old s)
    | .ok (x, inexact) =>
      match dstW s ar ac (averagePixel s x) with
      | .error e => queryStop e (cutTraverse old s)
      | .ok t =>
        .next (setCmd
          (if ((ac + 1 : Nat) : Int) < imgW s then .traverse ar (ac + 1) (acc || inexact) old
            else .traverse (ar + 1) 0 (acc || inexact) old)
          { t with qs := Quad.map sat32 x, qpix := averagePixel s x })
  else .next (complete { s with qInexact := acc })

end Sys2Proof.Machine
end

