-- ==== Sys2Proof/Machine/Sequencer.lean ====
section
/-! DEFINITION. The meanings of `NOP`, `HALT`, `JMP`, `SETL`, `SETH` (42_sequencer.md). -/

namespace Sys2Proof.Machine

/-- `NOP` (42_sequencer.md R182). -/
def execNop (s : State) : Host.Outcome State Fault Refusal := .next (complete s)

/-- `HALT` (42_sequencer.md R183): `cp` advances, the run ends DONE. -/
def execHalt (s : State) : Host.Outcome State Fault Refusal :=
  .next { setCp (s.cp + 4#32) s with engine := .done }

/-- The target of a `JMP`: `(cp + 4 * sext(off24)) mod 2^32` (42_sequencer.md R184). -/
def jmpTarget (cp : Word) (off24 : BitVec 24) : Word := BitVec.ofInt 32 ((cp.toNat : Int) + 4 * off24.toInt)

/-- `JMP off24` (42_sequencer.md R184). -/
def execJmp (off24 : BitVec 24) (s : State) : Host.Outcome State Fault Refusal :=
  .next { setCp (jmpTarget s.cp off24) s with engine := .busy .fetch }

/-- Write the register numbered `pd` and go on; a number that names no register raises IllegalCommand with the
command's word (10_state.md R20, 60_exceptions.md R203; log 21). -/
def writeParam (pd : BitVec 4) (word : Word) (value : Word → Word) (s : State) :
    Host.Outcome State Fault Refusal :=
  match pregOf pd with
  | none => .next (raiseFault .illegalCommand word s)
  | some r => .next (complete (setParam r (value (s.p.get r)) s))

/-- `SETL pd, imm16`: `p[pd] <- zext_32(imm16)` (42_sequencer.md R185). -/
def execSetl (pd : BitVec 4) (imm16 : BitVec 16) (s : State) : Host.Outcome State Fault Refusal :=
  writeParam pd (encode (.setl pd imm16)) (fun _ => imm16.zeroExtend 32) s

/-- `SETH pd, imm16`: `p[pd] <- imm16 ++ p[pd][15:0]` (42_sequencer.md R186). -/
def execSeth (pd : BitVec 4) (imm16 : BitVec 16) (s : State) : Host.Outcome State Fault Refusal :=
  writeParam pd (encode (.seth pd imm16)) (fun old => imm16 ++ old.extractLsb' 0 16) s

end Sys2Proof.Machine
end

