-- ==== Sys2Proof/Machine/Dispatch.lean ====
section
/-! DEFINITION. One arm per constructor of Instr. -/

namespace Sys2Proof.Machine

def exec (i : Instr) (s : State) : Host.Outcome State Fault Refusal :=
  match i with
  | .nop => Sys2Proof.Machine.execNop s
  | .halt => Sys2Proof.Machine.execHalt s
  | .jmp off24 => Sys2Proof.Machine.execJmp off24 s
  | .setl pd imm16 => Sys2Proof.Machine.execSetl pd imm16 s
  | .seth pd imm16 => Sys2Proof.Machine.execSeth pd imm16 s
  | .buildS => Sys2Proof.Machine.execBuildS s
  | .buildW => Sys2Proof.Machine.execBuildW s
  | .buildB => Sys2Proof.Machine.execBuildB s
  | .qsum => Sys2Proof.Machine.execQsum s
  | .qblur => Sys2Proof.Machine.execQblur s
  | .qapply => Sys2Proof.Machine.execQapply s
  | .rdcell => Sys2Proof.Machine.execRdcell s

end Sys2Proof.Machine
end

