-- ==== Sys2Proof/Machine/HostPort.lean ====
section
/-! DEFINITION. What the host can do to the machine: the register port with its 64 words (10_state.md R28 to R41), the
soft reset and the reset input, and the shared memory (20_memory.md R75 to R77). -/

namespace Sys2Proof.Machine

/-- `STATE = BUSY` (10_state.md R41). -/
def isBusy (s : State) : Bool :=
  match s.engine with
  | .busy _ => true
  | .idle => false
  | .done => false
  | .faulted => false

/-! ## Reset -/

/-- What is unspecified when the command in flight is cut (60_exceptions.md R216; 93 X4, X5). -/
def cutRun (s : State) : State :=
  match s.engine with
  | .busy (.exec (.sentinels _ _)) => cutBuild s
  | .busy (.exec (.serial _ _)) => cutBuild s
  | .busy (.exec (.wave _)) => cutBuild s
  | .busy (.exec (.barrier _)) => cutBuild s
  | .busy (.exec (.traverse _ _ _ old)) => cutTraverse old s
  | .busy .fetch => s
  | .idle => s
  | .done => s
  | .faulted => s

/-- `CTRL.SRST`, and the reset input, "exactly the effect of the reset input" (60_exceptions.md R216,
70_reset_and_hazards.md R240, R241). -/
def softReset (s : State) : State := resetRegs (cutRun s)

/-! ## Reads of the register port -/

/-- `STATUS.STATE` (10_state.md R33, R41). -/
def stateCode (s : State) : BitVec 2 :=
  match s.engine with
  | .idle => 0#2
  | .busy _ => 1#2
  | .done => 2#2
  | .faulted => 3#2

/-- `STATUS` with the three flag bits given (10_state.md R33). -/
def statusWord (s : State) (valid ovf inexact : Bool) : Word :=
  0#23 ++ BitVec.ofBool (irq s) ++ 0#1 ++ BitVec.ofBool inexact ++ BitVec.ofBool ovf ++ BitVec.ofBool valid ++ 0#2 ++
    stateCode s

/-- `CTRL` as read: the pulses read 0 (10_state.md R32). -/
def ctrlWord (s : State) : Word := 0#22 ++ BitVec.ofBool s.ieFault ++ BitVec.ofBool s.ieDone ++ 0#8

/-- `CAUSE` (10_state.md R35). -/
def causeWord (s : State) : Word := BitVec.ofBool s.fault.fatal ++ 0#23 ++ s.fault.code

/-- The parameter register of register-map word `idx` (10_state.md R28, R40). -/
def paramOfIdx (idx : BitVec 6) : Option PReg :=
  if 16 ≤ idx.toNat ∧ idx.toNat ≤ 25 then pregOf (BitVec.ofNat 4 (idx.toNat - 16)) else none

/-- The exact value of word `idx` of the register map; reserved words read 0 (10_state.md R28, R30). -/
def regValue (idx : BitVec 6) (s : State) : Word :=
  match idx.toNat with
  | 0 => Config.idWord
  | 1 => ctrlWord s
  | 2 => statusWord s s.satValid s.satOvf s.qInexact
  | 3 => s.cp
  | 4 => causeWord s
  | 5 => s.fault.ecp
  | 6 => s.fault.einfo
  | 8 => s.qs.r
  | 9 => s.qs.g
  | 10 => s.qs.b
  | 11 => s.qs.a
  | 12 => s.qpix
  | _ =>
    match paramOfIdx idx with
    | some r => s.p.get r
    | none => 0#32

/-- The words whose read is unspecified while BUSY: `CP`, `QS_*`, `QPIX`, `P[i]` (10_state.md R29). -/
def unspecifiedWhileBusy (idx : BitVec 6) : Bool :=
  decide (idx.toNat = 3) || (decide (8 ≤ idx.toNat) && decide (idx.toNat ≤ 12)) || (paramOfIdx idx).isSome

/-- `RegRead(idx)`: while BUSY some reads, and the flag bits of `STATUS`, are free values (10_state.md R29; log 12). -/
def regRead (idx : BitVec 6) (s : State) : Word :=
  if isBusy s then
    if unspecifiedWhileBusy idx then Config.freeWord s.draws 0
    else if idx = 2#6 then
      statusWord s (Config.freeBit s.draws 0) (Config.freeBit s.draws 1) (Config.freeBit s.draws 2)
    else regValue idx s
  else regValue idx s

/-- The answer of a read transaction, with the draw counted where it may use free values. -/
def answer (a : Answer) (drawn : Bool) (s : State) : State :=
  { s with portOut := some a, draws := if drawn then s.draws + 1 else s.draws }

/-! ## Writes of the register port -/

/-- A write of `CTRL` acts in this order: SRST alone, or the enables, then CLR, then GO (10_state.md R32). -/
def ctrlWrite (v : Word) (s : State) : State :=
  if v.getLsbD 2 then softReset s
  else
    let s1 := { s with ieDone := v.getLsbD 8, ieFault := v.getLsbD 9 }
    let s2 := if v.getLsbD 1 then clrAction s1 else s1
    if v.getLsbD 0 then goAction s2 else s2

/-- `RegWrite(idx, data)`: `CTRL` always acts; `CP` and `P[i]` are ignored while BUSY; every other word ignores writes
(10_state.md R29, R30, R34, R40). -/
def regWrite (idx : BitVec 6) (data : Word) (s : State) : State :=
  match idx.toNat with
  | 1 => ctrlWrite data s
  | 3 => if isBusy s then s else setCp data s
  | _ =>
    match paramOfIdx idx with
    | some r => if isBusy s then s else setParam r data s
    | none => s

/-! ## The shared memory -/

/-- A command fetched in this run writes the address (20_memory.md R73, R77; log 9). -/
def runWrites (s : State) (a : Nat) : Bool := s.runFoot.writes.any (inSpan a)

/-- The byte at an address; one fixed free value where nothing was ever written, so that two reads agree
(20_memory.md R67; log 11). -/
def storedByte (s : State) (a : Nat) : Byte :=
  match s.mem.byteAt a with
  | some v => v
  | none => Config.unwrittenByte a

/-- What the host reads at `addr + i`. While not BUSY it is the byte there (20_memory.md R67, R76). While BUSY it is a
free value if a command fetched in this run writes the byte, and else it depends on whether a later command of the run
does (R77, 93 X2; log 9). -/
def hostByte (s : State) (addr i : Nat) : ReadByte :=
  if isBusy s then
    if runWrites s (addr + i) then .settled (Config.freeByte s.draws i)
    else .pending (addr + i) (storedByte s (addr + i)) (Config.freeByte s.draws i)
  else .settled (storedByte s (addr + i))

/-- One transaction of the host. -/
def hostStep (op : HostOp) (s : State) : Host.Outcome State Fault Refusal :=
  match op with
  | .regRead idx => .next (answer (.word (regRead idx s)) (isBusy s) s)
  | .regWrite idx data => .next (regWrite idx data s)
  | .resetInput => .next (softReset s)
  | .memRead addr n =>
    if (List.range n).all fun i => s.platform.plain (addr.toNat + i) then
      .next (answer (.bytes ((List.range n).map (hostByte s addr.toNat))) (isBusy s) s)
    else .refused (.hostUnbacked addr.toNat)
  | .memWrite addr bs =>
    if (List.range bs.length).all fun i => s.platform.plain (addr.toNat + i) then
      if isBusy s then
        if (List.range bs.length).any fun i => s.runFoot.spans.any (inSpan (addr.toNat + i)) then
          .refused .hostWriteInFootprint
        else
          .next { s with
            mem := s.mem.writeBytes addr.toNat bs
            hostWrote := (List.range bs.length).map (fun i => addr.toNat + i) ++ s.hostWrote }
      else .next { s with mem := s.mem.writeBytes addr.toNat bs }
    else .refused (.hostUnbacked addr.toNat)

end Sys2Proof.Machine
end

