-- ==== Sys2Proof/Machine/Engine.lean ====
section
/-! DEFINITION. How the engine moves: the agents of the command in flight and which of them can step (40_build.md
R130, 60_exceptions.md R222), the fetch (42_sequencer.md R180), the footprint of a command (20_memory.md R73), and the
choice of who moves next. -/

namespace Sys2Proof.Machine

/-- The engine's agents (60_exceptions.md R222). -/
inductive Agent where
  | sequencer
  | producer
  | consumer
  | worker (w : Nat)
deriving DecidableEq, Repr

/-- The workers that have not arrived. -/
def runningWorkers (b : Barrier) : List Agent :=
  ((List.range b.workers.length).filter fun i =>
    match b.workers[i]? with
    | some k => !k.arrived
    | none => false).map Agent.worker

/-- The agents that have an enabled step (40_build.md R119, R120, R122, R125, R130). -/
def enabledAgents (c : CmdState) (s : State) : List Agent :=
  match c with
  | .sentinels _ _ => [.sequencer]
  | .serial _ _ => [.sequencer]
  | .traverse _ _ _ _ => [.sequencer]
  | .wave w =>
    (if w.pdone then [] else [.producer]) ++ (if consumerEnabled w s then [.consumer] else []) ++
      (if waveJoined w s then [.sequencer] else [])
  | .barrier b => runningWorkers b ++ (if allArrived b then [.sequencer] else [])

/-- One step of an agent in the command in flight. An agent that has no step there departs from the spec. -/
def agentStep (a : Agent) (c : CmdState) (s : State) : Host.Outcome State Fault Refusal :=
  match c with
  | .sentinels strategy z =>
    match a with
    | .sequencer => sentinelStep strategy z s
    | _ => .fault .noEnabledStep
  | .serial r k =>
    match a with
    | .sequencer => serialStep r k s
    | _ => .fault .noEnabledStep
  | .traverse ar ac acc old =>
    match a with
    | .sequencer => traverseStep ar ac acc old s
    | _ => .fault .noEnabledStep
  | .wave w =>
    match a with
    | .producer => producerStep w s
    | .consumer => consumerStep w s
    | .sequencer => if waveJoined w s then .next (completeBuild s) else .fault .noEnabledStep
    | .worker _ => .fault .noEnabledStep
  | .barrier b =>
    match a with
    | .worker i => workerStep i b s
    | .sequencer => if allArrived b then barrierOpens b s else .fault .noEnabledStep
    | .producer => .fault .noEnabledStep
    | .consumer => .fault .noEnabledStep

/-- Which of the enabled agents moves: the script's pick, else a free value, which is drawn only when there is a choice
(40_build.md R130; log 2). -/
def chooseAgent (pick : Option Nat) (first : Agent) (others : List Agent) (s : State) : Agent × State :=
  match others with
  | [] => (first, s)
  | _ =>
    match pick with
    | some k => ((first :: others).getD (k % (first :: others).length) first, s)
    | none =>
      ((first :: others).getD (Config.freeChoice s.draws % (first :: others).length) first,
        { s with draws := s.draws + 1 })

/-- A step inside a command. -/
def commandStep (pick : Option Nat) (c : CmdState) (s : State) : Host.Outcome State Fault Refusal :=
  match enabledAgents c s with
  | [] => .fault .noEnabledStep
  | a :: rest => agentStep (chooseAgent pick a rest s).1 c (chooseAgent pick a rest s).2

/-! ## The footprint of a command -/

/-- The Pixels a build reads: `(r, c)` with `1 <= r < Hp`, `1 <= c < Wp` (20_memory.md R73, 40_build.md R132). -/
def paddedSpan (s : State) : Span :=
  { base := pxAddr s 1 1, len := 4 * (wp s - 1), stride := 4 * wp s, count := hp s - 1 }

/-- The whole SAT grid (20_memory.md R63). -/
def satSpan (s : State) : Span := .block s.p.sat.toNat (16 * (hp s * wp s))

/-- The whole output image (20_memory.md R63). -/
def imageSpan (s : State) : Span := .block s.p.dst.toNat (4 * ((imgH s).toNat * (imgW s).toNat))

/-- One SatPixel. -/
def cellSpan (s : State) (r c : Nat) : Span := .block (satAddr s r c) 16

/-- The offsets, in rows and columns, of the four corners a window sum reads (41_query.md R152). -/
def cornerOffsets (s : State) : List (Nat × Nat) := [(kSize s, kSize s), (kSize s, 0), (0, kSize s), (0, 0)]

/-- The four SatPixels of the window sum at an image position. -/
def windowSpans (s : State) (row col : Nat) : List Span :=
  (cornerOffsets s).map fun o => cellSpan s (row + o.1) (col + o.2)

/-- The SatPixels of the window sums at every image position: each corner sweeps `H` rows of `W` cells. -/
def sweepSpans (s : State) : List Span :=
  (cornerOffsets s).map fun o =>
    { base := satAddr s o.1 o.2, len := 16 * (imgW s).toNat, stride := 16 * wp s, count := (imgH s).toNat }

/-- The fetch of the word at `cp`. -/
def fetchSpan (s : State) : Span := .block s.cp.toNat 4

/-- What a command touches, its own word included; nothing more when one of its checks fails (20_memory.md R73). -/
def footprint (i : Instr) (s : State) : Footprint :=
  let own : Footprint := { reads := [fetchSpan s], writes := [] }
  let build (strategy : Strategy) : Footprint :=
    if (firstFault (buildChecks strategy s)).isSome then own
    else { reads := [fetchSpan s, paddedSpan s, satSpan s], writes := [satSpan s] }
  let query (fails : Option (FaultCode × Word)) (reads writes : List Span) : Footprint :=
    if fails.isSome then own else { reads := fetchSpan s :: reads, writes := writes }
  match i with
  | .nop => own
  | .halt => own
  | .jmp _ => own
  | .setl _ _ => own
  | .seth _ _ => own
  | .buildS => build .serial
  | .buildW => build .wavefront
  | .buildB => build .barrier
  | .qsum => query (firstFault (queryChecks .sum s)) (windowSpans s s.p.qrow.toNat s.p.qcol.toNat) []
  | .qblur =>
    query (firstFault (queryChecks .blur s)) (windowSpans s s.p.qrow.toNat s.p.qcol.toNat)
      [.block (dstAddr s s.p.qrow.toNat s.p.qcol.toNat) 4]
  | .qapply => query (firstFault (queryChecks .apply s)) (sweepSpans s) [imageSpan s]
  | .rdcell => query (firstFault (cellChecks s)) [cellSpan s s.p.qrow.toNat s.p.qcol.toNat] []

/-- Has the host written, during this run, into one of the spans? (20_memory.md R77; log 8). -/
def contractBroken (spans : List Span) (s : State) : Bool :=
  s.hostWrote.any fun a => spans.any (inSpan a)

/-- Add the spans that are not in the list yet. -/
def addSpans (old new : List Span) : List Span := old ++ new.filter fun x => !old.contains x

/-- Note what a command of this run touches (log 8). What the host has read of the bytes it writes is unspecified from
now on (20_memory.md R77; log 9). -/
def noteFootprint (f : Footprint) (s : State) : State :=
  { s with
    portOut := s.portOut.map (Answer.mapBytes (ReadByte.settle f.writes))
    runFoot := { reads := addSpans s.runFoot.reads f.reads, writes := addSpans s.runFoot.writes f.writes } }

/-! ## Fetch -/

/-- What the next step does: run a fetched command, or something that is already decided. -/
inductive Plan where
  | exec (i : Instr) (s : State)
  | outcome (o : Host.Outcome State Fault Refusal)

/-- The command word at `cp` (20_memory.md R80, 42_sequencer.md R180). -/
def fetchWord (s : State) : Except Stop Word :=
  match memRead s s.cp.toNat 4 with
  | .error e => .error e
  | .ok v => .ok (BitVec.ofNat 32 v)

/-- FETCH and DECODE (42_sequencer.md R180). A rejected fetch raises BusError, an illegal word IllegalCommand. -/
def fetchPlan (s : State) : Plan :=
  if contractBroken [fetchSpan s] s then .outcome (.refused .hostWriteInFootprint)
  else
    match fetchWord s with
    | .error (.bus a) => .outcome (.next (raiseFault .busError (BitVec.ofNat 32 a) s))
    | .error (.refuse why) => .outcome (.refused why)
    | .ok w =>
      match decodeWord w with
      | .error _ => .outcome (.next (raiseFault .illegalCommand w s))
      | .ok i =>
        if contractBroken (footprint i s).spans s then .outcome (.refused .hostWriteInFootprint)
        else .exec i (noteFootprint (footprint i s) s)

/-- The engine's turn. IDLE, DONE and FAULTED are quiescent (60_exceptions.md R224). -/
def enginePlan (pick : Option Nat) (s : State) : Plan :=
  match s.engine with
  | .busy .fetch => fetchPlan s
  | .busy (.exec c) => .outcome (commandStep pick c s)
  | .idle => .outcome (.next s)
  | .done => .outcome (.next s)
  | .faulted => .outcome (.next s)

/-- Who moves next, and what it does (log 2, log 3). -/
def plan (s : State) : Plan :=
  match s.env with
  | [] => enginePlan none s
  | .engine k :: rest => enginePlan (some k) { s with env := rest }
  | .host op :: rest => .outcome (hostStep op { s with env := rest })

/-! ## Placing a word where the next step fetches -/

/-- A range that does not meet the `n` bytes at `a`. -/
def apart (a n : Nat) (r : Nat × Nat) : Bool := decide (a + n ≤ r.1) || decide (r.1 + r.2 ≤ a)

/-- The platform with the `n` bytes at `a` backed by plain memory. -/
def Platform.allowing (pl : Platform) (a n : Nat) : Platform :=
  match portCheck pl a n with
  | .ok _ => pl
  | .error _ => { pl with memValid := (a, n) :: pl.memValid, devices := pl.devices.filter (apart a n) }

/-- A launched machine whose next step fetches the `nbits` low bits of `w` at `cp`. It stands for the host placing the
word and writing `GO` (42_sequencer.md R187; log 20). -/
def launchWord (s : State) (nbits w : Nat) : State :=
  { s with
    engine := .busy .fetch
    mem := s.mem.writeLE s.cp.toNat 4 (w % 2 ^ nbits)
    platform := s.platform.allowing s.cp.toNat 4
    env := []
    portOut := closeAnswer s
    runFoot := Footprint.empty
    hostWrote := [] }

end Sys2Proof.Machine
end

