-- ==== Sys2Proof/Machine/Step.lean ====
section
/-! DEFINITION. One step of the machine, and the placing of a word where the next step fetches it. -/

namespace Sys2Proof.Machine

/-- One step: a transaction of the host, a step of an agent inside a command, or a fetched command. -/
def step (s : State) : Host.Outcome State Fault Refusal :=
  match plan s with
  | .exec i t => exec i t
  | .outcome o => o

/-- The state in which the very next step fetches and runs exactly the instruction whose bits are `w`. -/
def State.withFetchWord (s : State) (nbits w : Nat) : State := launchWord s nbits w

end Sys2Proof.Machine
end

