-- ==== Sys2Proof/Machine/Reference.lean ====
section
/-! DEFINITION. The reference functions of the spec, which no command computes as such: what a SAT cell must hold
(40_build.md R110), the direct window sum and the naive blur's sum (41_query.md R160, R163), and the padded grid the host
must supply (70_reset_and_hazards.md R247). -/

namespace Sys2Proof.Machine

/-- `f 1 + ... + f n`. -/
def sumTo : (n : Nat) → (f : Nat → Nat) → Nat
  | 0, _ => 0
  | n + 1, f => sumTo n f + f (n + 1)

/-- The same function of the pixels on each channel (00_scope.md R6). -/
def perChannel {α : Type} (f : (Nat → Nat → Nat) → α) (px : Nat → Nat → Quad Byte) : Quad α :=
  ⟨f fun r c => (px r c).r.toNat, f fun r c => (px r c).g.toNat, f fun r c => (px r c).b.toNat,
    f fun r c => (px r c).a.toNat⟩

/-- `SatExact(r, c)` of one channel (40_build.md R110). -/
def satExact (r c : Nat) (px : Nat → Nat → Nat) : Nat := sumTo r fun a => sumTo c fun b => px a b

/-- `SatRef(r, c)` (40_build.md R110). -/
def satRef (px : Nat → Nat → Quad Byte) (r c : Nat) : Quad Word :=
  perChannel (fun f => BitVec.ofNat 32 (min maxSum (satExact r c f))) px

/-- Some channel of the exact sum over the whole grid exceeds `M` (10_state.md R26, 40_build.md R129). -/
def gridOverflows (px : Nat → Nat → Quad Byte) (rows cols : Nat) : Bool :=
  Quad.any (fun v => decide (maxSum < v)) (perChannel (satExact (rows - 1) (cols - 1)) px)

/-- The direct sum of one channel over the window of image pixel `(row, col)`: padded rows `row+1 .. row+k`, columns
`col+1 .. col+k` (41_query.md R150, R160). -/
def windowSum (k row col : Nat) (px : Nat → Nat → Nat) : Nat :=
  sumTo k fun i => sumTo k fun j => px (row + i) (col + j)

/-- The nearest index inside `0 .. n-1`: `clamp(i, 0, n-1)` (70_reset_and_hazards.md R247). -/
def nearest (n : Nat) (i : Int) : Nat := (clamp i 0 ((n : Int) - 1)).toNat

/-- `PadRef(in, b)` of an `h` by `w` image (70_reset_and_hazards.md R247). -/
def padRef (image : Nat → Nat → Quad Byte) (h w b : Nat) (i j : Nat) : Quad Byte :=
  image (nearest h ((i : Int) - b)) (nearest w ((j : Int) - b))

/-- `NaiveSum(in, K, row, col)` of one channel, `K = 2n+1`, `dr` and `dc` from `-n` to `n` (41_query.md R163). -/
def naiveSum (h w n row col : Nat) (image : Nat → Nat → Nat) : Nat :=
  sumTo (2 * n + 1) fun i => sumTo (2 * n + 1) fun j =>
    image (nearest h ((row : Int) + ((i : Int) - 1 - n))) (nearest w ((col : Int) + ((j : Int) - 1 - n)))

/-- `NaiveAvg(in, K, row, col)` as a packed Pixel (41_query.md R163). -/
def naiveAvg (h w n row col : Nat) (image : Nat → Nat → Quad Byte) : Word :=
  let q : Quad Nat := perChannel (naiveSum h w n row col) image
  let area := (2 * n + 1) * (2 * n + 1)
  0xFF#8 ++ BitVec.ofNat 8 (q.b / area) ++ BitVec.ofNat 8 (q.g / area) ++ BitVec.ofNat 8 (q.r / area)

end Sys2Proof.Machine
end

