-- ==== Sys2Proof/Safety.lean ====
section
/-! DEFINITION. The invariant of the machine and the premises of a run, in the terms the claims use. -/

namespace Sys2Proof.Machine

/-! ## The invariant -/

/-- `cp[1:0]` is zero (10_state.md R23). -/
abbrev cpAligned (s : State) : Prop := s.cp.toNat % 4 = 0

/-- `CAUSE` "is non-zero exactly while `STATE = FAULTED`" (10_state.md R35); the codes are 1 to 9, and only BusError is
fatal (60_exceptions.md R200); outside FAULTED the record reads 0 (10_state.md R36, R37). -/
abbrev recordOk (s : State) : Prop :=
  if s.engine = .faulted then
    1 ≤ s.fault.code.toNat ∧ s.fault.code.toNat ≤ 9 ∧ s.fault.fatal = decide (s.fault.code = 9#8)
  else s.fault = FaultRecord.none

/-- While `SATVALID = 1` the table's alignment and range are those a build checked (41_query.md R151). -/
abbrev tableOk (s : State) : Prop := s.satValid = true → firstFault (buildChecks .serial s) = none

/-- The wavefront's cursors, and the facts (I1), (I2) of 40_build.md R121. -/
abbrev waveOk (w : Wave) (s : State) : Prop :=
  (1 ≤ w.pr ∧ w.pr ≤ hp s) ∧ (1 ≤ w.pc ∧ w.pc ≤ wp s) ∧ (1 ≤ w.cur ∧ w.cur ≤ hp s) ∧ (1 ≤ w.cc ∧ w.cc ≤ wp s) ∧
  (w.pdone = false → w.safeRow ≤ w.pr - 2) ∧ (w.pdone = true → w.safeRow = hp s - 1 ∧ w.pr = hp s) ∧
  (w.mode = .draining → w.cur ≤ w.limit ∧ w.limit ≤ w.safeRow) ∧ (w.mode = .waiting → w.cur ≤ w.safeRow + 1)

/-- Worker `i` has its span of 40_build.md R123 and its cursor is inside its pass. -/
abbrev workerOk (pass : Pass) (i : Nat) (k : Worker) (s : State) : Prop :=
  match pass with
  | .one =>
    k.lo = spanLo (wp s) s.p.nwork.toNat i ∧ k.hi = spanHi (wp s) s.p.nwork.toNat i ∧ 1 ≤ k.r ∧ k.r ≤ hp s ∧
      k.lo ≤ k.c ∧ k.c ≤ k.hi
  | .two =>
    k.lo = spanLo (hp s) s.p.nwork.toNat i ∧ k.hi = spanHi (hp s) s.p.nwork.toNat i ∧ k.lo ≤ k.r ∧ k.r ≤ k.hi ∧
      1 ≤ k.c ∧ k.c ≤ wp s

/-- `N` workers, and the barrier count is the number of arrived ones (40_build.md R122, R125). -/
abbrev barrierOk (b : Barrier) (s : State) : Prop :=
  b.workers.length = s.p.nwork.toNat ∧ b.arrivedCount = b.workers.countP (fun k => k.arrived) ∧
  ∀ i, (h : i < b.workers.length) → workerOk b.pass i b.workers[i] s

/-- The hidden state of a command in flight stays inside the ranges of 10_state.md R45 to R49, the checks that let the
command start still hold, and `SATVALID` is 0 during a build. -/
abbrev cmdOk (c : CmdState) (s : State) : Prop :=
  match c with
  | .sentinels strategy z =>
    firstFault (buildChecks strategy s) = none ∧ s.satValid = false ∧ z < hp s + wp s - 1
  | .serial r k =>
    firstFault (buildChecks .serial s) = none ∧ s.satValid = false ∧ 1 ≤ r ∧ r ≤ hp s ∧ 1 ≤ k ∧ k ≤ wp s
  | .wave w => firstFault (buildChecks .wavefront s) = none ∧ s.satValid = false ∧ waveOk w s
  | .barrier b => firstFault (buildChecks .barrier s) = none ∧ s.satValid = false ∧ barrierOk b s
  | .traverse ar ac _ old =>
    firstFault (queryChecks .apply s) = none ∧ (ar : Int) ≤ imgH s ∧ (ac : Int) < imgW s ∧ Memory.wf old

/-- The hidden state of a run, if there is one. -/
abbrev engineOk (s : State) : Prop :=
  match s.engine with
  | .busy (.exec c) => cmdOk c s
  | .busy .fetch => True
  | .idle => True
  | .done => True
  | .faulted => True

/-- The invariant of the machine. -/
abbrev Inv (s : State) : Prop :=
  Memory.wf s.mem ∧ cpAligned s ∧ recordOk s ∧ tableOk s ∧ engineOk s

/-! ## Premises of a run (70_reset_and_hazards.md R245) -/

/-- No host transaction is due (L4): every turn of the script is the engine's. -/
def onlyEngineTurns (s : State) : Prop := ∀ t ∈ s.env, ∃ k, t = Turn.engine k

/-- The Pixels a build reads are `px` (L3; 40_build.md R132). -/
def pixelsAre (px : Nat → Nat → Quad Byte) (s : State) : Prop :=
  ∀ r c, 1 ≤ r → r < hp s → 1 ≤ c → c < wp s → readPx s r c = .ok (px r c)

/-- The address lies in the SAT grid (20_memory.md R63). -/
def inSatGrid (s : State) (a : Nat) : Prop := s.p.sat.toNat ≤ a ∧ a < s.p.sat.toNat + 16 * (hp s * wp s)

/-- The address lies in the output image (20_memory.md R63, R73). -/
def inImage (s : State) (a : Nat) : Prop :=
  s.p.dst.toNat ≤ a ∧ a < s.p.dst.toNat + 4 * ((imgH s).toNat * (imgW s).toNat)

/-- Every byte that satisfies the test is plain memory (20_memory.md R67, R82). -/
def plainWhere (q : Nat → Prop) (s : State) : Prop := ∀ a, q a → s.platform.plain a = true

/-- The SAT grid holds `cell` (20_memory.md R69). -/
def tableIs (cell : Nat → Nat → Quad Word) (s : State) : Prop :=
  ∀ r c, r < hp s → c < wp s → satR s r c = .ok (cell r c)

/-- The registers of the programmer's view other than `cp` and `STATE`, the flags and the result registers. -/
def sameSetup (s t : State) : Prop :=
  t.p = s.p ∧ t.ieDone = s.ieDone ∧ t.ieFault = s.ieFault ∧ t.fault = s.fault ∧ t.platform = s.platform ∧
    t.portOut = s.portOut ∧ t.runFoot = s.runFoot ∧ t.hostWrote = s.hostWrote

/-- Every byte outside the test reads as before. -/
def sameBytesOutside (q : Nat → Prop) (s t : State) : Prop := ∀ a, ¬ q a → t.mem.byteAt a = s.mem.byteAt a

/-- The `n` bytes at `a`. -/
def inBytes (a n : Nat) (x : Nat) : Prop := a ≤ x ∧ x < a + n

/-! ## The check lists as the spec tabulates them -/

/-- The number of a parameter register (10_state.md R20). -/
def PReg.number : PReg → BitVec 4
  | .src => 0#4
  | .sat => 1#4
  | .dst => 2#4
  | .rows => 3#4
  | .cols => 4#4
  | .ksize => 5#4
  | .nwork => 6#4
  | .batch => 7#4
  | .qrow => 8#4
  | .qcol => 9#4

/-- The code and `EINFO` of the fault a build raises, none if it goes on (the table of 40_build.md R113). -/
def buildFaultOf (k : Strategy) (s : State) : Option (BitVec 8 × Word) :=
  if hp s = 0 ∨ wp s = 0 then some (1#8, 0#32)
  else if k = .wavefront ∧ s.p.batch = 0#32 then some (8#8, 7#32)
  else if k = .barrier ∧ (s.p.nwork = 0#32 ∨ s.p.nwork.toNat > s.platform.nwMax) then some (8#8, 6#32)
  else if ¬ 4 ∣ s.p.src.toNat then some (4#8, 0#32)
  else if ¬ 16 ∣ s.p.sat.toNat then some (4#8, 1#32)
  else if s.p.src.toNat + 4 * (hp s * wp s) > 2 ^ 32 then some (5#8, 0#32)
  else if s.p.sat.toNat + 16 * (hp s * wp s) > 2 ^ 32 then some (5#8, 1#32)
  else if s.p.src.toNat < s.p.sat.toNat + 16 * (hp s * wp s) ∧ s.p.sat.toNat < s.p.src.toNat + 4 * (hp s * wp s) then
    some (6#8, 0#32)
  else none

/-- The code and `EINFO` of the fault a query raises, none if it goes on (the table of 41_query.md R151). -/
def queryFaultOf (k : QueryKind) (s : State) : Option (BitVec 8 × Word) :=
  if hp s = 0 ∨ wp s = 0 then some (1#8, 0#32)
  else if s.p.ksize.toInt ≤ 0 ∨ 2 ∣ s.p.ksize.toNat then some (2#8, s.p.ksize)
  else if s.satValid = false then some (7#8, 0#32)
  else if k ≠ .sum ∧ ¬ 4 ∣ s.p.dst.toNat then some (4#8, 2#32)
  else if imgH s < 1 ∨ imgW s < 1 then some (5#8, 5#32)
  else if k ≠ .apply ∧ (s.p.qrow.toNat : Int) ≥ imgH s then some (5#8, 8#32)
  else if k ≠ .apply ∧ (s.p.qcol.toNat : Int) ≥ imgW s then some (5#8, 9#32)
  else if k ≠ .sum ∧ (s.p.dst.toNat : Int) + 4 * imgH s * imgW s > 2 ^ 32 then some (5#8, 2#32)
  else if k ≠ .sum ∧ (s.p.dst.toNat : Int) < s.p.sat.toNat + 16 * hp s * wp s ∧
      (s.p.sat.toNat : Int) < s.p.dst.toNat + 4 * imgH s * imgW s then some (6#8, 2#32)
  else none

/-- The code and `EINFO` of the fault `RDCELL` raises, none if it goes on (41_query.md R158). -/
def cellFaultOf (s : State) : Option (BitVec 8 × Word) :=
  if hp s = 0 ∨ wp s = 0 then some (1#8, 0#32)
  else if s.satValid = false then some (7#8, 0#32)
  else if s.p.qrow.toNat ≥ hp s then some (5#8, 8#32)
  else if s.p.qcol.toNat ≥ wp s then some (5#8, 9#32)
  else none

/-- The state after a precise fault: the record, `cp` kept, `STATE = FAULTED`, nothing else changed (60_exceptions.md
R210, R211). -/
def afterFault (code : BitVec 8) (info : Word) (s : State) : State :=
  { s with fault := { code := code, fatal := false, ecp := s.cp, einfo := info }, engine := .faulted }

/-! ## The accesses of a step

In the order the model makes them. For the cell steps no rule gives one (DESIGN CHOICE, log 32). -/

/-- The accesses (address, size) of a cell of the column pass, in order (40_build.md R119, R124). -/
def colAccesses (s : State) (r c : Nat) : List (Nat × Nat) :=
  [(pxAddr s r c, 4), (satAddr s (r - 1) c, 16), (satAddr s r c, 16)]

/-- The accesses of a cell of the row pass, in order (40_build.md R120, R126). -/
def rowAccesses (s : State) (r c : Nat) : List (Nat × Nat) :=
  [(satAddr s r c, 16), (satAddr s r (c - 1), 16), (satAddr s r c, 16)]

/-- The accesses of an `S-CELL`, in order (40_build.md R117). -/
def serialAccesses (s : State) (r c : Nat) : List (Nat × Nat) :=
  [(pxAddr s r c, 4), (satAddr s (r - 1) c, 16), (satAddr s r (c - 1), 16), (satAddr s (r - 1) (c - 1), 16),
    (satAddr s r c, 16)]

/-- The accesses of a window sum, in order `BR`, `BL`, `TR`, `TL` (41_query.md R152). -/
def windowAccesses (s : State) (row col : Nat) : List (Nat × Nat) :=
  [(satAddr s (row + kSize s) (col + kSize s), 16), (satAddr s (row + kSize s) col, 16),
    (satAddr s row (col + kSize s), 16), (satAddr s row col, 16)]

/-- The accesses of the next step of a worker of `BUILD.B`; none when it arrives (40_build.md R124, R126). -/
def workerAccesses (pass : Pass) (k : Worker) (s : State) : List (Nat × Nat) :=
  match pass with
  | .one => if k.r < hp s ∧ k.c < k.hi then colAccesses s k.r k.c else []
  | .two => if k.r < k.hi ∧ k.c < wp s then rowAccesses s k.r k.c else []

/-- The memory accesses of an agent's next step, in order (20_memory.md R73, 70_reset_and_hazards.md R256). -/
def agentAccesses (a : Agent) (c : CmdState) (s : State) : List (Nat × Nat) :=
  match c, a with
  | .sentinels _ z, .sequencer => [(satAddr s (sentinelCell (wp s) z).1 (sentinelCell (wp s) z).2, 16)]
  | .serial r k, .sequencer => if r < hp s ∧ k < wp s then serialAccesses s r k else []
  | .wave w, .producer => if w.pdone = false ∧ w.pr < hp s ∧ w.pc < wp s then colAccesses s w.pr w.pc else []
  | .wave w, .consumer => if w.mode = .draining ∧ w.cc < wp s then rowAccesses s w.cur w.cc else []
  | .barrier b, .worker i =>
    match b.workers[i]? with
    | some k => if k.arrived then [] else workerAccesses b.pass k s
    | none => []
  | .traverse ar ac _ _, .sequencer =>
    if (ar : Int) < imgH s ∧ (ac : Int) < imgW s then windowAccesses s ar ac ++ [(dstAddr s ar ac, 4)] else []
  | _, _ => []

/-- The memory port rejects the access (20_memory.md R82). -/
def rejected (s : State) (x n : Nat) : Prop := ∃ i, i < n ∧ s.platform.backs (x + i) = false

/-- Every access of the list can be read. -/
def allRead (s : State) (l : List (Nat × Nat)) : Prop := ∀ y ∈ l, ∃ v, memRead s y.1 y.2 = .ok v

/-- The fatal BusError with the address `x`, at the command's own `cp`; no parameter register and no enable has changed
(60_exceptions.md R209, R210). -/
def busErrorAt (x : Nat) (s t : State) : Prop :=
  t.fault = { code := 9#8, fatal := true, ecp := s.cp, einfo := BitVec.ofNat 32 x } ∧ t.engine = .faulted ∧ t.cp = s.cp ∧
    t.p = s.p ∧ t.ieDone = s.ieDone ∧ t.ieFault = s.ieFault ∧ t.platform = s.platform

/-! ## Runs -/

/-- The turn is the engine's, and `t` is the state without that turn in the script. -/
def engineMoves (s t : State) : Prop :=
  (s.env = [] ∧ t = s) ∨ ∃ k rest, s.env = .engine k :: rest ∧ t = { s with env := rest }

/-- The engine is inside a command. -/
def inCommand (s : State) : Prop := ∃ c, s.engine = .busy (.exec c)

/-- After exactly `n` steps from `s` the command in flight has ended, in state `t`. -/
def commandEndsAt (n : Nat) (s t : State) : Prop :=
  Host.Core.run Sys2Proof.core n s = .next t ∧ ¬ inCommand t ∧
    ∀ m, m < n → ∃ u, Host.Core.run Sys2Proof.core m s = .next u ∧ inCommand u

/-- What a build must leave (40_build.md R111, R116): the table, every other byte and register as before, `SATVALID`
set, the next command's fetch due. -/
def buildResult (px : Nat → Nat → Quad Byte) (s t : State) : Prop :=
  t.engine = .busy .fetch ∧ t.cp = s.cp + 4#32 ∧ t.satValid = true ∧ tableIs (satRef px) t ∧
    sameBytesOutside (inSatGrid s) s t ∧ sameSetup s t ∧ t.qs = s.qs ∧ t.qpix = s.qpix ∧ t.qInexact = s.qInexact

/-- The window sum and its flag over a table (41_query.md R152). -/
def windowOf (cell : Nat → Nat → Quad Word) (k r c : Nat) : Quad Int × Bool :=
  (winExact (cell (r + k) (c + k)) (cell (r + k) c) (cell r (c + k)) (cell r c),
    winInexact (cell (r + k) (c + k)) (cell (r + k) c) (cell r (c + k)) (cell r c))

/-! ## Words the statements use -/

/-- The four channels (00_scope.md R4). -/
inductive Channel where
  | r | g | b | a
deriving DecidableEq, Repr

/-- `v[ch]` (00_scope.md, notation). -/
def chan {α : Type} (q : Quad α) : Channel → α
  | .r => q.r
  | .g => q.g
  | .b => q.b
  | .a => q.a

/-- The number of `STATE` as 10_state.md R33 tabulates it. -/
def stateNumber : Engine → Nat
  | .idle => 0
  | .busy _ => 1
  | .done => 2
  | .faulted => 3

/-- The command that builds with the strategy (30_encoding.md R95). -/
def buildCommand : Strategy → Instr
  | .serial => .buildS
  | .wavefront => .buildW
  | .barrier => .buildB

/-- The words 30_encoding.md R96 lists: (a) an unassigned opcode, (b) format Z with an operand bit set, (c) format I with
one of bits 19:16 set, (d) format I with a register number above 9. -/
def illegalWord (w : Word) : Prop :=
  let op := (w.extractLsb' 24 8).toNat
  let formatZ := op = 0x01 ∨ op = 0x02 ∨ op = 0x10 ∨ op = 0x11 ∨ op = 0x12 ∨ op = 0x20 ∨ op = 0x21 ∨ op = 0x22 ∨ op = 0x23
  let formatI := op = 0x08 ∨ op = 0x09
  (¬ formatZ ∧ ¬ formatI ∧ op ≠ 0x03) ∨ (formatZ ∧ w.toNat % 2 ^ 24 ≠ 0) ∨ (formatI ∧ w.toNat / 2 ^ 16 % 16 ≠ 0) ∨
    (formatI ∧ w.toNat / 2 ^ 20 % 16 > 9)

/-- The command in flight is a build, and which agent moves is open (40_build.md R130). -/
def isBuild : CmdState → Prop
  | .sentinels _ _ => True
  | .serial _ _ => True
  | .wave _ => True
  | .barrier _ => True
  | .traverse _ _ _ _ => False

/-- Nothing but memory, `SATOVF` and the cursor of the command has changed. -/
def onlyCellChanged (s t : State) : Prop := t = { s with mem := t.mem, satOvf := t.satOvf, engine := t.engine }

/-- The `n` bytes at `a` are plain memory. -/
def plainBytes (a n : Nat) (s : State) : Prop := plainWhere (inBytes a n) s

/-- Cell `(r, c)` is now `q`, every byte outside it reads as before. -/
def wroteCell (r c : Nat) (q : Quad Word) (s t : State) : Prop :=
  satR t r c = .ok q ∧ sameBytesOutside (inBytes (satAddr s r c) 16) s t

end Sys2Proof.Machine
end

