-- ==== Sys2Proof/Certificates/Slice0/Obligations.lean ====
section
/-! DEFINITION. The statements for the provers. Each cites the rule of the spec it formalises. -/

open Sys2Proof Sys2Proof.Machine

/-! ## Encoding -/

/-- 30_encoding.md R101, 95_test_vectors.md V16: "for every command with its operands in range,
`decode(encode(cmd)) = cmd`", and a command whose register does not exist has no word. -/
def Obligations.DecodeEncodeWellFormed : Prop :=
  ∀ i : Instr, decodeWord (encode i) = .ok i ↔ i.wellFormed = true

/-- 95_test_vectors.md V16: "for every legal word `w`, `encode(decode(w)) = w`". -/
def Obligations.EncodeDecodeLegalWord : Prop :=
  ∀ (w : Word) (i : Instr), decodeWord w = .ok i → encode i = w ∧ i.wellFormed = true

/-- 30_encoding.md R95: a word is a command exactly when it matches a row of the opcode map; the row is that of the
command's opcode; at most one row matches. -/
def Obligations.LegalWordsMatchOneRow : Prop :=
  (∀ w : Word, (∃ i, decodeWord w = .ok i) ↔ ∃ row ∈ opcodeRows, matchesRow w row) ∧
  (∀ (w : Word) (i : Instr), decodeWord w = .ok i → ∃ row ∈ opcodeRows, matchesRow w row ∧ row.1 = i.opcode) ∧
  (∀ (w : Word), ∀ x ∈ opcodeRows, ∀ y ∈ opcodeRows, matchesRow w x → matchesRow w y → x = y)

/-- 30_encoding.md R96, 60_exceptions.md R203: a word of the list (a) to (d) raises IllegalCommand with `EINFO` the
word, and changes nothing but the fault record and `STATE`. -/
def Obligations.IllegalWordRaisesIllegalCommand : Prop :=
  (∀ w : Word, illegalWord w ↔ ∀ row ∈ opcodeRows, ¬ matchesRow w row) ∧
  ∀ (s s' : State) (w : Word), engineMoves s s' → s.engine = .busy .fetch →
    contractBroken [fetchSpan s] s = false → fetchWord s' = .ok w → illegalWord w →
    step s = .next (afterFault 3#8 w s')

/-- 95_test_vectors.md V16: sample words. -/
def Obligations.SampleWordsDecode : Prop :=
  decodeWord 0x01000000#32 = .ok .nop ∧ decodeWord 0x02000000#32 = .ok .halt ∧
  decodeWord 0x03FFFFFF#32 = .ok (.jmp 0xFFFFFF#24) ∧ decodeWord 0x0890FFFF#32 = .ok (.setl 9#4 0xFFFF#16) ∧
  decodeWord 0x09100002#32 = .ok (.seth 1#4 2#16) ∧ decodeWord 0x10000000#32 = .ok .buildS ∧
  decodeWord 0x23000000#32 = .ok .rdcell

/-- 30_encoding.md R100: the two commands of `SET pd, imm32` load the 32-bit constant. -/
def Obligations.SetPseudoLoadsConstant : Prop :=
  ∀ (s : State) (r : PReg) (v : Word), ∃ lo hi t u, (Pseudo.set (PReg.number r) v).expand = [lo, hi] ∧
    exec lo s = .next t ∧ exec hi t = .next u ∧ u.p.get r = v ∧ ∀ r', r' ≠ r → u.p.get r' = s.p.get r'

/-! ## The step and the sequencer -/

/-- 42_sequencer.md R180: when the four bytes at `cp` decode to a command, the step is `exec` of it. R180 gives FETCH,
DECODE and EXEC in sequence; that one step does all three is the model's choice (DEDUCED, log 17). What the step adds: the
engine's turn leaves the script, and the command's footprint is noted (log 8, log 9). -/
def Obligations.StepRunsDecodedCommand : Prop :=
  ∀ (s s' : State) (b0 b1 b2 b3 : Byte) (i : Instr), engineMoves s s' → s.engine = .busy .fetch →
    plainBytes s.cp.toNat 4 s →
    s.mem.byteAt s.cp.toNat = some b0 → s.mem.byteAt (s.cp.toNat + 1) = some b1 →
    s.mem.byteAt (s.cp.toNat + 2) = some b2 → s.mem.byteAt (s.cp.toNat + 3) = some b3 →
    decodeBytes [b0, b1, b2, b3] = .ok (i, []) →
    contractBroken (footprint i s).spans s = false →
    step s = exec i (noteFootprint (footprint i s') s')

/-- 42_sequencer.md R182. -/
def Obligations.NopOnlyAdvances : Prop :=
  encode .nop = 0x01000000#32 ∧
  ∀ s : State, cpAligned s →
    ∃ t, exec .nop s = .next t ∧ t.cp.toNat = (s.cp.toNat + 4) % 2 ^ 32 ∧
      t = { s with cp := t.cp, engine := .busy .fetch }

/-- 42_sequencer.md R183: `HALT` ends the run DONE, `irq` goes high if `IE_DONE` is set, nothing else changes. -/
def Obligations.HaltEndsRun : Prop :=
  encode .halt = 0x02000000#32 ∧
  ∀ s : State, cpAligned s →
    ∃ t, exec .halt s = .next t ∧ t.cp.toNat = (s.cp.toNat + 4) % 2 ^ 32 ∧ irq t = s.ieDone ∧
      t = { s with cp := t.cp, engine := .done }

/-- 42_sequencer.md R184: the target, modulo `2^32`, in command words from the `JMP` itself, always aligned. -/
def Obligations.JmpGoesToTarget : Prop :=
  ∀ (s : State) (off : BitVec 24), cpAligned s →
    (encode (.jmp off)).toNat = 0x03000000 + off.toNat ∧
    ∃ t, exec (.jmp off) s = .next t ∧ (t.cp.toNat : Int) = ((s.cp.toNat : Int) + 4 * off.toInt) % 2 ^ 32 ∧
      cpAligned t ∧ t = { s with cp := t.cp, engine := .busy .fetch }

/-- 42_sequencer.md R185, with the words of its opcode that are no command. -/
def Obligations.SetlWritesZeroExtended : Prop :=
  ∀ (s : State) (r : PReg) (imm : BitVec 16), cpAligned s →
    (encode (.setl (PReg.number r) imm)).toNat = 0x08000000 + 2 ^ 20 * (PReg.number r).toNat + imm.toNat ∧
    (∀ w : Word, w.toNat / 2 ^ 24 = 0x08 → w.toNat / 2 ^ 20 % 16 ≥ 10 ∨ w.toNat / 2 ^ 16 % 16 ≠ 0 →
      ∃ e, decodeWord w = .error e) ∧
    ∃ t, exec (.setl (PReg.number r) imm) s = .next t ∧ (t.p.get r).toNat = imm.toNat ∧
      (∀ r', r' ≠ r → t.p.get r' = s.p.get r') ∧
      t.satValid = (s.satValid && decide (r ∉ [PReg.src, .sat, .rows, .cols])) ∧ t.cp = s.cp + 4#32 ∧
      t = { s with p := t.p, satValid := t.satValid, cp := t.cp, engine := .busy .fetch }

/-- 42_sequencer.md R186, with the words of its opcode that are no command. -/
def Obligations.SethReplacesHighHalf : Prop :=
  ∀ (s : State) (r : PReg) (imm : BitVec 16), cpAligned s →
    (encode (.seth (PReg.number r) imm)).toNat = 0x09000000 + 2 ^ 20 * (PReg.number r).toNat + imm.toNat ∧
    (∀ w : Word, w.toNat / 2 ^ 24 = 0x09 → w.toNat / 2 ^ 20 % 16 ≥ 10 ∨ w.toNat / 2 ^ 16 % 16 ≠ 0 →
      ∃ e, decodeWord w = .error e) ∧
    ∃ t, exec (.seth (PReg.number r) imm) s = .next t ∧
      (t.p.get r).toNat = 2 ^ 16 * imm.toNat + (s.p.get r).toNat % 2 ^ 16 ∧
      (∀ r', r' ≠ r → t.p.get r' = s.p.get r') ∧
      t.satValid = (s.satValid && decide (r ∉ [PReg.src, .sat, .rows, .cols])) ∧ t.cp = s.cp + 4#32 ∧
      t = { s with p := t.p, satValid := t.satValid, cp := t.cp, engine := .busy .fetch }

/-- 10_state.md R20: a `SETL` or `SETH` that names no register raises IllegalCommand; that `EINFO` is the word the
encoder gives the term is the model's choice (log 21). -/
def Obligations.MissingRegisterRaisesIllegal : Prop :=
  ∀ (s : State) (pd : BitVec 4) (imm : BitVec 16), pd.toNat > 9 →
    exec (.setl pd imm) s = .next (afterFault 3#8 (encode (.setl pd imm)) s) ∧
    exec (.seth pd imm) s = .next (afterFault 3#8 (encode (.seth pd imm)) s) ∧
    illegalWord (encode (.setl pd imm)) ∧ illegalWord (encode (.seth pd imm))

/-- The frame of the five sequencer commands: no byte of memory, no flag but `SATVALID`, no result register, no enable
changes; a parameter register changes only as the destination of `SETL` or `SETH`. -/
def Obligations.SequencerCommandsFrame : Prop :=
  ∀ (s t : State) (i : Instr),
    (i = .nop ∨ i = .halt ∨ (∃ off, i = .jmp off) ∨ (∃ pd imm, i = .setl pd imm) ∨ (∃ pd imm, i = .seth pd imm)) →
    exec i s = .next t →
    (∀ a, t.mem.byteAt a = s.mem.byteAt a) ∧ t.satOvf = s.satOvf ∧ t.qInexact = s.qInexact ∧ t.qs = s.qs ∧
    t.qpix = s.qpix ∧ t.ieDone = s.ieDone ∧ t.ieFault = s.ieFault ∧ t.platform = s.platform ∧
    (i.wellFormed = true → t.fault = s.fault) ∧
    (∀ r, t.p.get r = s.p.get r ∨ ∃ imm, i = .setl (PReg.number r) imm ∨ i = .seth (PReg.number r) imm) ∧
    ((∀ pd imm, i ≠ .setl pd imm ∧ i ≠ .seth pd imm) → t.satValid = s.satValid)

/-! ## Builds: start, steps, completion -/

/-- 40_build.md R113: the first fault of the table, precise; whatever passes the table is accepted. -/
def Obligations.BuildRaisesFirstFault : Prop :=
  ∀ (k : Strategy) (s : State),
    (∀ (code : BitVec 8) (info : Word), buildFaultOf k s = some (code, info) →
      exec (buildCommand k) s = .next (afterFault code info s)) ∧
    (buildFaultOf k s = none → ∃ t, exec (buildCommand k) s = .next t ∧ t.engine ≠ .faulted)

/-- 40_build.md R114: a build whose checks pass clears both flags and starts with the sentinels. -/
def Obligations.BuildStartsWhenChecksPass : Prop :=
  ∀ (k : Strategy) (s : State), buildFaultOf k s = none →
    exec (buildCommand k) s =
      .next { s with satValid := false, satOvf := false, engine := .busy (.exec (.sentinels k 0)) }

/-- 40_build.md R112: each law is the exact value of its expression, clamped once, in each channel; the flag says that
the exact value exceeds `M`. -/
def Obligations.CellLawsClampOnce : Prop :=
  ∀ (px : Quad Byte) (up left diag : Quad Word) (ch : Channel),
    (sat32 (chan (colExact px up) ch)).toNat = min (2 ^ 32 - 1) ((chan px ch).toNat + (chan up ch).toNat) ∧
    (sat32 (chan (rowExact up left) ch)).toNat = min (2 ^ 32 - 1) ((chan up ch).toNat + (chan left ch).toNat) ∧
    ((sat32 (chan (serialExact px up left diag) ch)).toNat : Int) =
      max 0 (min (2 ^ 32 - 1)
        ((chan px ch).toNat + (chan up ch).toNat + (chan left ch).toNat - (chan diag ch).toNat : Int)) ∧
    (exceeds (chan (colExact px up) ch) = true ↔ 2 ^ 32 ≤ (chan px ch).toNat + (chan up ch).toNat) ∧
    (exceeds (chan (rowExact up left) ch) = true ↔ 2 ^ 32 ≤ (chan up ch).toNat + (chan left ch).toNat) ∧
    (exceeds (chan (serialExact px up left diag) ch) = true ↔
      2 ^ 32 + (chan diag ch).toNat ≤ (chan px ch).toNat + (chan up ch).toNat + (chan left ch).toNat)

/-- 40_build.md R115: the `z`-th sentinel step zeroes one cell, row 0 left to right, then column 0 downward. That the last
one creates the strategy's agents is the model's choice (DESIGN CHOICE, log 18). They start as R117, R118 with R119, and
R122 with R123 and R124 say; the consumer's `limit` and `cc` are the model's (DESIGN CHOICE, log 31). -/
def Obligations.SentinelStepZeroesOneCell : Prop :=
  ∀ (s : State) (k : Strategy) (z r c : Nat), z < hp s + wp s - 1 →
    (r, c) = (if z < wp s then (0, z) else (z - wp s + 1, 0)) → plainBytes (satAddr s r c) 16 s →
    ∃ t, agentStep .sequencer (.sentinels k z) s = .next t ∧ wroteCell r c ⟨0#32, 0#32, 0#32, 0#32⟩ s t ∧
      onlyCellChanged s t ∧ t.satOvf = s.satOvf ∧
      (z + 1 < hp s + wp s - 1 → t.engine = .busy (.exec (.sentinels k (z + 1)))) ∧
      (z + 1 = hp s + wp s - 1 →
        (k = .serial → t.engine = .busy (.exec (.serial 1 1))) ∧
        (k = .wavefront → t.engine = .busy (.exec (.wave
          { safeRow := 0, pr := 1, pc := 1, pdone := false, cur := 1, cc := 1, limit := 0, mode := .waiting }))) ∧
        (k = .barrier → ∃ b, t.engine = .busy (.exec (.barrier b)) ∧ b.pass = .one ∧ b.arrivedCount = 0 ∧
          b.workers.length = s.p.nwork.toNat ∧
          ∀ w, w < s.p.nwork.toNat → ∃ lo, lo = 1 + w * (wp s - 1) / s.p.nwork.toNat ∧ b.workers[w]? = some
            { lo := lo, hi := 1 + (w + 1) * (wp s - 1) / s.p.nwork.toNat, r := 1, c := lo, arrived := false }))

/-- 40_build.md R117: one `S-CELL`. -/
def Obligations.SerialCellStep : Prop :=
  ∀ (s : State) (r c : Nat) (px : Quad Byte) (up left diag : Quad Word), r < hp s → c < wp s →
    readPx s r c = .ok px → satR s (r - 1) c = .ok up → satR s r (c - 1) = .ok left →
    satR s (r - 1) (c - 1) = .ok diag → plainBytes (satAddr s r c) 16 s →
    ∃ t, agentStep .sequencer (.serial r c) s = .next t ∧
      wroteCell r c (Quad.map sat32 (serialExact px up left diag)) s t ∧ onlyCellChanged s t ∧
      t.satOvf = (s.satOvf || Quad.any exceeds (serialExact px up left diag)) ∧
      t.engine = .busy (.exec (if c + 1 < wp s then .serial r (c + 1) else .serial (r + 1) 1))

/-- 40_build.md R119: the producer's steps. The end of a row without a publication is a step of the model that changes
the cursor alone (log 16). -/
def Obligations.ProducerSteps : Prop :=
  ∀ (s : State) (w : Wave), w.pdone = false →
    (∀ (px : Quad Byte) (up : Quad Word), w.pr < hp s → w.pc < wp s → readPx s w.pr w.pc = .ok px →
      satR s (w.pr - 1) w.pc = .ok up → plainBytes (satAddr s w.pr w.pc) 16 s →
      ∃ t, agentStep .producer (.wave w) s = .next t ∧
        wroteCell w.pr w.pc (Quad.map sat32 (colExact px up)) s t ∧ onlyCellChanged s t ∧
        t.satOvf = (s.satOvf || Quad.any exceeds (colExact px up)) ∧
        t.engine = .busy (.exec (.wave { w with pc := w.pc + 1 }))) ∧
    (w.pr < hp s → wp s ≤ w.pc → w.pr % s.p.batch.toNat = 0 →
      agentStep .producer (.wave w) s = .next { s with
        engine := .busy (.exec (.wave { w with safeRow := w.pr - 1, pr := w.pr + 1, pc := 1 })) }) ∧
    (w.pr < hp s → wp s ≤ w.pc → w.pr % s.p.batch.toNat ≠ 0 →
      agentStep .producer (.wave w) s = .next { s with
        engine := .busy (.exec (.wave { w with pr := w.pr + 1, pc := 1 })) }) ∧
    (hp s ≤ w.pr →
      agentStep .producer (.wave w) s = .next { s with
        engine := .busy (.exec (.wave { w with safeRow := hp s - 1, pdone := true })) })

/-- 40_build.md R120: the consumer is held while `safeRow < cur`, wakes otherwise, and turns the rows up to its limit
into row sums. The end of a row is a step of the model that changes the cursor alone (log 16). -/
def Obligations.ConsumerSteps : Prop :=
  ∀ (s : State) (w : Wave),
    (w.mode = .waiting → (Agent.consumer ∈ enabledAgents (.wave w) s ↔ w.cur < hp s ∧ w.cur ≤ w.safeRow)) ∧
    (w.mode = .waiting → w.cur < hp s → w.cur ≤ w.safeRow →
      agentStep .consumer (.wave w) s = .next { s with
        engine := .busy (.exec (.wave { w with limit := w.safeRow, mode := .draining, cc := 1 })) }) ∧
    (∀ (x left : Quad Word), w.mode = .draining → w.cc < wp s → satR s w.cur w.cc = .ok x →
      satR s w.cur (w.cc - 1) = .ok left →
      ∃ t, agentStep .consumer (.wave w) s = .next t ∧
        wroteCell w.cur w.cc (Quad.map sat32 (rowExact x left)) s t ∧ onlyCellChanged s t ∧
        t.satOvf = (s.satOvf || Quad.any exceeds (rowExact x left)) ∧
        t.engine = .busy (.exec (.wave { w with cc := w.cc + 1 }))) ∧
    (w.mode = .draining → wp s ≤ w.cc →
      ∃ m, m = (if w.cur + 1 ≤ w.limit then WaitMode.draining else WaitMode.waiting) ∧
        agentStep .consumer (.wave w) s = .next { s with
          engine := .busy (.exec (.wave { w with cur := w.cur + 1, cc := 1, mode := m })) })

/-- 40_build.md R124, R126, R127: a worker's cell step in each pass, and its arrival when its cells are done. -/
def Obligations.WorkerSteps : Prop :=
  ∀ (s : State) (b : Barrier) (i : Nat) (k : Worker), b.workers[i]? = some k → k.arrived = false →
    (∀ (px : Quad Byte) (up : Quad Word), b.pass = .one → k.r < hp s → k.c < k.hi → readPx s k.r k.c = .ok px →
      satR s (k.r - 1) k.c = .ok up → plainBytes (satAddr s k.r k.c) 16 s →
      ∃ t k', agentStep (.worker i) (.barrier b) s = .next t ∧
        wroteCell k.r k.c (Quad.map sat32 (colExact px up)) s t ∧ onlyCellChanged s t ∧
        t.satOvf = (s.satOvf || Quad.any exceeds (colExact px up)) ∧
        k' = (if k.c + 1 < k.hi then { k with c := k.c + 1 } else { k with r := k.r + 1, c := k.lo }) ∧
        t.engine = .busy (.exec (.barrier { b with workers := b.workers.set i k' }))) ∧
    (∀ (x left : Quad Word), b.pass = .two → k.r < k.hi → k.c < wp s → satR s k.r k.c = .ok x →
      satR s k.r (k.c - 1) = .ok left →
      ∃ t k', agentStep (.worker i) (.barrier b) s = .next t ∧
        wroteCell k.r k.c (Quad.map sat32 (rowExact x left)) s t ∧ onlyCellChanged s t ∧
        t.satOvf = (s.satOvf || Quad.any exceeds (rowExact x left)) ∧
        k' = (if k.c + 1 < wp s then { k with c := k.c + 1 } else { k with r := k.r + 1, c := 1 }) ∧
        t.engine = .busy (.exec (.barrier { b with workers := b.workers.set i k' }))) ∧
    ((b.pass = .one ∧ ¬ (k.r < hp s ∧ k.c < k.hi)) ∨ (b.pass = .two ∧ ¬ (k.r < k.hi ∧ k.c < wp s)) →
      ∃ ks, ks = b.workers.set i { k with arrived := true } ∧
        agentStep (.worker i) (.barrier b) s = .next { s with
          engine := .busy (.exec (.barrier { b with arrivedCount := b.arrivedCount + 1, workers := ks })) })

/-- 40_build.md R125: the barrier opens exactly when all have arrived; no worker of pass 2 exists before. The workers of
pass 2 start at their spans of rows (R122, R123, R126). -/
def Obligations.BarrierOpensWhenAllArrived : Prop :=
  ∀ (s : State) (b : Barrier),
    (Agent.sequencer ∈ enabledAgents (.barrier b) s ↔ b.arrivedCount = b.workers.length) ∧
    (b.arrivedCount = b.workers.length → b.pass = .one →
      ∃ ks : List Worker, ks.length = s.p.nwork.toNat ∧
        (∀ w, w < s.p.nwork.toNat → ∃ lo, lo = 1 + w * (hp s - 1) / s.p.nwork.toNat ∧ ks[w]? = some
          { lo := lo, hi := 1 + (w + 1) * (hp s - 1) / s.p.nwork.toNat, r := lo, c := 1, arrived := false }) ∧
        agentStep .sequencer (.barrier b) s = .next { s with
          engine := .busy (.exec (.barrier { pass := .two, arrivedCount := 0, workers := ks })) }) ∧
    (∀ (a : Agent) (t : State) (b' : Barrier), agentStep a (.barrier b) s = .next t → b.pass = .one →
      t.engine = .busy (.exec (.barrier b')) → b'.pass = .two → a = .sequencer ∧ b.arrivedCount = b.workers.length)

/-- 40_build.md R116: completion sets `SATVALID` and advances `cp`, and changes nothing else; in every strategy, also where
a grid of one row or one column has no cell to compute (R117). That completion is a step of the sequencer of its own is the
model's choice (DESIGN CHOICE, log 18). -/
def Obligations.BuildCompletion : Prop :=
  ∀ (s : State) (c : CmdState), cpAligned s →
    ((∃ r k, c = .serial r k ∧ (hp s ≤ r ∨ (wp s ≤ 1 ∧ 1 ≤ k))) ∨
      (∃ w, c = .wave w ∧ w.pdone = true ∧ w.mode = .waiting ∧ hp s ≤ w.cur) ∨
      (∃ b, c = .barrier b ∧ b.pass = .two ∧ b.arrivedCount = b.workers.length)) →
    agentStep .sequencer c s = .next { s with satValid := true, cp := s.cp + 4#32, engine := .busy .fetch }

/-- 40_build.md R123: the spans are what the formula says, follow one another, and every index `1 .. l-1` is in exactly
one of them, index 0 in none. -/
def Obligations.PartitionCoversOnce : Prop :=
  ∀ l n : Nat, 1 ≤ l → 1 ≤ n →
    (∀ w, spanLo l n w = 1 + w * (l - 1) / n ∧ spanHi l n w = 1 + (w + 1) * (l - 1) / n) ∧
    (∀ w i, w < n → spanLo l n w ≤ i → i < spanHi l n w → 1 ≤ i ∧ i < l) ∧
    (∀ i, 1 ≤ i → i < l → ∃ w, w < n ∧ spanLo l n w ≤ i ∧ i < spanHi l n w ∧
      ∀ v, v < n → spanLo l n v ≤ i → i < spanHi l n v → v = w)

/-- 20_memory.md R82, 60_exceptions.md R200, R209 to R211: a step of a build or of `QAPPLY` that ends FAULTED is the fatal
BusError at the address of a rejected access of that step, and touches nothing outside the grid it was writing; the first
rejected access of a step raises it, in a build, a `QAPPLY`, a `QSUM`, a `QBLUR`. That `QSUM` and `QBLUR` then leave
memory and the build flags as they were is read from R82 and R210 (DEDUCED, log 15); the order of the accesses inside a
cell step is the model's choice (DESIGN CHOICE, log 32). -/
def Obligations.RejectedAccessIsFatal : Prop :=
  ∀ s : State,
    (∀ (a : Agent) (c : CmdState) (t : State), agentStep a c s = .next t → t.engine = .faulted →
      (∃ x n, (x, n) ∈ agentAccesses a c s ∧ rejected s x n ∧ busErrorAt x s t) ∧
      (isBuild c → t.satValid = false ∧ t.qs = s.qs ∧ t.qpix = s.qpix ∧ t.qInexact = s.qInexact ∧
        sameBytesOutside (inSatGrid s) s t) ∧
      (¬ isBuild c → t.satValid = s.satValid ∧ t.satOvf = s.satOvf ∧ sameBytesOutside (inImage s) s t)) ∧
    (∀ (a : Agent) (c : CmdState) (pre post : List (Nat × Nat)) (x n : Nat),
      agentAccesses a c s = pre ++ (x, n) :: post → allRead s pre → rejected s x n →
      ∃ t, agentStep a c s = .next t ∧ busErrorAt x s t) ∧
    (∀ (pre post : List (Nat × Nat)) (x n : Nat), queryFaultOf .sum s = none →
      windowAccesses s s.p.qrow.toNat s.p.qcol.toNat = pre ++ (x, n) :: post → allRead s pre → rejected s x n →
      ∃ t, exec .qsum s = .next t ∧ busErrorAt x s t ∧ t.mem = s.mem ∧ t.satValid = s.satValid ∧ t.satOvf = s.satOvf) ∧
    (∀ (pre post : List (Nat × Nat)) (x n : Nat), queryFaultOf .blur s = none →
      windowAccesses s s.p.qrow.toNat s.p.qcol.toNat ++ [(dstAddr s s.p.qrow.toNat s.p.qcol.toNat, 4)] =
        pre ++ (x, n) :: post → allRead s pre → rejected s x n →
      ∃ t, exec .qblur s = .next t ∧ busErrorAt x s t ∧ t.mem = s.mem ∧ t.satValid = s.satValid ∧ t.satOvf = s.satOvf)

/-! ## Builds: results -/

/-- 40_build.md R111, R117: `BUILD.S` run by the engine alone leaves `SatRef`. It takes one step per sentinel, one per
other cell and one to complete; that the completion is a step of its own is the model's choice (log 18). -/
def Obligations.SerialBuildComputesSatRef : Prop :=
  ∀ (s : State) (px : Nat → Nat → Quad Byte), buildFaultOf .serial s = none → pixelsAre px s →
    plainWhere (inSatGrid s) s → onlyEngineTurns s → cpAligned s →
    ∃ s1 t, exec .buildS s = .next s1 ∧
      commandEndsAt ((hp s + wp s - 1) + (hp s - 1) * (wp s - 1) + 1) s1 t ∧ buildResult px s t

/-- 40_build.md R111, R118, R128: `BUILD.W`, whatever the schedule of producer and consumer, leaves `SatRef`. -/
def Obligations.WavefrontBuildComputesSatRef : Prop :=
  ∀ (s : State) (px : Nat → Nat → Quad Byte), buildFaultOf .wavefront s = none → pixelsAre px s →
    plainWhere (inSatGrid s) s → onlyEngineTurns s → cpAligned s →
    ∃ s1 n t, exec .buildW s = .next s1 ∧ commandEndsAt n s1 t ∧ buildResult px s t

/-- 40_build.md R111, R122, R128: `BUILD.B`, whatever the schedule of its workers, takes one step per sentinel, two per
other cell, two arrivals per worker, the release and the completion, and leaves `SatRef`. That the completion is a step
of its own is the model's choice (log 18). -/
def Obligations.BarrierBuildComputesSatRef : Prop :=
  ∀ (s : State) (px : Nat → Nat → Quad Byte), buildFaultOf .barrier s = none → pixelsAre px s →
    plainWhere (inSatGrid s) s → onlyEngineTurns s → cpAligned s →
    ∃ s1 t, exec .buildB s = .next s1 ∧
      commandEndsAt ((hp s + wp s - 1) + 2 * ((hp s - 1) * (wp s - 1)) + 2 * s.p.nwork.toNat + 2) s1 t ∧
      buildResult px s t

/-- 40_build.md R129, 10_state.md R26: at the end of any build `SATOVF` says whether some channel of the whole grid's
exact sum exceeds `M`. -/
def Obligations.OverflowFlagIsStrategyIndependent : Prop :=
  ∀ (k : Strategy) (s : State) (px : Nat → Nat → Quad Byte), buildFaultOf k s = none → pixelsAre px s →
    plainWhere (inSatGrid s) s → onlyEngineTurns s →
    ∃ s1 n t, exec (buildCommand k) s = .next s1 ∧ commandEndsAt n s1 t ∧ t.satOvf = gridOverflows px (hp s) (wp s)

/-- 40_build.md R131, 42_sequencer.md R188: from a state that meets the invariant a command in flight ends, or a step
has no meaning (unwritten memory, log 6; a device, log 7); it never goes on for ever. -/
def Obligations.EveryCommandEnds : Prop :=
  ∀ s : State, Inv s → inCommand s → onlyEngineTurns s →
    ∃ n, (∃ t, commandEndsAt n s t) ∨ ∃ r, Host.Core.run Sys2Proof.core n s = .refused r

/-- 40_build.md R121 (I3): while producer and consumer both have a step, a step of the producer leaves every byte that
the consumer's step reads or writes as it was, and every cell of the rows certified to the consumer; a step of the
consumer leaves every byte that the producer's step reads or writes as it was. (A step that is a BusError stops both.) -/
def Obligations.WavefrontRowsApart : Prop :=
  ∀ (s t : State) (w : Wave), Inv s → s.engine = .busy (.exec (.wave w)) →
    Agent.producer ∈ enabledAgents (.wave w) s → Agent.consumer ∈ enabledAgents (.wave w) s → t.engine ≠ .faulted →
    (agentStep .producer (.wave w) s = .next t →
      (∀ x n a, (x, n) ∈ agentAccesses .consumer (.wave w) s → inBytes x n a → t.mem.byteAt a = s.mem.byteAt a) ∧
      (∀ r c a, w.cur ≤ r → r ≤ w.safeRow → c < wp s → inBytes (satAddr s r c) 16 a →
        t.mem.byteAt a = s.mem.byteAt a)) ∧
    (agentStep .consumer (.wave w) s = .next t →
      ∀ x n a, (x, n) ∈ agentAccesses .producer (.wave w) s → inBytes x n a → t.mem.byteAt a = s.mem.byteAt a)

/-- 20_memory.md R79: "The counter only grows." -/
def Obligations.SafeRowOnlyGrows : Prop :=
  ∀ (s t : State) (w w' : Wave), Inv s → s.engine = .busy (.exec (.wave w)) → step s = .next t →
    t.engine = .busy (.exec (.wave w')) → w.safeRow ≤ w'.safeRow

/-! ## Queries -/

/-- 41_query.md R151: the first fault of the command's own list, precise. -/
def Obligations.QueryRaisesFirstFault : Prop :=
  ∀ (s : State) (code : BitVec 8) (info : Word),
    (queryFaultOf .sum s = some (code, info) → exec .qsum s = .next (afterFault code info s)) ∧
    (queryFaultOf .blur s = some (code, info) → exec .qblur s = .next (afterFault code info s)) ∧
    (queryFaultOf .apply s = some (code, info) → exec .qapply s = .next (afterFault code info s))

/-- 41_query.md R152, R153: `QSUM` leaves the clamped `BR - BL - TR + TL` in `QS` and says whether a corner is at `M`. -/
def Obligations.QsumLeavesWindowSum : Prop :=
  ∀ (s : State) (br bl tr tl : Quad Word), cpAligned s → queryFaultOf .sum s = none →
    satR s (s.p.qrow.toNat + s.p.ksize.toNat) (s.p.qcol.toNat + s.p.ksize.toNat) = .ok br →
    satR s (s.p.qrow.toNat + s.p.ksize.toNat) s.p.qcol.toNat = .ok bl →
    satR s s.p.qrow.toNat (s.p.qcol.toNat + s.p.ksize.toNat) = .ok tr →
    satR s s.p.qrow.toNat s.p.qcol.toNat = .ok tl →
    ∃ t, exec .qsum s = .next t ∧
      (∀ ch, ((chan t.qs ch).toNat : Int) = max 0 (min (2 ^ 32 - 1)
        ((chan br ch).toNat - (chan bl ch).toNat - (chan tr ch).toNat + (chan tl ch).toNat : Int))) ∧
      (t.qInexact = true ↔ ∃ q ∈ [br, bl, tr, tl], ∃ ch, chan q ch = 0xFFFFFFFF#32) ∧
      t = { s with qs := t.qs, qInexact := t.qInexact, cp := s.cp + 4#32, engine := .busy .fetch }

/-- 41_query.md R156: `QBLUR` also leaves the average in `QPIX` and in its one Pixel, and changes no other byte. -/
def Obligations.QblurWritesOnePixel : Prop :=
  ∀ (s : State) (x : Quad Int) (inexact : Bool), cpAligned s → queryFaultOf .blur s = none →
    winSum s s.p.qrow.toNat s.p.qcol.toNat = .ok (x, inexact) →
    plainBytes (dstAddr s s.p.qrow.toNat s.p.qcol.toNat) 4 s →
    ∃ t, exec .qblur s = .next t ∧ t.qs = Quad.map sat32 x ∧ t.qInexact = inexact ∧
      t.qpix = avgPix (s.p.ksize.toNat * s.p.ksize.toNat) t.qs ∧
      memRead t (dstAddr s s.p.qrow.toNat s.p.qcol.toNat) 4 = .ok t.qpix.toNat ∧
      sameBytesOutside (inBytes (dstAddr s s.p.qrow.toNat s.p.qcol.toNat) 4) s t ∧
      t = { s with qs := t.qs, qInexact := t.qInexact, qpix := t.qpix, mem := t.mem, cp := s.cp + 4#32,
                   engine := .busy .fetch }

/-- 41_query.md R158: `RDCELL` raises its first fault, or copies one cell to `QS` and changes nothing else; a rejected
read raises BusError at the cell's address; that it leaves `QS` and everything else as it was then is read from
60_exceptions.md R210 (DEDUCED, log 15). -/
def Obligations.RdcellCopiesOneCell : Prop :=
  encode .rdcell = 0x23000000#32 ∧
  ∀ s : State,
    (∀ (code : BitVec 8) (info : Word), cellFaultOf s = some (code, info) →
      exec .rdcell s = .next (afterFault code info s)) ∧
    (∀ q : Quad Word, cpAligned s → cellFaultOf s = none → satR s s.p.qrow.toNat s.p.qcol.toNat = .ok q →
      exec .rdcell s = .next { s with qs := q, cp := s.cp + 4#32, engine := .busy .fetch }) ∧
    (∀ a : Nat, cellFaultOf s = none → satR s s.p.qrow.toNat s.p.qcol.toNat = .error (.bus a) →
      a = satAddr s s.p.qrow.toNat s.p.qcol.toNat ∧ exec .rdcell s = .next { s with
        fault := { code := 9#8, fatal := true, ecp := s.cp, einfo := BitVec.ofNat 32 a }, engine := .faulted })

/-- 41_query.md R157: `QAPPLY` with its checks passed starts at Pixel `(0, 0)` with nothing inexact; one `A-PIXEL`
writes one Pixel from its window; the last step ORs the flags into `QINEXACT`. The model's choices: the command keeps the
memory at its start (DESIGN CHOICE, log 14), and its end is a step of its own (DESIGN CHOICE, log 18). -/
def Obligations.QapplyStartsAndSteps : Prop :=
  ∀ (s : State) (ar ac : Nat) (acc : Bool) (old : Memory),
    (queryFaultOf .apply s = none →
      exec .qapply s = .next { s with engine := .busy (.exec (.traverse 0 0 false s.mem)) }) ∧
    (∀ (x : Quad Int) (inexact : Bool), (ar : Int) < imgH s → (ac : Int) < imgW s →
      winSum s ar ac = .ok (x, inexact) → plainBytes (dstAddr s ar ac) 4 s →
      ∃ t, agentStep .sequencer (.traverse ar ac acc old) s = .next t ∧ t.qs = Quad.map sat32 x ∧
        t.qpix = avgPix (s.p.ksize.toNat * s.p.ksize.toNat) t.qs ∧
        memRead t (dstAddr s ar ac) 4 = .ok t.qpix.toNat ∧
        sameBytesOutside (inBytes (dstAddr s ar ac) 4) s t ∧
        t.engine = .busy (.exec (if (ac : Int) + 1 < imgW s then .traverse ar (ac + 1) (acc || inexact) old
          else .traverse (ar + 1) 0 (acc || inexact) old)) ∧
        t = { s with qs := t.qs, qpix := t.qpix, mem := t.mem, engine := t.engine }) ∧
    (cpAligned s → imgH s ≤ (ar : Int) →
      agentStep .sequencer (.traverse ar ac acc old) s =
        .next { s with qInexact := acc, cp := s.cp + 4#32, engine := .busy .fetch })

/-- 41_query.md R157: `QAPPLY` run by the engine alone writes every Pixel of the output image from its own window, and no
other byte. It takes one step per Pixel and one to complete; that the completion is a step of its own is the model's
choice (log 18). -/
def Obligations.QapplyBlursWholeImage : Prop :=
  ∀ (s : State) (cell : Nat → Nat → Quad Word), queryFaultOf .apply s = none → tableIs cell s →
    plainWhere (inImage s) s → onlyEngineTurns s → cpAligned s →
    ∃ s1 t, exec .qapply s = .next s1 ∧ commandEndsAt ((imgH s).toNat * (imgW s).toNat + 1) s1 t ∧
      t.engine = .busy .fetch ∧ t.cp = s.cp + 4#32 ∧ t.satValid = s.satValid ∧ t.satOvf = s.satOvf ∧
      (∀ r c : Nat, (r : Int) < imgH s → (c : Int) < imgW s → memRead t (dstAddr s r c) 4 =
        .ok (avgPix (s.p.ksize.toNat * s.p.ksize.toNat)
          (Quad.map sat32 (windowOf cell s.p.ksize.toNat r c).1)).toNat) ∧
      (t.qInexact = true ↔ ∃ r c : Nat, (r : Int) < imgH s ∧ (c : Int) < imgW s ∧
        (windowOf cell s.p.ksize.toNat r c).2 = true) ∧
      t.qs = Quad.map sat32 (windowOf cell s.p.ksize.toNat ((imgH s).toNat - 1) ((imgW s).toNat - 1)).1 ∧
      t.qpix = avgPix (s.p.ksize.toNat * s.p.ksize.toNat) t.qs ∧
      sameBytesOutside (inImage s) s t ∧ sameSetup s t

/-- 41_query.md R154, R155: the average truncates, is clamped to 255, and its alpha is 255 whatever the sums. -/
def Obligations.AveragePixelBytes : Prop :=
  ∀ (area : Nat) (q : Quad Word),
    (avgPix area q).toNat % 256 = min 255 (q.r.toNat / area) ∧
    (avgPix area q).toNat / 2 ^ 8 % 256 = min 255 (q.g.toNat / area) ∧
    (avgPix area q).toNat / 2 ^ 16 % 256 = min 255 (q.b.toNat / area) ∧
    (avgPix area q).toNat / 2 ^ 24 = 255

/-- 41_query.md R160: over a table that holds `SatRef`, a query that is not inexact, or any query when no sum of the grid
exceeds `M`, returns the direct sum of its window, in `0 .. 255*K*K`, and the clamp does nothing. -/
def Obligations.ExactWindowSum : Prop :=
  ∀ (s : State) (px : Nat → Nat → Quad Byte) (row col : Nat) (x : Quad Int) (inexact : Bool),
    tableIs (satRef px) s → row + kSize s < hp s → col + kSize s < wp s → winSum s row col = .ok (x, inexact) →
    inexact = false ∨ gridOverflows px (hp s) (wp s) = false →
    ∀ ch, chan x ch = ((chan (perChannel (windowSum (kSize s) row col) px) ch : Nat) : Int) ∧
      chan x ch ≤ 255 * (kSize s * kSize s : Nat) ∧ ((sat32 (chan x ch)).toNat : Int) = chan x ch

/-- 41_query.md R164: over the table of the padded image, a `QSUM` that ends with `QINEXACT = 0` leaves the naive
window sum, and the average of those sums is the naive average. -/
def Obligations.QsumEqualsNaiveSum : Prop :=
  ∀ (s t : State) (image : Nat → Nat → Quad Byte) (h w n : Nat), cpAligned s → queryFaultOf .sum s = none →
    s.p.ksize.toNat = 2 * n + 1 → imgH s = h → imgW s = w → tableIs (satRef (padRef image h w (n + 1))) s →
    exec .qsum s = .next t → t.qInexact = false →
    (∀ ch, (chan t.qs ch).toNat =
      chan (perChannel (naiveSum h w n s.p.qrow.toNat s.p.qcol.toNat) image) ch) ∧
    avgPix (s.p.ksize.toNat * s.p.ksize.toNat) t.qs = naiveAvg h w n s.p.qrow.toNat s.p.qcol.toNat image

/-- 10_state.md R21, 41_query.md section 5: the frame of the one-step queries, whatever their outcome: `QSUM` and
`RDCELL` change no byte of memory, `QBLUR` no byte but its Pixel; no parameter register, no build flag, no enable
changes; `QPIX` only by `QBLUR`, `QINEXACT` not by `RDCELL`. -/
def Obligations.OneStepQueriesFrame : Prop :=
  ∀ (s t : State) (i : Instr), (i = .qsum ∨ i = .qblur ∨ i = .rdcell) → exec i s = .next t →
    t.p = s.p ∧ t.satValid = s.satValid ∧ t.satOvf = s.satOvf ∧ t.ieDone = s.ieDone ∧ t.ieFault = s.ieFault ∧
    t.platform = s.platform ∧ (t.engine = .busy .fetch → t.fault = s.fault) ∧
    (i ≠ .qblur → t.qpix = s.qpix ∧ ∀ a, t.mem.byteAt a = s.mem.byteAt a) ∧ (i = .rdcell → t.qInexact = s.qInexact) ∧
    (i = .qblur → sameBytesOutside (inBytes (dstAddr s s.p.qrow.toNat s.p.qcol.toNat) 4) s t)

/-! ## Faults, reset, the register port -/

/-- 20_memory.md R82, 60_exceptions.md R209, R210, 42_sequencer.md R180: a fetch from an address outside `MemValid`
raises the fatal BusError with the address, and changes nothing but the fault record and `STATE`. -/
def Obligations.RejectedFetchRaisesBusError : Prop :=
  ∀ (s s' : State) (i : Nat), engineMoves s s' → s.engine = .busy .fetch →
    contractBroken [fetchSpan s] s = false → i < 4 → s.platform.backs (s.cp.toNat + i) = false →
    step s = .next { s' with fault := { code := 9#8, fatal := true, ecp := s.cp, einfo := s.cp }, engine := .faulted }

/-- 10_state.md R50, 70_reset_and_hazards.md R240 to R242: the reset input puts every register to its reset value and
leaves memory as it is. 60_exceptions.md R216 makes one exception, for `SRST`, and by R241 the two are one event (DEDUCED,
log 19): the SAT grid when it cuts a build (log 13) and the output image when it cuts a `QAPPLY` (log 14). -/
def Obligations.ResetSetsEveryRegister : Prop :=
  ∀ s : State, ∃ t, hostStep .resetInput s = .next t ∧
    (∀ r, t.p.get r = if r = .nwork then 1#32 else if r = .batch then 32#32 else 0#32) ∧
    t.cp = 0#32 ∧ t.engine = .idle ∧ t.satValid = false ∧ t.satOvf = false ∧ t.qInexact = false ∧
    t.ieDone = false ∧ t.ieFault = false ∧ irq t = false ∧ causeWord t = 0#32 ∧ t.fault.ecp = 0#32 ∧
    t.fault.einfo = 0#32 ∧ t.qs = ⟨0#32, 0#32, 0#32, 0#32⟩ ∧ t.qpix = 0#32 ∧
    regValue 0#6 t = 0x53415401#32 ∧ (¬ inCommand s → t.mem = s.mem) ∧
    (∀ c, s.engine = .busy (.exec c) → isBuild c → sameBytesOutside (inSatGrid s) s t) ∧
    (∀ c, s.engine = .busy (.exec c) → ¬ isBuild c → sameBytesOutside (inImage s) s t) ∧
    ∀ a, State.reset.mem.byteAt a = none

/-- 60_exceptions.md R215: CLR leaves DONE and a non-fatal FAULTED for IDLE, keeps `cp`, and does nothing elsewhere. -/
def Obligations.ClrAcknowledges : Prop :=
  ∀ s : State,
    (s.engine = .done → clrAction s = { s with engine := .idle }) ∧
    (s.engine = .faulted → s.fault.fatal = false →
      clrAction s = { s with fault := { code := 0#8, fatal := false, ecp := 0#32, einfo := 0#32 }, engine := .idle }) ∧
    ((s.engine = .idle ∨ isBusy s = true ∨ (s.engine = .faulted ∧ s.fault.fatal = true)) → clrAction s = s)

/-- 10_state.md R32: a write of `CTRL` with SRST has "exactly the effect of the reset input" and uses no other bit;
else it stores the enables, then CLR, then GO, which launches from IDLE alone, at the present `cp`; the pulses read 0.
The clauses on the model's own fields are its choice: at GO the record of the run, `runFoot` and `hostWrote`, begins anew
(log 8), and what the host has read (log 4) is settled, each byte at the value it has when the run before is over (log 9). -/
def Obligations.CtrlWriteOrder : Prop :=
  ∀ (s : State) (v : Word),
    (v.getLsbD 2 = true → hostStep (.regWrite 1#6 v) s = hostStep .resetInput s) ∧
    (v.getLsbD 2 = false → ∃ t, hostStep (.regWrite 1#6 v) s = .next t ∧
      t.ieDone = v.getLsbD 8 ∧ t.ieFault = v.getLsbD 9 ∧
      (let u := if v.getLsbD 1 then clrAction s else s
       t.engine = (if v.getLsbD 0 = true ∧ u.engine = .idle then .busy .fetch else u.engine) ∧
       t.fault = u.fault ∧
       t.portOut = (if v.getLsbD 0 = true ∧ u.engine = .idle then closeAnswer s else s.portOut) ∧
       t.runFoot = (if v.getLsbD 0 = true ∧ u.engine = .idle then Footprint.empty else s.runFoot) ∧
       t.hostWrote = (if v.getLsbD 0 = true ∧ u.engine = .idle then [] else s.hostWrote)) ∧
      t = { s with ieDone := t.ieDone, ieFault := t.ieFault, engine := t.engine, fault := t.fault,
                   portOut := t.portOut, runFoot := t.runFoot, hostWrote := t.hostWrote }) ∧
    (∀ xs, s.portOut = some (.bytes xs) → ∃ ys, closeAnswer s = some (.bytes ys) ∧
      ∀ busy, ys.map (ReadByte.value busy) = xs.map (ReadByte.value false)) ∧
    (∀ x, s.portOut = some (.word x) → closeAnswer s = some (.word x)) ∧ (s.portOut = none → closeAnswer s = none) ∧
    (regRead 1#6 s).toNat = 256 * s.ieDone.toNat + 512 * s.ieFault.toNat

/-- 60_exceptions.md R214, 10_state.md R33: the level of `irq`, and `STATUS` bit by bit, with the numbers of `STATE`: 0 IDLE,
1 BUSY, 2 DONE, 3 FAULTED. While BUSY its `STATE` and `IRQ` are exact and its flag bits are not (R29). -/
def Obligations.IrqAndStatusRead : Prop :=
  ∀ s : State,
    (irq s = true ↔ (s.ieDone = true ∧ s.engine = .done) ∨ (s.ieFault = true ∧ s.engine = .faulted)) ∧
    (s.engine = .idle → (regRead 2#6 s).toNat % 4 = 0) ∧ (isBusy s = true → (regRead 2#6 s).toNat % 4 = 1) ∧
    (s.engine = .done → (regRead 2#6 s).toNat % 4 = 2) ∧ (s.engine = .faulted → (regRead 2#6 s).toNat % 4 = 3) ∧
    (isBusy s = false → (regRead 2#6 s).toNat = stateNumber s.engine + 16 * s.satValid.toNat + 32 * s.satOvf.toNat +
      64 * s.qInexact.toNat + 256 * (irq s).toNat) ∧
    (isBusy s = true → (regRead 2#6 s).toNat % 16 = 1 ∧ (regRead 2#6 s).toNat / 128 = 2 * (irq s).toNat)

/-- 10_state.md R28 to R40: what each of the 64 words of the register map reads, and that a read transaction answers that
word and changes nothing else (the answer field is the model's, log 4, and so is the draw that a read while BUSY counts,
log 12). `ID`, `CTRL`, `CAUSE`, `ECP`, `EINFO`
and the reserved words are exact in every state, the others while not BUSY; of `STATUS` the bits `STATE` and `IRQ` and
the reserved bits are exact while BUSY too. -/
def Obligations.RegisterMapReads : Prop :=
  ∀ s : State,
    (∀ idx : BitVec 6, hostStep (.regRead idx) s = .next { s with
      portOut := some (.word (regRead idx s)), draws := if isBusy s then s.draws + 1 else s.draws }) ∧
    regRead 0#6 s = 0x53415401#32 ∧ (regRead 1#6 s).toNat = 256 * s.ieDone.toNat + 512 * s.ieFault.toNat ∧
    (isBusy s = false → (regRead 2#6 s).toNat = stateNumber s.engine + 16 * s.satValid.toNat + 32 * s.satOvf.toNat +
      64 * s.qInexact.toNat + 256 * (irq s).toNat) ∧
    (isBusy s = true → (regRead 2#6 s).toNat % 16 = 1 ∧ (regRead 2#6 s).toNat / 128 = 2 * (irq s).toNat) ∧
    (regRead 4#6 s).toNat = s.fault.code.toNat + 2 ^ 31 * s.fault.fatal.toNat ∧
    regRead 5#6 s = s.fault.ecp ∧ regRead 6#6 s = s.fault.einfo ∧
    (∀ idx : BitVec 6, idx.toNat = 7 ∨ (13 ≤ idx.toNat ∧ idx.toNat ≤ 15) ∨ 26 ≤ idx.toNat → regRead idx s = 0#32) ∧
    (isBusy s = false → regRead 3#6 s = s.cp ∧ regRead 8#6 s = s.qs.r ∧ regRead 9#6 s = s.qs.g ∧
      regRead 10#6 s = s.qs.b ∧ regRead 11#6 s = s.qs.a ∧ regRead 12#6 s = s.qpix ∧
      ∀ r, regRead (16#6 + (PReg.number r).zeroExtend 6) s = s.p.get r)

/-- 10_state.md R21, R34, R40: the host's writes of `CP` and `P[i]` while not BUSY, and what each leaves alone. -/
def Obligations.HostWritesWhenNotBusy : Prop :=
  ∀ (s : State) (v : Word), isBusy s = false →
    (∃ t, hostStep (.regWrite 3#6 v) s = .next t ∧ t.cp.toNat = v.toNat / 4 * 4 ∧ t = { s with cp := t.cp }) ∧
    (∀ r, ∃ t, hostStep (.regWrite (16#6 + (PReg.number r).zeroExtend 6) v) s = .next t ∧ t.p.get r = v ∧
      (∀ r', r' ≠ r → t.p.get r' = s.p.get r') ∧
      t.satValid = (s.satValid && decide (r ∉ [PReg.src, .sat, .rows, .cols])) ∧
      t = { s with p := t.p, satValid := t.satValid })

/-- 10_state.md R29, R30: a write of any word but `CTRL` is ignored while BUSY, a write of a read-only or reserved word
in every state. -/
def Obligations.IgnoredRegisterWrites : Prop :=
  ∀ (s : State) (idx : BitVec 6) (v : Word), idx ≠ 1#6 →
    (isBusy s = true ∨ (idx ≠ 3#6 ∧ (idx.toNat < 16 ∨ 25 < idx.toNat))) →
    hostStep (.regWrite idx v) s = .next s

/-- 10_state.md R43, 20_memory.md R67, R75 to R77: the host's accesses to plain memory. While not BUSY a write lands byte
by byte, and a read changes nothing and returns the bytes that are there, the same at every read. While BUSY a read gives,
for a byte no command fetched so far in the run writes, a value that is open: unspecified once a command that writes the
byte is fetched, else the byte that was there (log 9). While BUSY a write outside the run's footprint so far lands, and a
write into it is refused (log 8). -/
def Obligations.HostMemoryAccess : Prop :=
  ∀ (s : State) (addr : Word) (bs : List Byte), plainBytes addr.toNat bs.length s →
    (isBusy s = false →
      ∃ t, hostStep (.memWrite addr bs) s = .next t ∧
        (∀ i, i < bs.length → t.mem.byteAt (addr.toNat + i) = bs[i]?) ∧
        sameBytesOutside (inBytes addr.toNat bs.length) s t ∧ t = { s with mem := t.mem }) ∧
    (isBusy s = false →
      ∃ t xs, hostStep (.memRead addr bs.length) s = .next t ∧ hostStep (.memRead addr bs.length) t = .next t ∧
        t = { s with portOut := some (.bytes xs) } ∧ xs.length = bs.length ∧
        ∀ i v, i < bs.length → s.mem.byteAt (addr.toNat + i) = some v → xs[i]? = some (.settled v)) ∧
    (isBusy s = true →
      ∃ t xs, hostStep (.memRead addr bs.length) s = .next t ∧
        t = { s with portOut := some (.bytes xs), draws := t.draws } ∧ xs.length = bs.length ∧
        ∀ i v, i < bs.length → s.mem.byteAt (addr.toNat + i) = some v →
          (∀ x ∈ s.runFoot.writes, inSpan (addr.toNat + i) x = false) →
          ∃ x free, xs[i]? = some x ∧ x.value true = none ∧ x.value false = some v ∧
            ∀ f : Footprint, ∃ ys, (noteFootprint f t).portOut = some (.bytes ys) ∧
              ((∃ y ∈ f.writes, inSpan (addr.toNat + i) y = true) → ys[i]? = some (.settled free)) ∧
              ((∀ y ∈ f.writes, inSpan (addr.toNat + i) y = false) → ys[i]? = some x)) ∧
    (isBusy s = true → (∀ i, i < bs.length → ∀ x ∈ s.runFoot.spans, inSpan (addr.toNat + i) x = false) →
      ∃ t, hostStep (.memWrite addr bs) s = .next t ∧
        (∀ i, i < bs.length → t.mem.byteAt (addr.toNat + i) = bs[i]?) ∧
        sameBytesOutside (inBytes addr.toNat bs.length) s t ∧ t = { s with mem := t.mem, hostWrote := t.hostWrote } ∧
        ∀ a, a ∈ t.hostWrote ↔ a ∈ s.hostWrote ∨ inBytes addr.toNat bs.length a) ∧
    (isBusy s = true → (∃ i, i < bs.length ∧ ∃ x ∈ s.runFoot.spans, inSpan (addr.toNat + i) x = true) →
      hostStep (.memWrite addr bs) s = .refused .hostWriteInFootprint)

/-- 60_exceptions.md R222, R224, 40_build.md R130: whose turn a step is. A transaction of the host that is due is made, and
nothing else happens (that the host's transactions stand in a script is the model's choice, log 3). In IDLE, DONE and
FAULTED the engine's turn changes nothing. Inside a command it is one step of an agent that has an enabled step, and any of
them can be the one (the script's pick or a free value, log 2). -/
def Obligations.TurnsOfHostAndEngine : Prop :=
  (∀ (s : State) (op : HostOp) (rest : List Turn), s.env = .host op :: rest →
    step s = hostStep op { s with env := rest }) ∧
  (∀ s s' : State, engineMoves s s' → isBusy s = false → step s = .next s') ∧
  (∀ (s s' : State) (c : CmdState), engineMoves s s' → s.engine = .busy (.exec c) → enabledAgents c s ≠ [] →
    ∃ a u, a ∈ enabledAgents c s ∧ (u = s' ∨ u = { s' with draws := s'.draws + 1 }) ∧ step s = agentStep a c u) ∧
  (∀ (s : State) (c : CmdState) (a : Agent) (rest : List Turn), s.engine = .busy (.exec c) → a ∈ enabledAgents c s →
    ∃ k, step { s with env := .engine k :: rest } = agentStep a c { s with env := rest })

/-! ## Rules of the whole machine -/

/-- The invariant holds at reset. -/
def Obligations.InvariantAtReset : Prop := Inv State.reset

/-- Every step keeps the invariant: the memory's canonical form, `cp` aligned, the fault record non-zero exactly while
FAULTED (10_state.md R35), the table's alignment and range while `SATVALID = 1` (41_query.md R151), the ranges of the
hidden state (10_state.md R45 to R49) with (I1), (I2) of 40_build.md R121 and the barrier count. -/
def Obligations.StepKeepsInvariant : Prop := ∀ s t : State, Inv s → step s = .next t → Inv t

/-- 60_exceptions.md R225, 40_build.md R121 (T), R125: "no reachable state of a build has all agents held". -/
def Obligations.NoDeadlock : Prop := ∀ (s : State) (f : Fault), Inv s → step s ≠ .fault f

/-- 10_state.md R41: an engine's turn changes `STATE` from BUSY to DONE, by a `HALT`, or to FAULTED, and in no other
way; a host's turn changes it by a write of `CTRL` or by the reset input alone. -/
def Obligations.StateTransitions : Prop :=
  ∀ s t : State, step s = .next t → stateCode t ≠ stateCode s →
    (∃ s', engineMoves s s' ∧ isBusy s = true ∧
      (t.engine = .faulted ∨ (t.engine = .done ∧ s.engine = .busy .fetch ∧
        ∃ w, fetchWord s' = .ok w ∧ decodeWord w = .ok .halt))) ∨
    (∃ op rest, s.env = .host op :: rest ∧ ((∃ v, op = .regWrite 1#6 v) ∨ op = .resetInput))

/-- 10_state.md R21: a step of the engine changes a parameter register only by a fetched `SETL` or `SETH`. That no step
changes the platform's parameters (00_scope.md R5, 92_eei_decisions.md part 2) is the model's choice of where they
stand (log 5). -/
def Obligations.ParameterWriters : Prop :=
  ∀ s t : State, step s = .next t → t.platform = s.platform ∧
    ∀ s', engineMoves s s' → t.p ≠ s.p →
      s.engine = .busy .fetch ∧ ∃ w pd imm, fetchWord s' = .ok w ∧
        (decodeWord w = .ok (.setl pd imm) ∨ decodeWord w = .ok (.seth pd imm))

/-- 10_state.md R25: a step sets `SATVALID` only by completing a build. -/
def Obligations.SatValidSetByCompletionAlone : Prop :=
  ∀ s t : State, step s = .next t → s.satValid = false → t.satValid = true →
    ∃ c s', engineMoves s s' ∧ s.engine = .busy (.exec c) ∧ isBuild c ∧ t.engine = .busy .fetch

/-- 10_state.md R43, 20_memory.md R73: in one step of the engine a byte of memory changes only inside the SAT grid or
the output image. -/
def Obligations.EngineWritesOnlyItsGrids : Prop :=
  ∀ s t s' : State, Inv s → engineMoves s s' → step s = .next t →
    sameBytesOutside (fun a => inSatGrid s a ∨ inImage s a) s t
end

