-- ==== Sys2Proof/Laws/Memory.lean ====
section
/-! SUPPORT. The laws of memory: what a byte reads as after a write, and that every operation keeps the canonical
form. -/

namespace Sys2Proof.Machine

/-! ## Reading a byte after an operation -/

@[simp] theorem byteAt_nil (a : Nat) : Memory.byteAt [] a = none := rfl

theorem byteAt_cons (k : Nat) (v : Byte) (m : Memory) (a : Nat) :
    Memory.byteAt ((k, v) :: m) a = if a = k then some v else Memory.byteAt m a := rfl

theorem byteAt_setByte (m : Memory) (a : Nat) (v : Byte) (x : Nat) :
    Memory.byteAt (Memory.setByte m a v) x = if x = a then some v else Memory.byteAt m x := by
  induction m with
  | nil => rfl
  | cons e rest ih =>
    obtain ⟨k, w⟩ := e
    simp only [Memory.setByte]
    split
    · rfl
    · split
      · rename_i h; subst h
        simp only [byteAt_cons]; split <;> rfl
      · simp only [byteAt_cons, ih]
        split
        · rename_i hx; subst hx
          rw [if_neg (by omega)]
        · rfl

@[simp] theorem byteAt_setByte_self (m : Memory) (a : Nat) (v : Byte) :
    Memory.byteAt (Memory.setByte m a v) a = some v := by simp [byteAt_setByte]

theorem byteAt_setByte_ne (m : Memory) (v : Byte) {a x : Nat} (h : x ≠ a) :
    Memory.byteAt (Memory.setByte m a v) x = Memory.byteAt m x := by simp [byteAt_setByte, h]

theorem byteAt_eraseByte (m : Memory) (a x : Nat) :
    Memory.byteAt (Memory.eraseByte m a) x = if x = a then none else Memory.byteAt m x := by
  induction m with
  | nil => simp [Memory.eraseByte]
  | cons e rest ih =>
    obtain ⟨k, w⟩ := e
    simp only [Memory.eraseByte] at ih
    by_cases hk : k = a
    · subst hk
      simp only [Memory.eraseByte, List.filter_cons, bne_self_eq_false, Bool.false_eq_true, if_false, ih, byteAt_cons]
      split <;> rfl
    · simp only [Memory.eraseByte, List.filter_cons, bne_iff_ne, ne_eq, hk, not_false_eq_true, if_true, byteAt_cons, ih]
      split
      · rename_i hx; subst hx; rw [if_neg hk]
      · rfl

theorem byteAt_writeBytes_outside (bs : List Byte) : ∀ (m : Memory) (a x : Nat), (x < a ∨ a + bs.length ≤ x) →
    Memory.byteAt (Memory.writeBytes m a bs) x = Memory.byteAt m x := by
  induction bs with
  | nil => intros; rfl
  | cons b bs ih =>
    intro m a x h
    simp only [List.length_cons] at h
    rw [Memory.writeBytes, ih _ _ _ (by omega), byteAt_setByte_ne _ _ (by omega)]

theorem byteAt_writeBytes_inside (bs : List Byte) : ∀ (m : Memory) (a i : Nat), i < bs.length →
    Memory.byteAt (Memory.writeBytes m a bs) (a + i) = bs[i]? := by
  induction bs with
  | nil => intro m a i h; exact absurd h (Nat.not_lt_zero _)
  | cons b bs ih =>
    intro m a i h
    cases i with
    | zero =>
      rw [Memory.writeBytes, byteAt_writeBytes_outside _ _ _ _ (Or.inl (by omega))]
      simp
    | succ i =>
      have := ih (m.setByte a b) (a + 1) i (by simpa using h)
      rw [Memory.writeBytes, show a + (i + 1) = a + 1 + i by omega, this]
      simp

@[simp] theorem bytesLE_length (n v : Nat) : (bytesLE n v).length = n := by
  induction n generalizing v with
  | zero => rfl
  | succ n ih => simp [bytesLE, ih]

theorem bytesLE_getElem? (n v i : Nat) (h : i < n) : (bytesLE n v)[i]? = some (BitVec.ofNat 8 (v / 256 ^ i)) := by
  induction n generalizing v i with
  | zero => omega
  | succ n ih =>
    cases i with
    | zero => simp [bytesLE]
    | succ i => simp [bytesLE, ih (v / 256) i (by omega), Nat.div_div_eq_div_mul, Nat.pow_succ, Nat.mul_comm]

theorem byteAt_writeLE_outside (m : Memory) (a n v x : Nat) (h : x < a ∨ a + n ≤ x) :
    Memory.byteAt (Memory.writeLE m a n v) x = Memory.byteAt m x :=
  byteAt_writeBytes_outside _ _ _ _ (by simpa using h)

theorem byteAt_writeLE_inside (m : Memory) (a n v i : Nat) (h : i < n) :
    Memory.byteAt (Memory.writeLE m a n v) (a + i) = some (BitVec.ofNat 8 (v / 256 ^ i)) := by
  rw [Memory.writeLE, byteAt_writeBytes_inside _ _ _ _ (by simpa using h), bytesLE_getElem? _ _ _ h]

/-! ## Reading a little-endian value after an operation -/

theorem readLE_congr {m m' : Memory} : ∀ (n a : Nat),
    (∀ x, a ≤ x → x < a + n → Memory.byteAt m' x = Memory.byteAt m x) → Memory.readLE m' a n = Memory.readLE m a n := by
  intro n
  induction n with
  | zero => intros; rfl
  | succ n ih =>
    intro a h
    simp only [Memory.readLE, h a (Nat.le_refl _) (by omega), ih (a + 1) fun x h1 h2 => h x (by omega) (by omega)]

theorem readLE_writeLE_disjoint (m : Memory) (a n v b k : Nat) (h : b + k ≤ a ∨ a + n ≤ b) :
    Memory.readLE (Memory.writeLE m a n v) b k = Memory.readLE m b k :=
  readLE_congr _ _ fun x h1 h2 => byteAt_writeLE_outside _ _ _ _ _ (by omega)

theorem readLE_of_bytes {m : Memory} : ∀ (n a v : Nat),
    (∀ i, i < n → Memory.byteAt m (a + i) = some (BitVec.ofNat 8 (v / 256 ^ i))) →
      Memory.readLE m a n = some (v % 256 ^ n) := by
  intro n
  induction n with
  | zero => intro a v _; simp [Memory.readLE, Nat.mod_one]
  | succ n ih =>
    intro a v h
    have h0 := h 0 (by omega)
    have hr := ih (a + 1) (v / 256) fun i hi => by
      have := h (i + 1) (by omega)
      rw [show a + 1 + i = a + (i + 1) by omega, this, Nat.div_div_eq_div_mul, Nat.pow_succ, Nat.mul_comm 256]
    rw [Nat.add_zero] at h0
    simp only [Memory.readLE, h0, hr, Option.some.injEq, BitVec.toNat_ofNat, Nat.pow_zero, Nat.div_one]
    rw [show 256 ^ (n + 1) = 256 * 256 ^ n by rw [Nat.pow_succ, Nat.mul_comm], Nat.mod_mul]

/-- A read after a write to the same place gives the value written (20_memory.md R60, R74). -/
theorem readLE_writeLE_same (m : Memory) (a n v : Nat) :
    Memory.readLE (Memory.writeLE m a n v) a n = some (v % 256 ^ n) :=
  readLE_of_bytes _ _ _ fun _ hi => byteAt_writeLE_inside _ _ _ _ _ hi

/-! ## The canonical form -/

theorem setByte_keys {m : Memory} {a : Nat} {v : Byte} {x : Host.Cell} (h : x ∈ Memory.setByte m a v) :
    x.1 = a ∨ x ∈ m := by
  induction m with
  | nil => simp [Memory.setByte] at h; exact Or.inl (by rw [h])
  | cons e rest ih =>
    obtain ⟨k, w⟩ := e
    simp only [Memory.setByte] at h
    split at h
    · rcases List.mem_cons.mp h with h | h
      · exact Or.inl (by rw [h])
      · exact Or.inr h
    · split at h
      · rcases List.mem_cons.mp h with h | h
        · exact Or.inl (by rw [h])
        · exact Or.inr (List.mem_cons_of_mem _ h)
      · rcases List.mem_cons.mp h with h | h
        · exact Or.inr (h ▸ List.mem_cons_self)
        · rcases ih h with h | h
          · exact Or.inl h
          · exact Or.inr (List.mem_cons_of_mem _ h)

theorem setByte_wf {m : Memory} (h : m.wf) {a : Nat} (ha : a < Config.addrSpace) (v : Byte) :
    Memory.wf (Memory.setByte m a v) := by
  refine ⟨?_, fun x hx => (setByte_keys hx).elim (fun e => e ▸ ha) (h.2 x)⟩
  obtain ⟨hs, -⟩ := h
  induction m with
  | nil => simp [Memory.setByte]
  | cons e rest ih =>
    obtain ⟨k, w⟩ := e
    rw [List.pairwise_cons] at hs
    simp only [Memory.setByte]
    split
    · rename_i hk
      refine List.pairwise_cons.mpr ⟨fun y hy => ?_, List.pairwise_cons.mpr hs⟩
      rcases List.mem_cons.mp hy with h | h
      · rw [h]; exact hk
      · exact Nat.lt_trans hk (hs.1 y h)
    · split
      · rename_i h; subst h; exact List.pairwise_cons.mpr ⟨hs.1, hs.2⟩
      · refine List.pairwise_cons.mpr ⟨fun y hy => ?_, ih hs.2⟩
        rcases setByte_keys hy with h | h
        · show k < y.1; omega
        · exact hs.1 y h

theorem eraseByte_wf {m : Memory} (h : m.wf) (a : Nat) : Memory.wf (Memory.eraseByte m a) :=
  ⟨h.1.filter _, fun x hx => h.2 x (List.mem_filter.mp hx).1⟩

theorem writeBytes_wf (bs : List Byte) : ∀ {m : Memory} (_ : m.wf) {a : Nat}
    (_ : ∀ i, i < bs.length → a + i < Config.addrSpace), Memory.wf (Memory.writeBytes m a bs) := by
  induction bs with
  | nil => intro m h a _; exact h
  | cons b bs ih =>
    intro m h a ha
    refine ih (setByte_wf h (by simpa using ha 0 (by simp)) b) fun i hi => ?_
    have := ha (i + 1) (by simpa using hi)
    omega

theorem writeLE_wf {m : Memory} (h : m.wf) {a n : Nat} (v : Nat) (ha : ∀ i, i < n → a + i < Config.addrSpace) :
    Memory.wf (Memory.writeLE m a n v) :=
  writeBytes_wf _ h fun i hi => ha i (by simpa using hi)

theorem byteAt_some_lt {m : Memory} (h : m.wf) {a : Nat} {v : Byte} (hv : Memory.byteAt m a = some v) :
    a < Config.addrSpace := by
  obtain ⟨-, h⟩ := h
  induction m with
  | nil => simp at hv
  | cons e rest ih =>
    obtain ⟨k, w⟩ := e
    rw [byteAt_cons] at hv
    split at hv
    · rename_i hk; exact hk ▸ h (k, w) List.mem_cons_self
    · exact ih hv fun x hx => h x (List.mem_cons_of_mem _ hx)

theorem restore_wf {old : Memory} (ho : old.wf) : ∀ (n a : Nat) {m : Memory}, m.wf →
    Memory.wf (Memory.restore old n a m) := by
  intro n
  induction n with
  | zero => intro a m h; exact h
  | succ n ih =>
    intro a m h
    rw [Memory.restore]
    refine ih _ ?_
    split
    · rename_i v hv; exact setByte_wf h (byteAt_some_lt ho hv) v
    · exact eraseByte_wf h a

theorem backs_lt {pl : Platform} {a : Nat} (h : pl.backs a = true) : a < Config.addrSpace := by
  simp only [Platform.backs, Bool.and_eq_true, decide_eq_true_eq] at h
  exact h.1

theorem plain_backs {pl : Platform} {a : Nat} (h : pl.plain a = true) : pl.backs a = true := by
  simp only [Platform.plain, Bool.and_eq_true] at h
  exact h.1

theorem havoc_wf (pl : Platform) (d : Nat) : ∀ (n a : Nat) {m : Memory}, m.wf → Memory.wf (Memory.havoc pl d n a m) := by
  intro n
  induction n with
  | zero => intro a m h; exact h
  | succ n ih =>
    intro a m h
    rw [Memory.havoc]
    refine ih _ ?_
    split
    · rename_i hp; exact setByte_wf h (backs_lt (plain_backs hp)) _
    · exact h

theorem byteAt_havoc_outside (pl : Platform) (d : Nat) : ∀ (n a : Nat) (m : Memory) (x : Nat), (x < a ∨ a + n ≤ x) →
    Memory.byteAt (Memory.havoc pl d n a m) x = Memory.byteAt m x := by
  intro n
  induction n with
  | zero => intros; rfl
  | succ n ih =>
    intro a m x h
    rw [Memory.havoc, ih _ _ _ (by omega)]
    split
    · exact byteAt_setByte_ne _ _ (by omega)
    · rfl

theorem byteAt_restore_outside (old : Memory) : ∀ (n a : Nat) (m : Memory) (x : Nat), (x < a ∨ a + n ≤ x) →
    Memory.byteAt (Memory.restore old n a m) x = Memory.byteAt m x := by
  intro n
  induction n with
  | zero => intros; rfl
  | succ n ih =>
    intro a m x h
    rw [Memory.restore, ih _ _ _ (by omega)]
    split
    · exact byteAt_setByte_ne _ _ (by omega)
    · rw [byteAt_eraseByte, if_neg (by omega)]

/-- Reset memory has the canonical form. -/
theorem reset_mem_wf : Memory.wf State.reset.mem :=
  ⟨List.Pairwise.nil, fun _ h => absurd h List.not_mem_nil⟩

end Sys2Proof.Machine
end

