-- ==== Sys2Proof/Laws/State.lean ====
section
/-! SUPPORT. One lemma per field per named update of the state, true by rfl. -/

namespace Sys2Proof.Machine

variable (s : State)

@[simp] theorem setCp_p (v : Word) : (setCp v s).p = s.p := rfl
@[simp] theorem setCp_cp (v : Word) : (setCp v s).cp = v &&& 0xFFFFFFFC#32 := rfl
@[simp] theorem setCp_engine (v : Word) : (setCp v s).engine = s.engine := rfl
@[simp] theorem setCp_satValid (v : Word) : (setCp v s).satValid = s.satValid := rfl
@[simp] theorem setCp_satOvf (v : Word) : (setCp v s).satOvf = s.satOvf := rfl
@[simp] theorem setCp_qInexact (v : Word) : (setCp v s).qInexact = s.qInexact := rfl
@[simp] theorem setCp_ieDone (v : Word) : (setCp v s).ieDone = s.ieDone := rfl
@[simp] theorem setCp_ieFault (v : Word) : (setCp v s).ieFault = s.ieFault := rfl
@[simp] theorem setCp_fault (v : Word) : (setCp v s).fault = s.fault := rfl
@[simp] theorem setCp_qs (v : Word) : (setCp v s).qs = s.qs := rfl
@[simp] theorem setCp_qpix (v : Word) : (setCp v s).qpix = s.qpix := rfl
@[simp] theorem setCp_mem (v : Word) : (setCp v s).mem = s.mem := rfl
@[simp] theorem setCp_platform (v : Word) : (setCp v s).platform = s.platform := rfl
@[simp] theorem setCp_env (v : Word) : (setCp v s).env = s.env := rfl
@[simp] theorem setCp_portOut (v : Word) : (setCp v s).portOut = s.portOut := rfl
@[simp] theorem setCp_draws (v : Word) : (setCp v s).draws = s.draws := rfl
@[simp] theorem setCp_runFoot (v : Word) : (setCp v s).runFoot = s.runFoot := rfl
@[simp] theorem setCp_hostWrote (v : Word) : (setCp v s).hostWrote = s.hostWrote := rfl

@[simp] theorem setParam_p (r : PReg) (v : Word) : (setParam r v s).p = s.p.set r v := rfl
@[simp] theorem setParam_cp (r : PReg) (v : Word) : (setParam r v s).cp = s.cp := rfl
@[simp] theorem setParam_engine (r : PReg) (v : Word) : (setParam r v s).engine = s.engine := rfl
@[simp] theorem setParam_satValid (r : PReg) (v : Word) : (setParam r v s).satValid = (s.satValid && !clearsSatValid r) := rfl
@[simp] theorem setParam_satOvf (r : PReg) (v : Word) : (setParam r v s).satOvf = s.satOvf := rfl
@[simp] theorem setParam_qInexact (r : PReg) (v : Word) : (setParam r v s).qInexact = s.qInexact := rfl
@[simp] theorem setParam_ieDone (r : PReg) (v : Word) : (setParam r v s).ieDone = s.ieDone := rfl
@[simp] theorem setParam_ieFault (r : PReg) (v : Word) : (setParam r v s).ieFault = s.ieFault := rfl
@[simp] theorem setParam_fault (r : PReg) (v : Word) : (setParam r v s).fault = s.fault := rfl
@[simp] theorem setParam_qs (r : PReg) (v : Word) : (setParam r v s).qs = s.qs := rfl
@[simp] theorem setParam_qpix (r : PReg) (v : Word) : (setParam r v s).qpix = s.qpix := rfl
@[simp] theorem setParam_mem (r : PReg) (v : Word) : (setParam r v s).mem = s.mem := rfl
@[simp] theorem setParam_platform (r : PReg) (v : Word) : (setParam r v s).platform = s.platform := rfl
@[simp] theorem setParam_env (r : PReg) (v : Word) : (setParam r v s).env = s.env := rfl
@[simp] theorem setParam_portOut (r : PReg) (v : Word) : (setParam r v s).portOut = s.portOut := rfl
@[simp] theorem setParam_draws (r : PReg) (v : Word) : (setParam r v s).draws = s.draws := rfl
@[simp] theorem setParam_runFoot (r : PReg) (v : Word) : (setParam r v s).runFoot = s.runFoot := rfl
@[simp] theorem setParam_hostWrote (r : PReg) (v : Word) : (setParam r v s).hostWrote = s.hostWrote := rfl

@[simp] theorem complete_p : (complete s).p = s.p := rfl
@[simp] theorem complete_cp : (complete s).cp = (s.cp + 4#32) &&& 0xFFFFFFFC#32 := rfl
@[simp] theorem complete_engine : (complete s).engine = .busy .fetch := rfl
@[simp] theorem complete_satValid : (complete s).satValid = s.satValid := rfl
@[simp] theorem complete_satOvf : (complete s).satOvf = s.satOvf := rfl
@[simp] theorem complete_qInexact : (complete s).qInexact = s.qInexact := rfl
@[simp] theorem complete_ieDone : (complete s).ieDone = s.ieDone := rfl
@[simp] theorem complete_ieFault : (complete s).ieFault = s.ieFault := rfl
@[simp] theorem complete_fault : (complete s).fault = s.fault := rfl
@[simp] theorem complete_qs : (complete s).qs = s.qs := rfl
@[simp] theorem complete_qpix : (complete s).qpix = s.qpix := rfl
@[simp] theorem complete_mem : (complete s).mem = s.mem := rfl
@[simp] theorem complete_platform : (complete s).platform = s.platform := rfl
@[simp] theorem complete_env : (complete s).env = s.env := rfl
@[simp] theorem complete_portOut : (complete s).portOut = s.portOut := rfl
@[simp] theorem complete_draws : (complete s).draws = s.draws := rfl
@[simp] theorem complete_runFoot : (complete s).runFoot = s.runFoot := rfl
@[simp] theorem complete_hostWrote : (complete s).hostWrote = s.hostWrote := rfl

@[simp] theorem setCmd_p (c : CmdState) : (setCmd c s).p = s.p := rfl
@[simp] theorem setCmd_cp (c : CmdState) : (setCmd c s).cp = s.cp := rfl
@[simp] theorem setCmd_engine (c : CmdState) : (setCmd c s).engine = .busy (.exec c) := rfl
@[simp] theorem setCmd_satValid (c : CmdState) : (setCmd c s).satValid = s.satValid := rfl
@[simp] theorem setCmd_satOvf (c : CmdState) : (setCmd c s).satOvf = s.satOvf := rfl
@[simp] theorem setCmd_qInexact (c : CmdState) : (setCmd c s).qInexact = s.qInexact := rfl
@[simp] theorem setCmd_ieDone (c : CmdState) : (setCmd c s).ieDone = s.ieDone := rfl
@[simp] theorem setCmd_ieFault (c : CmdState) : (setCmd c s).ieFault = s.ieFault := rfl
@[simp] theorem setCmd_fault (c : CmdState) : (setCmd c s).fault = s.fault := rfl
@[simp] theorem setCmd_qs (c : CmdState) : (setCmd c s).qs = s.qs := rfl
@[simp] theorem setCmd_qpix (c : CmdState) : (setCmd c s).qpix = s.qpix := rfl
@[simp] theorem setCmd_mem (c : CmdState) : (setCmd c s).mem = s.mem := rfl
@[simp] theorem setCmd_platform (c : CmdState) : (setCmd c s).platform = s.platform := rfl
@[simp] theorem setCmd_env (c : CmdState) : (setCmd c s).env = s.env := rfl
@[simp] theorem setCmd_portOut (c : CmdState) : (setCmd c s).portOut = s.portOut := rfl
@[simp] theorem setCmd_draws (c : CmdState) : (setCmd c s).draws = s.draws := rfl
@[simp] theorem setCmd_runFoot (c : CmdState) : (setCmd c s).runFoot = s.runFoot := rfl
@[simp] theorem setCmd_hostWrote (c : CmdState) : (setCmd c s).hostWrote = s.hostWrote := rfl

@[simp] theorem raiseFault_p (code : FaultCode) (info : Word) : (raiseFault code info s).p = s.p := rfl
@[simp] theorem raiseFault_cp (code : FaultCode) (info : Word) : (raiseFault code info s).cp = s.cp := rfl
@[simp] theorem raiseFault_engine (code : FaultCode) (info : Word) : (raiseFault code info s).engine = .faulted := rfl
@[simp] theorem raiseFault_satValid (code : FaultCode) (info : Word) : (raiseFault code info s).satValid = s.satValid := rfl
@[simp] theorem raiseFault_satOvf (code : FaultCode) (info : Word) : (raiseFault code info s).satOvf = s.satOvf := rfl
@[simp] theorem raiseFault_qInexact (code : FaultCode) (info : Word) : (raiseFault code info s).qInexact = s.qInexact := rfl
@[simp] theorem raiseFault_ieDone (code : FaultCode) (info : Word) : (raiseFault code info s).ieDone = s.ieDone := rfl
@[simp] theorem raiseFault_ieFault (code : FaultCode) (info : Word) : (raiseFault code info s).ieFault = s.ieFault := rfl
@[simp] theorem raiseFault_fault (code : FaultCode) (info : Word) : (raiseFault code info s).fault = { code := code.number, fatal := decide (code = .busError), ecp := s.cp, einfo := info } := rfl
@[simp] theorem raiseFault_qs (code : FaultCode) (info : Word) : (raiseFault code info s).qs = s.qs := rfl
@[simp] theorem raiseFault_qpix (code : FaultCode) (info : Word) : (raiseFault code info s).qpix = s.qpix := rfl
@[simp] theorem raiseFault_mem (code : FaultCode) (info : Word) : (raiseFault code info s).mem = s.mem := rfl
@[simp] theorem raiseFault_platform (code : FaultCode) (info : Word) : (raiseFault code info s).platform = s.platform := rfl
@[simp] theorem raiseFault_env (code : FaultCode) (info : Word) : (raiseFault code info s).env = s.env := rfl
@[simp] theorem raiseFault_portOut (code : FaultCode) (info : Word) : (raiseFault code info s).portOut = s.portOut := rfl
@[simp] theorem raiseFault_draws (code : FaultCode) (info : Word) : (raiseFault code info s).draws = s.draws := rfl
@[simp] theorem raiseFault_runFoot (code : FaultCode) (info : Word) : (raiseFault code info s).runFoot = s.runFoot := rfl
@[simp] theorem raiseFault_hostWrote (code : FaultCode) (info : Word) : (raiseFault code info s).hostWrote = s.hostWrote := rfl

@[simp] theorem completeBuild_p : (completeBuild s).p = s.p := rfl
@[simp] theorem completeBuild_cp : (completeBuild s).cp = (s.cp + 4#32) &&& 0xFFFFFFFC#32 := rfl
@[simp] theorem completeBuild_engine : (completeBuild s).engine = .busy .fetch := rfl
@[simp] theorem completeBuild_satValid : (completeBuild s).satValid = true := rfl
@[simp] theorem completeBuild_satOvf : (completeBuild s).satOvf = s.satOvf := rfl
@[simp] theorem completeBuild_qInexact : (completeBuild s).qInexact = s.qInexact := rfl
@[simp] theorem completeBuild_ieDone : (completeBuild s).ieDone = s.ieDone := rfl
@[simp] theorem completeBuild_ieFault : (completeBuild s).ieFault = s.ieFault := rfl
@[simp] theorem completeBuild_fault : (completeBuild s).fault = s.fault := rfl
@[simp] theorem completeBuild_qs : (completeBuild s).qs = s.qs := rfl
@[simp] theorem completeBuild_qpix : (completeBuild s).qpix = s.qpix := rfl
@[simp] theorem completeBuild_mem : (completeBuild s).mem = s.mem := rfl
@[simp] theorem completeBuild_platform : (completeBuild s).platform = s.platform := rfl
@[simp] theorem completeBuild_env : (completeBuild s).env = s.env := rfl
@[simp] theorem completeBuild_portOut : (completeBuild s).portOut = s.portOut := rfl
@[simp] theorem completeBuild_draws : (completeBuild s).draws = s.draws := rfl
@[simp] theorem completeBuild_runFoot : (completeBuild s).runFoot = s.runFoot := rfl
@[simp] theorem completeBuild_hostWrote : (completeBuild s).hostWrote = s.hostWrote := rfl

@[simp] theorem cutBuild_p : (cutBuild s).p = s.p := rfl
@[simp] theorem cutBuild_cp : (cutBuild s).cp = s.cp := rfl
@[simp] theorem cutBuild_engine : (cutBuild s).engine = s.engine := rfl
@[simp] theorem cutBuild_satValid : (cutBuild s).satValid = false := rfl
@[simp] theorem cutBuild_satOvf : (cutBuild s).satOvf = Config.freeBit s.draws 0 := rfl
@[simp] theorem cutBuild_qInexact : (cutBuild s).qInexact = s.qInexact := rfl
@[simp] theorem cutBuild_ieDone : (cutBuild s).ieDone = s.ieDone := rfl
@[simp] theorem cutBuild_ieFault : (cutBuild s).ieFault = s.ieFault := rfl
@[simp] theorem cutBuild_fault : (cutBuild s).fault = s.fault := rfl
@[simp] theorem cutBuild_qs : (cutBuild s).qs = s.qs := rfl
@[simp] theorem cutBuild_qpix : (cutBuild s).qpix = s.qpix := rfl
@[simp] theorem cutBuild_mem : (cutBuild s).mem = Memory.havoc s.platform s.draws (16 * (hp s * wp s)) s.p.sat.toNat s.mem := rfl
@[simp] theorem cutBuild_platform : (cutBuild s).platform = s.platform := rfl
@[simp] theorem cutBuild_env : (cutBuild s).env = s.env := rfl
@[simp] theorem cutBuild_portOut : (cutBuild s).portOut = s.portOut := rfl
@[simp] theorem cutBuild_draws : (cutBuild s).draws = s.draws + 1 := rfl
@[simp] theorem cutBuild_runFoot : (cutBuild s).runFoot = s.runFoot := rfl
@[simp] theorem cutBuild_hostWrote : (cutBuild s).hostWrote = s.hostWrote := rfl

@[simp] theorem cutResults_p : (cutResults s).p = s.p := rfl
@[simp] theorem cutResults_cp : (cutResults s).cp = s.cp := rfl
@[simp] theorem cutResults_engine : (cutResults s).engine = s.engine := rfl
@[simp] theorem cutResults_satValid : (cutResults s).satValid = s.satValid := rfl
@[simp] theorem cutResults_satOvf : (cutResults s).satOvf = s.satOvf := rfl
@[simp] theorem cutResults_qInexact : (cutResults s).qInexact = Config.freeBit s.draws 0 := rfl
@[simp] theorem cutResults_ieDone : (cutResults s).ieDone = s.ieDone := rfl
@[simp] theorem cutResults_ieFault : (cutResults s).ieFault = s.ieFault := rfl
@[simp] theorem cutResults_fault : (cutResults s).fault = s.fault := rfl
@[simp] theorem cutResults_mem : (cutResults s).mem = s.mem := rfl
@[simp] theorem cutResults_platform : (cutResults s).platform = s.platform := rfl
@[simp] theorem cutResults_env : (cutResults s).env = s.env := rfl
@[simp] theorem cutResults_portOut : (cutResults s).portOut = s.portOut := rfl
@[simp] theorem cutResults_draws : (cutResults s).draws = s.draws + 1 := rfl
@[simp] theorem cutResults_runFoot : (cutResults s).runFoot = s.runFoot := rfl
@[simp] theorem cutResults_hostWrote : (cutResults s).hostWrote = s.hostWrote := rfl

@[simp] theorem resetRegs_p : (resetRegs s).p = Params.reset := rfl
@[simp] theorem resetRegs_cp : (resetRegs s).cp = 0#32 := rfl
@[simp] theorem resetRegs_engine : (resetRegs s).engine = .idle := rfl
@[simp] theorem resetRegs_satValid : (resetRegs s).satValid = false := rfl
@[simp] theorem resetRegs_satOvf : (resetRegs s).satOvf = false := rfl
@[simp] theorem resetRegs_qInexact : (resetRegs s).qInexact = false := rfl
@[simp] theorem resetRegs_ieDone : (resetRegs s).ieDone = false := rfl
@[simp] theorem resetRegs_ieFault : (resetRegs s).ieFault = false := rfl
@[simp] theorem resetRegs_fault : (resetRegs s).fault = FaultRecord.none := rfl
@[simp] theorem resetRegs_qs : (resetRegs s).qs = ⟨0#32, 0#32, 0#32, 0#32⟩ := rfl
@[simp] theorem resetRegs_qpix : (resetRegs s).qpix = 0#32 := rfl
@[simp] theorem resetRegs_mem : (resetRegs s).mem = s.mem := rfl
@[simp] theorem resetRegs_platform : (resetRegs s).platform = s.platform := rfl
@[simp] theorem resetRegs_env : (resetRegs s).env = s.env := rfl
@[simp] theorem resetRegs_portOut : (resetRegs s).portOut = s.portOut := rfl
@[simp] theorem resetRegs_draws : (resetRegs s).draws = s.draws := rfl
@[simp] theorem resetRegs_runFoot : (resetRegs s).runFoot = Footprint.empty := rfl
@[simp] theorem resetRegs_hostWrote : (resetRegs s).hostWrote = [] := rfl

@[simp] theorem noteFootprint_p (f : Footprint) : (noteFootprint f s).p = s.p := rfl
@[simp] theorem noteFootprint_cp (f : Footprint) : (noteFootprint f s).cp = s.cp := rfl
@[simp] theorem noteFootprint_engine (f : Footprint) : (noteFootprint f s).engine = s.engine := rfl
@[simp] theorem noteFootprint_satValid (f : Footprint) : (noteFootprint f s).satValid = s.satValid := rfl
@[simp] theorem noteFootprint_satOvf (f : Footprint) : (noteFootprint f s).satOvf = s.satOvf := rfl
@[simp] theorem noteFootprint_qInexact (f : Footprint) : (noteFootprint f s).qInexact = s.qInexact := rfl
@[simp] theorem noteFootprint_ieDone (f : Footprint) : (noteFootprint f s).ieDone = s.ieDone := rfl
@[simp] theorem noteFootprint_ieFault (f : Footprint) : (noteFootprint f s).ieFault = s.ieFault := rfl
@[simp] theorem noteFootprint_fault (f : Footprint) : (noteFootprint f s).fault = s.fault := rfl
@[simp] theorem noteFootprint_qs (f : Footprint) : (noteFootprint f s).qs = s.qs := rfl
@[simp] theorem noteFootprint_qpix (f : Footprint) : (noteFootprint f s).qpix = s.qpix := rfl
@[simp] theorem noteFootprint_mem (f : Footprint) : (noteFootprint f s).mem = s.mem := rfl
@[simp] theorem noteFootprint_platform (f : Footprint) : (noteFootprint f s).platform = s.platform := rfl
@[simp] theorem noteFootprint_env (f : Footprint) : (noteFootprint f s).env = s.env := rfl
@[simp] theorem noteFootprint_portOut (f : Footprint) : (noteFootprint f s).portOut = s.portOut.map (Answer.mapBytes (ReadByte.settle f.writes)) := rfl
@[simp] theorem noteFootprint_draws (f : Footprint) : (noteFootprint f s).draws = s.draws := rfl
@[simp] theorem noteFootprint_hostWrote (f : Footprint) : (noteFootprint f s).hostWrote = s.hostWrote := rfl

@[simp] theorem answer_p (x : Answer) (drawn : Bool) : (answer x drawn s).p = s.p := rfl
@[simp] theorem answer_cp (x : Answer) (drawn : Bool) : (answer x drawn s).cp = s.cp := rfl
@[simp] theorem answer_engine (x : Answer) (drawn : Bool) : (answer x drawn s).engine = s.engine := rfl
@[simp] theorem answer_satValid (x : Answer) (drawn : Bool) : (answer x drawn s).satValid = s.satValid := rfl
@[simp] theorem answer_satOvf (x : Answer) (drawn : Bool) : (answer x drawn s).satOvf = s.satOvf := rfl
@[simp] theorem answer_qInexact (x : Answer) (drawn : Bool) : (answer x drawn s).qInexact = s.qInexact := rfl
@[simp] theorem answer_ieDone (x : Answer) (drawn : Bool) : (answer x drawn s).ieDone = s.ieDone := rfl
@[simp] theorem answer_ieFault (x : Answer) (drawn : Bool) : (answer x drawn s).ieFault = s.ieFault := rfl
@[simp] theorem answer_fault (x : Answer) (drawn : Bool) : (answer x drawn s).fault = s.fault := rfl
@[simp] theorem answer_qs (x : Answer) (drawn : Bool) : (answer x drawn s).qs = s.qs := rfl
@[simp] theorem answer_qpix (x : Answer) (drawn : Bool) : (answer x drawn s).qpix = s.qpix := rfl
@[simp] theorem answer_mem (x : Answer) (drawn : Bool) : (answer x drawn s).mem = s.mem := rfl
@[simp] theorem answer_platform (x : Answer) (drawn : Bool) : (answer x drawn s).platform = s.platform := rfl
@[simp] theorem answer_env (x : Answer) (drawn : Bool) : (answer x drawn s).env = s.env := rfl
@[simp] theorem answer_portOut (x : Answer) (drawn : Bool) : (answer x drawn s).portOut = some x := rfl
@[simp] theorem answer_runFoot (x : Answer) (drawn : Bool) : (answer x drawn s).runFoot = s.runFoot := rfl
@[simp] theorem answer_hostWrote (x : Answer) (drawn : Bool) : (answer x drawn s).hostWrote = s.hostWrote := rfl

/-! The geometry depends on the parameter registers alone. -/

theorem hp_of_p {s t : State} (h : t.p = s.p) : hp t = hp s := by simp only [hp, h]
theorem wp_of_p {s t : State} (h : t.p = s.p) : wp t = wp s := by simp only [wp, h]
theorem kSize_of_p {s t : State} (h : t.p = s.p) : kSize t = kSize s := by simp only [kSize, h]
theorem imgH_of_p {s t : State} (h : t.p = s.p) : imgH t = imgH s := by simp only [imgH, hp, kSize, h]
theorem imgW_of_p {s t : State} (h : t.p = s.p) : imgW t = imgW s := by simp only [imgW, wp, kSize, h]
theorem pxAddr_of_p {s t : State} (r c : Nat) (h : t.p = s.p) : pxAddr t r c = pxAddr s r c := by simp only [pxAddr, wp, h]
theorem satAddr_of_p {s t : State} (r c : Nat) (h : t.p = s.p) : satAddr t r c = satAddr s r c := by simp only [satAddr, wp, h]
theorem dstAddr_of_p {s t : State} (r c : Nat) (h : t.p = s.p) : dstAddr t r c = dstAddr s r c := by simp only [dstAddr, imgW, wp, kSize, h]

end Sys2Proof.Machine
end

