-- ==== Sys2Proof/Laws/Ops.lean ====
section
/-! SUPPORT. The laws of the memory port, of check lists, of the fault record and of the host's actions. -/

namespace Sys2Proof.Machine

/-! ## The memory port -/

/-- The port accepts an access exactly when all its bytes are plain memory. -/
theorem portCheck_ok_iff {pl : Platform} {a n : Nat} :
    portCheck pl a n = .ok () ↔ ∀ i, i < n → pl.plain (a + i) = true := by
  simp only [portCheck, Platform.plain, Bool.and_eq_true]
  split
  · rename_i h
    simp only [List.all_eq_true, List.mem_range] at h
    split
    · rename_i h2
      simp only [List.any_eq_true, List.mem_range] at h2
      obtain ⟨i, hi, hd⟩ := h2
      simp only [reduceCtorEq, false_iff, not_forall]
      exact ⟨i, hi, by simp [hd]⟩
    · rename_i h2
      simp only [List.any_eq_true, List.mem_range, not_exists, not_and] at h2
      exact iff_of_true rfl fun i hi => ⟨h i hi, by simpa using h2 i hi⟩
  · rename_i h
    simp only [List.all_eq_true, List.mem_range, not_forall] at h
    obtain ⟨i, hi, hb⟩ := h
    simp only [reduceCtorEq, false_iff, not_forall]
    exact ⟨i, hi, fun hh => hb hh.1⟩

/-- The three answers of the port: accepted, rejected at its address, or a device. -/
theorem portCheck_cases (pl : Platform) (a n : Nat) :
    portCheck pl a n = .ok () ∨ portCheck pl a n = .error (.bus a) ∨
      portCheck pl a n = .error (.refuse (.deviceAccess a)) := by
  simp only [portCheck]
  split
  · split
    · exact Or.inr (Or.inr rfl)
    · exact Or.inl rfl
  · exact Or.inr (Or.inl rfl)

theorem memRead_ok_iff {s : State} {a n v : Nat} :
    memRead s a n = .ok v ↔ portCheck s.platform a n = .ok () ∧ s.mem.readLE a n = some v := by
  simp only [memRead]
  cases portCheck s.platform a n with
  | error e => simp
  | ok u => cases s.mem.readLE a n <;> simp

/-- A read depends on the platform and on the bytes it reads alone. -/
theorem memRead_congr {s t : State} {a n : Nat} (hp : t.platform = s.platform)
    (hm : ∀ x, a ≤ x → x < a + n → t.mem.byteAt x = s.mem.byteAt x) : memRead t a n = memRead s a n := by
  simp only [memRead, hp, readLE_congr n a hm]

/-- Everything a write can do when the port accepts it. -/
theorem memWrite_ok_iff {s t : State} {a n v : Nat} :
    memWrite s a n v = .ok t ↔
      (∀ i, i < n → s.platform.plain (a + i) = true) ∧ t = { s with mem := s.mem.writeLE a n v } := by
  rw [← portCheck_ok_iff]
  simp only [memWrite]
  cases portCheck s.platform a n with
  | error e => simp
  | ok u => simp [eq_comm]

theorem memWrite_byteAt_outside {s t : State} {a n v x : Nat} (h : memWrite s a n v = .ok t) (hx : x < a ∨ a + n ≤ x) :
    t.mem.byteAt x = s.mem.byteAt x := by
  rw [(memWrite_ok_iff.mp h).2]
  exact byteAt_writeLE_outside _ _ _ _ _ hx

theorem memWrite_wf {s t : State} {a n v : Nat} (h : memWrite s a n v = .ok t) (hw : Memory.wf s.mem) :
    Memory.wf t.mem := by
  obtain ⟨hp, rfl⟩ := memWrite_ok_iff.mp h
  exact writeLE_wf hw _ fun i hi => backs_lt (plain_backs (hp i hi))

/-- What was just written reads back (20_memory.md R74). -/
theorem memRead_memWrite_same {s t : State} {a n v : Nat} (h : memWrite s a n v = .ok t) :
    memRead t a n = .ok (v % 256 ^ n) := by
  obtain ⟨hp, rfl⟩ := memWrite_ok_iff.mp h
  exact memRead_ok_iff.mpr ⟨portCheck_ok_iff.mpr hp, readLE_writeLE_same _ _ _ _⟩

theorem memRead_memWrite_disjoint {s t : State} {a n v b k : Nat} (h : memWrite s a n v = .ok t)
    (hd : b + k ≤ a ∨ a + n ≤ b) : memRead t b k = memRead s b k := by
  obtain ⟨-, rfl⟩ := memWrite_ok_iff.mp h
  exact memRead_congr rfl fun x h1 h2 => byteAt_writeLE_outside _ _ _ _ _ (by omega)

/-! ## Spans -/

/-- An address of a span is an offset inside one of its blocks. -/
theorem inSpan_iff {a : Nat} {x : Span} (h : x.len ≤ x.stride) :
    inSpan a x = true ↔ ∃ k j, k < x.count ∧ j < x.len ∧ a = x.base + x.stride * k + j := by
  simp only [inSpan, Bool.and_eq_true, decide_eq_true_eq]
  constructor
  · rintro ⟨⟨h1, h2⟩, h3⟩
    refine ⟨_, _, h3, h2, ?_⟩
    have := Nat.div_add_mod (a - x.base) x.stride
    omega
  · rintro ⟨k, j, hk, hj, rfl⟩
    have h0 : 0 < x.stride := by omega
    have he : x.base + x.stride * k + j - x.base = j + x.stride * k := by omega
    rw [he, Nat.add_mul_mod_self_left, Nat.add_mul_div_left _ _ h0, Nat.mod_eq_of_lt (by omega),
      Nat.div_eq_of_lt (by omega)]
    omega

theorem inSpan_block {a base len : Nat} : inSpan a (.block base len) = true ↔ base ≤ a ∧ a < base + len := by
  rw [inSpan_iff (Nat.le_refl len)]
  simp only [Span.block]
  constructor
  · rintro ⟨k, j, hk, hj, rfl⟩
    obtain rfl : k = 0 := by omega
    omega
  · rintro ⟨h1, h2⟩
    exact ⟨0, a - base, by omega, by omega, by omega⟩

/-! ## Check lists -/

theorem firstFault_eq_none {l : List (Bool × FaultCode × Word)} :
    firstFault l = none ↔ ∀ x ∈ l, x.1 = false := by
  induction l with
  | nil => simp [firstFault]
  | cons e rest ih =>
    obtain ⟨b, c, i⟩ := e
    simp only [firstFault]
    cases b <;> simp [ih]

/-- A reported fault is an entry of the list whose condition holds. -/
theorem firstFault_some_mem {l : List (Bool × FaultCode × Word)} {c : FaultCode} {i : Word}
    (h : firstFault l = some (c, i)) : (true, c, i) ∈ l := by
  induction l with
  | nil => simp [firstFault] at h
  | cons e rest ih =>
    obtain ⟨b, c', i'⟩ := e
    simp only [firstFault] at h
    cases b
    · exact List.mem_cons_of_mem _ (ih (by simpa using h))
    · simp only [if_true, Option.some.injEq, Prod.mk.injEq] at h
      obtain ⟨rfl, rfl⟩ := h
      exact List.mem_cons_self

/-! ## Registers and host actions -/

@[simp] theorem aligned_toNat (v : Word) : (v &&& 0xFFFFFFFC#32).toNat % 4 = 0 := by
  have h : (v &&& 0xFFFFFFFC#32) &&& 3#32 = 0#32 := by
    rw [BitVec.and_assoc, show 0xFFFFFFFC#32 &&& 3#32 = 0#32 by decide, BitVec.and_zero]
  have h2 := congrArg BitVec.toNat h
  rw [BitVec.toNat_and] at h2
  have h3 : (3#32 : BitVec 32).toNat = 2 ^ 2 - 1 := rfl
  rw [h3, Nat.and_two_pow_sub_one_eq_mod] at h2
  simpa using h2

/-- A write of an aligned value to `cp` stores it (10_state.md R23). -/
theorem aligned_eq_self {v : Word} (h : v.toNat % 4 = 0) : v &&& 0xFFFFFFFC#32 = v := by
  have h2 : v &&& 3#32 = 0#32 := by
    apply BitVec.eq_of_toNat_eq
    rw [BitVec.toNat_and, show (3#32 : BitVec 32).toNat = 2 ^ 2 - 1 from rfl, Nat.and_two_pow_sub_one_eq_mod]
    simpa using h
  have h3 : v &&& 0xFFFFFFFC#32 ||| v &&& 3#32 = v := by
    rw [← BitVec.and_or_distrib_left, show 0xFFFFFFFC#32 ||| 3#32 = BitVec.allOnes 32 by decide, BitVec.and_allOnes]
  rw [h2, BitVec.or_zero] at h3
  exact h3

theorem faultNumber_bounds (c : FaultCode) : 1 ≤ c.number.toNat ∧ c.number.toNat ≤ 9 := by cases c <;> decide

theorem faultNumber_fatal (c : FaultCode) : decide (c = .busError) = decide (c.number = 9#8) := by cases c <;> decide

/-- The CLR action changes `STATE` and the fault record alone (60_exceptions.md R215). -/
theorem clrAction_cases (s : State) :
    (s.engine = .done ∧ clrAction s = { s with engine := .idle }) ∨
    (s.engine = .faulted ∧ s.fault.fatal = false ∧ clrAction s = { s with fault := FaultRecord.none, engine := .idle }) ∨
    clrAction s = s := by
  unfold clrAction
  split
  · rename_i h; exact Or.inl ⟨h, rfl⟩
  · rename_i h
    cases hf : s.fault.fatal
    · exact Or.inr (Or.inl ⟨h, rfl, by simp⟩)
    · exact Or.inr (Or.inr (by simp))
  · exact Or.inr (Or.inr rfl)
  · exact Or.inr (Or.inr rfl)

/-- The GO action acts in IDLE alone (42_sequencer.md R187). -/
theorem goAction_cases (s : State) :
    (s.engine = .idle ∧ goAction s =
      { s with engine := .busy .fetch, portOut := closeAnswer s, runFoot := Footprint.empty, hostWrote := [] }) ∨
    goAction s = s := by
  unfold goAction
  split
  · rename_i h; exact Or.inl ⟨h, rfl⟩
  · exact Or.inr rfl
  · exact Or.inr rfl
  · exact Or.inr rfl

end Sys2Proof.Machine
end

