-- ==== Sys2Proof/Laws/Operands.lean ====
section
/-! SUPPORT. The laws of the channels' arithmetic, of the grid access primitives, of the window sum and of the check
lists. -/

namespace Sys2Proof.Machine

/-! ## Channels -/

theorem sat32_toNat_of_nonneg {v : Int} (h : 0 ≤ v) : (sat32 v).toNat = min maxSum v.toNat := by
  have hm : (maxSum : Int) = 4294967295 := by decide
  have hn : maxSum = 4294967295 := by decide
  rw [sat32, clamp, if_neg (by omega)]
  by_cases hv : (maxSum : Int) < v
  · rw [if_pos hv, BitVec.toNat_ofInt]; omega
  · rw [if_neg hv, BitVec.toNat_ofInt]; omega

theorem sat32_of_neg {v : Int} (h : v < 0) : sat32 v = 0#32 := by
  simp only [sat32, clamp, if_pos h]
  rfl

theorem avgChannel_toNat (area : Nat) (q : Word) : (avgChannel area q).toNat = min 255 (q.toNat / area) := by
  simp only [avgChannel, BitVec.toNat_ofNat]
  generalize q.toNat / area = x
  omega

/-! ## Element layouts -/

theorem packSat_lt (q : Quad Word) : packSat q < 256 ^ 16 := by
  have h1 := q.r.isLt; have h2 := q.g.isLt; have h3 := q.b.isLt; have h4 := q.a.isLt
  simp only [packSat]
  omega

/-- A SatPixel survives the 16-byte layout (20_memory.md R62). -/
theorem unpackSat_packSat (q : Quad Word) : unpackSat (packSat q) = q := by
  obtain ⟨r, g, b, a⟩ := q
  have h1 := r.isLt; have h2 := g.isLt; have h3 := b.isLt; have h4 := a.isLt
  simp only [unpackSat, packSat, Quad.mk.injEq]
  refine ⟨?_, ?_, ?_, ?_⟩ <;> apply BitVec.eq_of_toNat_eq <;> simp only [BitVec.toNat_ofNat] <;> omega

/-! ## Cells of one grid -/

/-- Two cells of a grid are the same cell or do not meet (20_memory.md R63). -/
theorem gridAddr_apart {base cols es r c r' c' : Nat} (hc : c < cols) (hc' : c' < cols) (h : (r, c) ≠ (r', c')) :
    gridAddr base cols es r c + es ≤ gridAddr base cols es r' c' ∨
      gridAddr base cols es r' c' + es ≤ gridAddr base cols es r c := by
  have key : ∀ {x y x' y' : Nat}, y < cols → x < x' → x * cols + y + 1 ≤ x' * cols + y' := by
    intro x y x' y' hy hx
    have := Nat.mul_le_mul_right cols hx
    rw [Nat.succ_mul] at this
    omega
  have lin : r * cols + c + 1 ≤ r' * cols + c' ∨ r' * cols + c' + 1 ≤ r * cols + c := by
    rcases Nat.lt_trichotomy r r' with hr | hr | hr
    · exact Or.inl (key hc hr)
    · subst hr
      have : c ≠ c' := fun e => h (by rw [e])
      omega
    · exact Or.inr (key hc' hr)
  simp only [gridAddr]
  rcases lin with h | h
  · have := Nat.mul_le_mul_left es h
    rw [Nat.mul_succ] at this
    omega
  · have := Nat.mul_le_mul_left es h
    rw [Nat.mul_succ] at this
    omega

/-- A cell of a grid lies inside the grid (20_memory.md R63). -/
theorem gridAddr_inside {base rows cols es r c : Nat} (hr : r < rows) (hc : c < cols) :
    base ≤ gridAddr base cols es r c ∧ gridAddr base cols es r c + es ≤ base + es * (rows * cols) := by
  have h1 : r * cols + c + 1 ≤ rows * cols := by
    have := Nat.mul_le_mul_right cols hr
    rw [Nat.succ_mul] at this
    omega
  have h2 := Nat.mul_le_mul_left es h1
  rw [Nat.mul_succ] at h2
  simp only [gridAddr]
  omega

/-! ## The SAT grid -/

/-- Everything `SATW` can do when it is accepted (20_memory.md R69). -/
theorem satW_ok_iff {s t : State} {r c : Nat} {q : Quad Word} :
    satW s r c q = .ok t ↔ (∀ i, i < 16 → s.platform.plain (satAddr s r c + i) = true) ∧
      t = { s with mem := s.mem.writeLE (satAddr s r c) 16 (packSat q) } := memWrite_ok_iff

/-- `SATR` depends on the parameter registers, the platform and the cell's 16 bytes alone. -/
theorem satR_congr {s t : State} {r c : Nat} (hp : t.p = s.p) (hpl : t.platform = s.platform)
    (hm : ∀ x, satAddr s r c ≤ x → x < satAddr s r c + 16 → t.mem.byteAt x = s.mem.byteAt x) : satR t r c = satR s r c := by
  simp only [satR, satAddr_of_p _ _ hp, memRead_congr hpl hm]

/-- A cell reads as what was just written to it. -/
theorem satR_satW_same {s t : State} {r c : Nat} {q : Quad Word} (h : satW s r c q = .ok t) : satR t r c = .ok q := by
  have hp : t.p = s.p := by rw [(satW_ok_iff.mp h).2]
  have hr := memRead_memWrite_same h
  simp only [satR, satAddr_of_p _ _ hp, hr, Nat.mod_eq_of_lt (packSat_lt q), unpackSat_packSat]

/-- A write of one cell leaves every other cell alone. -/
theorem satR_satW_other {s t : State} {r c r' c' : Nat} {q : Quad Word} (h : satW s r c q = .ok t) (hc : c < wp s)
    (hc' : c' < wp s) (hne : (r', c') ≠ (r, c)) : satR t r' c' = satR s r' c' := by
  obtain ⟨-, rfl⟩ := satW_ok_iff.mp h
  refine satR_congr rfl rfl fun x h1 h2 => byteAt_writeLE_outside _ _ _ _ _ ?_
  rcases gridAddr_apart (base := s.p.sat.toNat) (es := 16) hc' hc hne with h | h <;>
    simp only [satAddr] at h1 h2 ⊢ <;> omega

/-- A Pixel of the padded grid depends on its four bytes alone. -/
theorem readPx_congr {s t : State} {r c : Nat} (hp : t.p = s.p) (hpl : t.platform = s.platform)
    (hm : ∀ x, pxAddr s r c ≤ x → x < pxAddr s r c + 4 → t.mem.byteAt x = s.mem.byteAt x) :
    readPx t r c = readPx s r c := by
  simp only [readPx, pxAddr_of_p _ _ hp, memRead_congr hpl hm]

/-- Everything `DSTW` can do when it is accepted (20_memory.md R70). -/
theorem dstW_ok_iff {s t : State} {r c : Nat} {pix : Word} :
    dstW s r c pix = .ok t ↔ (∀ i, i < 4 → s.platform.plain (dstAddr s r c + i) = true) ∧
      t = { s with mem := s.mem.writeLE (dstAddr s r c) 4 pix.toNat } := memWrite_ok_iff

/-- A window sum is the exact combination of the four corners it reads (41_query.md R152). -/
theorem winSum_ok_iff {s : State} {row col : Nat} {x : Quad Int} {i : Bool} :
    winSum s row col = .ok (x, i) ↔ ∃ br bl tr tl, satR s (row + kSize s) (col + kSize s) = .ok br ∧
      satR s (row + kSize s) col = .ok bl ∧ satR s row (col + kSize s) = .ok tr ∧ satR s row col = .ok tl ∧
      x = winExact br bl tr tl ∧ i = winInexact br bl tr tl := by
  simp only [winSum]
  cases satR s (row + kSize s) (col + kSize s) with
  | error e => simp
  | ok br =>
    cases satR s (row + kSize s) col with
    | error e => simp
    | ok bl =>
      cases satR s row (col + kSize s) with
      | error e => simp
      | ok tr =>
        cases satR s row col with
        | error e => simp
        | ok tl => simp [eq_comm]

/-! ## Check lists -/

/-- The checks depend on the parameter registers and on `NW_MAX` alone. -/
theorem buildChecks_congr {s t : State} (k : Strategy) (hp : t.p = s.p) (hpl : t.platform = s.platform) :
    buildChecks k t = buildChecks k s := by
  simp only [buildChecks, hp_of_p hp, wp_of_p hp, hp, hpl]

theorem queryChecks_congr {s t : State} (k : QueryKind) (hp : t.p = s.p) (hv : t.satValid = s.satValid) :
    queryChecks k t = queryChecks k s := by
  simp only [queryChecks, hp_of_p hp, wp_of_p hp, kSize_of_p hp, imgH_of_p hp, imgW_of_p hp, hp, hv]

/-- Passing the checks of a build, said out (40_build.md R113). -/
theorem buildChecks_none {k : Strategy} {s : State} (h : firstFault (buildChecks k s) = none) :
    1 ≤ hp s ∧ 1 ≤ wp s ∧ (k = .wavefront → 1 ≤ s.p.batch.toNat) ∧ (k = .barrier → 1 ≤ s.p.nwork.toNat) ∧
      s.p.sat.toNat + 16 * (hp s * wp s) ≤ Config.addrSpace ∧ s.p.src.toNat + 4 * (hp s * wp s) ≤ Config.addrSpace ∧
      (s.p.sat.toNat + 16 * (hp s * wp s) ≤ s.p.src.toNat ∨ s.p.src.toNat + 4 * (hp s * wp s) ≤ s.p.sat.toNat) := by
  rw [firstFault_eq_none] at h
  simp only [buildChecks, List.mem_cons, List.not_mem_nil, or_false, forall_eq_or_imp, forall_eq, Bool.or_eq_false_iff,
    Bool.and_eq_false_iff, decide_eq_false_iff_not] at h
  obtain ⟨⟨h1, h2⟩, h3, h4, -, -, h5, h6, h7⟩ := h
  refine ⟨by omega, by omega, fun e => ?_, fun e => ?_, by omega, by omega, by omega⟩
  · rcases h3 with h3 | h3
    · exact absurd e h3
    · omega
  · rcases h4 with h4 | h4
    · exact absurd e h4
    · omega

/-- What one strategy's checks accept, the serial strategy's accept. -/
theorem serialChecks_of {k : Strategy} {s : State} (h : firstFault (buildChecks k s) = none) :
    firstFault (buildChecks .serial s) = none := by
  rw [firstFault_eq_none] at h ⊢
  simp only [buildChecks, List.mem_cons, List.not_mem_nil, or_false, forall_eq_or_imp, forall_eq] at h ⊢
  obtain ⟨h1, -, -, h2⟩ := h
  exact ⟨h1, by simp, by simp, h2⟩

/-- Passing the checks of `QAPPLY`: the image has at least one row and one column (41_query.md R151). -/
theorem queryChecks_none {k : QueryKind} {s : State} (h : firstFault (queryChecks k s) = none) :
    1 ≤ imgH s ∧ 1 ≤ imgW s ∧ s.satValid = true := by
  rw [firstFault_eq_none] at h
  simp only [queryChecks, List.mem_cons, List.not_mem_nil, or_false, forall_eq_or_imp, forall_eq, Bool.or_eq_false_iff,
    decide_eq_false_iff_not] at h
  obtain ⟨-, -, h3, -, ⟨h5, h6⟩, -⟩ := h
  refine ⟨by omega, by omega, by simpa using h3⟩

end Sys2Proof.Machine
end

