-- ==== Sys2Proof/Laws/Build.lean ====
section
/-! SUPPORT. What a step of a build can do: the cell updates, the outcome of an agent's step, the cut, the partition. -/

namespace Sys2Proof.Machine

/-! ## Cell updates -/

/-- An accepted cell update stores the clamped value in its cell, may set `SATOVF`, and changes nothing else. -/
theorem cellUpdate_ok_iff {s t : State} {r c : Nat} {x : Quad Int} :
    cellUpdate s r c x = .ok t ↔ (∀ i, i < 16 → s.platform.plain (satAddr s r c + i) = true) ∧
      t = { s with mem := s.mem.writeLE (satAddr s r c) 16 (packSat (Quad.map sat32 x)),
                   satOvf := s.satOvf || Quad.any exceeds x } := by
  simp only [cellUpdate]
  cases h : satW s r c (Quad.map sat32 x) with
  | error e =>
    simp only [reduceCtorEq, false_iff, not_and]
    intro hp
    have := (satW_ok_iff (q := Quad.map sat32 x)).mpr ⟨hp, rfl⟩
    rw [h] at this
    simp at this
  | ok t' =>
    obtain ⟨hp, rfl⟩ := satW_ok_iff.mp h
    simp only [Except.ok.injEq, eq_comm (a := t)]
    exact ⟨fun e => ⟨hp, e⟩, fun e => e.2⟩

/-- An accepted cell update is an accepted `SATW`, and then at most `SATOVF` changes. -/
theorem cellUpdate_satW {s t : State} {r c : Nat} {x : Quad Int} (h : cellUpdate s r c x = .ok t) :
    ∃ t', satW s r c (Quad.map sat32 x) = .ok t' ∧ t.p = t'.p ∧ t.platform = t'.platform ∧ t.mem = t'.mem := by
  obtain ⟨hp, rfl⟩ := cellUpdate_ok_iff.mp h
  exact ⟨_, satW_ok_iff.mpr ⟨hp, rfl⟩, rfl, rfl, rfl⟩

/-- The cell just updated reads as the clamped value. -/
theorem satR_cellUpdate_same {s t : State} {r c : Nat} {x : Quad Int} (h : cellUpdate s r c x = .ok t) :
    satR t r c = .ok (Quad.map sat32 x) := by
  obtain ⟨t', hw, hp, hpl, hm⟩ := cellUpdate_satW h
  exact (satR_congr hp hpl fun _ _ _ => by rw [hm]).trans (satR_satW_same hw)

/-- Every other cell reads as before. -/
theorem satR_cellUpdate_other {s t : State} {r c r' c' : Nat} {x : Quad Int} (h : cellUpdate s r c x = .ok t)
    (hc : c < wp s) (hc' : c' < wp s) (hne : (r', c') ≠ (r, c)) : satR t r' c' = satR s r' c' := by
  obtain ⟨t', hw, hp, hpl, hm⟩ := cellUpdate_satW h
  exact (satR_congr hp hpl fun _ _ _ => by rw [hm]).trans (satR_satW_other hw hc hc' hne)

/-- Every byte outside the cell reads as before. -/
theorem cellUpdate_byteAt_outside {s t : State} {r c : Nat} {x : Quad Int} (h : cellUpdate s r c x = .ok t) {a : Nat}
    (ha : ¬ inBytes (satAddr s r c) 16 a) : t.mem.byteAt a = s.mem.byteAt a := by
  obtain ⟨-, rfl⟩ := cellUpdate_ok_iff.mp h
  exact byteAt_writeLE_outside _ _ _ _ _ (by simp only [inBytes] at ha; omega)

theorem cellUpdate_wf {s t : State} {r c : Nat} {x : Quad Int} (h : cellUpdate s r c x = .ok t)
    (hw : Memory.wf s.mem) : Memory.wf t.mem := by
  obtain ⟨hp, rfl⟩ := cellUpdate_ok_iff.mp h
  exact writeLE_wf hw _ fun i hi => backs_lt (plain_backs (hp i hi))

theorem colCell_ok_iff {s t : State} {r c : Nat} : colCell s r c = .ok t ↔
    ∃ px up, readPx s r c = .ok px ∧ satR s (r - 1) c = .ok up ∧ cellUpdate s r c (colExact px up) = .ok t := by
  simp only [colCell]
  cases readPx s r c with
  | error e => simp
  | ok px => cases satR s (r - 1) c <;> simp

theorem rowCell_ok_iff {s t : State} {r c : Nat} : rowCell s r c = .ok t ↔
    ∃ cur left, satR s r c = .ok cur ∧ satR s r (c - 1) = .ok left ∧
      cellUpdate s r c (rowExact cur left) = .ok t := by
  simp only [rowCell]
  cases satR s r c with
  | error e => simp
  | ok px => cases satR s r (c - 1) <;> simp

theorem serialCell_ok_iff {s t : State} {r c : Nat} : serialCell s r c = .ok t ↔
    ∃ px up left diag, readPx s r c = .ok px ∧ satR s (r - 1) c = .ok up ∧ satR s r (c - 1) = .ok left ∧
      satR s (r - 1) (c - 1) = .ok diag ∧ cellUpdate s r c (serialExact px up left diag) = .ok t := by
  simp only [serialCell]
  cases readPx s r c with
  | error e => simp
  | ok px =>
    cases satR s (r - 1) c with
    | error e => simp
    | ok up =>
      cases satR s r (c - 1) with
      | error e => simp
      | ok left => cases satR s (r - 1) (c - 1) <;> simp

/-- What an accepted access sequence of a build's agent leaves alone, whichever cell law it is. -/
theorem cell_frame {s t : State} {r c : Nat} {x : Quad Int} (h : cellUpdate s r c x = .ok t) :
    t.p = s.p ∧ t.cp = s.cp ∧ t.engine = s.engine ∧ t.satValid = s.satValid ∧ t.platform = s.platform ∧
      t.fault = s.fault ∧ t.env = s.env ∧ t.draws = s.draws := by
  obtain ⟨-, rfl⟩ := cellUpdate_ok_iff.mp h
  exact ⟨rfl, rfl, rfl, rfl, rfl, rfl, rfl, rfl⟩

/-! ## The outcome of an agent's step -/

/-- Everything a step of an agent of a build can do: move on, take BusError, or have no meaning. -/
theorem buildStep_next {res : Except Stop State} {s t : State} {k : State → State} (h : buildStep res s k = .next t) :
    (∃ t', res = .ok t' ∧ t = k t') ∨
      (∃ a, res = .error (.bus a) ∧ t = raiseFault .busError (BitVec.ofNat 32 a) (cutBuild s)) := by
  simp only [buildStep] at h
  split at h
  · exact Or.inr ⟨_, rfl, by simpa using h.symm⟩
  · simp at h
  · exact Or.inl ⟨_, rfl, by simpa using h.symm⟩

/-- An agent's accesses never stop the machine with a fault of the model. -/
theorem buildStep_ne_fault {res : Except Stop State} {s : State} {k : State → State} {f : Fault} :
    buildStep res s k ≠ .fault f := by
  simp only [buildStep]
  split <;> simp

/-- Everything the meaning of a `BUILD` can do (40_build.md R113, R114). -/
theorem startBuild_cases (k : Strategy) (s : State) :
    (∃ c i, firstFault (buildChecks k s) = some (c, i) ∧ startBuild k s = .next (raiseFault c i s)) ∨
    (firstFault (buildChecks k s) = none ∧
      startBuild k s = .next (setCmd (.sentinels k 0) { s with satValid := false, satOvf := false })) := by
  simp only [startBuild]
  split
  · rename_i c i h; exact Or.inl ⟨c, i, h, rfl⟩
  · rename_i h; exact Or.inr ⟨h, rfl⟩

theorem cutBuild_wf {s : State} (h : Memory.wf s.mem) : Memory.wf (cutBuild s).mem := havoc_wf _ _ _ _ h

/-! ## The partition -/

/-- The spans follow one another (40_build.md R123). -/
theorem spanHi_eq_spanLo (l n w : Nat) : spanHi l n w = spanLo l n (w + 1) := rfl

theorem spanLo_zero (l n : Nat) : spanLo l n 0 = 1 := by simp [spanLo]

theorem spanLo_le_spanHi (l n w : Nat) : spanLo l n w ≤ spanHi l n w := by
  simp only [spanLo, spanHi]
  have := Nat.div_le_div_right (c := n) (Nat.mul_le_mul_right (l - 1) (show w ≤ w + 1 by omega))
  omega

theorem spanHi_le {l n w : Nat} (hl : 1 ≤ l) (hw : w < n) : spanHi l n w ≤ l := by
  simp only [spanHi]
  have h : (w + 1) * (l - 1) / n ≤ l - 1 :=
    Nat.div_le_of_le_mul (Nat.mul_le_mul_right (l - 1) (show w + 1 ≤ n from hw))
  omega

end Sys2Proof.Machine
end

