-- ==== Sys2Proof/Laws/Access.lean ====
section
/-! SUPPORT. When the memory port rejects an access, and which access of a sequence then raises BusError (20_memory.md
R82, 60_exceptions.md R209). -/

namespace Sys2Proof.Machine

/-! ## One access -/

theorem portCheck_bus_iff {pl : Platform} {a n b : Nat} :
    portCheck pl a n = .error (.bus b) ↔ b = a ∧ ∃ i, i < n ∧ pl.backs (a + i) = false := by
  simp only [portCheck]
  split
  · rename_i h
    simp only [List.all_eq_true, List.mem_range] at h
    split <;> simp <;> intro _ x hx <;> simpa using h x hx
  · rename_i h
    simp only [List.all_eq_true, List.mem_range, not_forall] at h
    obtain ⟨i, hi, hb⟩ := h
    simp only [Except.error.injEq, Stop.bus.injEq]
    exact ⟨fun e => ⟨e.symm, i, hi, by simpa using hb⟩, fun e => e.1.symm⟩

theorem memRead_bus_iff {s : State} {a n b : Nat} : memRead s a n = .error (.bus b) ↔ b = a ∧ rejected s a n := by
  rw [rejected, ← portCheck_bus_iff]
  simp only [memRead]
  cases portCheck s.platform a n with
  | error e => simp
  | ok u => cases s.mem.readLE a n <;> simp

theorem memWrite_bus_iff {s : State} {a n v b : Nat} : memWrite s a n v = .error (.bus b) ↔ b = a ∧ rejected s a n := by
  rw [rejected, ← portCheck_bus_iff]
  simp only [memWrite]
  cases portCheck s.platform a n <;> simp

theorem readPx_bus_iff {s : State} {r c b : Nat} :
    readPx s r c = .error (.bus b) ↔ b = pxAddr s r c ∧ rejected s (pxAddr s r c) 4 := by
  rw [← memRead_bus_iff]
  simp only [readPx]
  cases memRead s (pxAddr s r c) 4 <;> simp

theorem satR_bus_iff {s : State} {r c b : Nat} :
    satR s r c = .error (.bus b) ↔ b = satAddr s r c ∧ rejected s (satAddr s r c) 16 := by
  rw [← memRead_bus_iff]
  simp only [satR]
  cases memRead s (satAddr s r c) 16 <;> simp

theorem dstW_bus_iff {s : State} {r c b : Nat} {v : Word} :
    dstW s r c v = .error (.bus b) ↔ b = dstAddr s r c ∧ rejected s (dstAddr s r c) 4 := memWrite_bus_iff

theorem cellUpdate_bus_iff {s : State} {r c b : Nat} {x : Quad Int} :
    cellUpdate s r c x = .error (.bus b) ↔ b = satAddr s r c ∧ rejected s (satAddr s r c) 16 := by
  rw [← memWrite_bus_iff (v := packSat (Quad.map sat32 x))]
  simp only [cellUpdate, satW]
  cases memWrite s (satAddr s r c) 16 (packSat (Quad.map sat32 x)) <;> simp

theorem readPx_readable_iff {s : State} {r c : Nat} :
    (∃ v, memRead s (pxAddr s r c) 4 = .ok v) ↔ ∃ q, readPx s r c = .ok q := by
  simp only [readPx]
  cases memRead s (pxAddr s r c) 4 <;> simp

theorem satR_readable_iff {s : State} {r c : Nat} :
    (∃ v, memRead s (satAddr s r c) 16 = .ok v) ↔ ∃ q, satR s r c = .ok q := by
  simp only [satR]
  cases memRead s (satAddr s r c) 16 <;> simp

/-! ## A sequence of accesses -/

/-- The first access of the list that cannot be read is rejected, and `b` is its address. -/
def firstRejected (s : State) (l : List (Nat × Nat)) (b : Nat) : Prop :=
  ∃ pre n post, l = pre ++ (b, n) :: post ∧ allRead s pre ∧ rejected s b n

@[simp] theorem not_firstRejected_nil {s : State} {b : Nat} : ¬ firstRejected s [] b := by
  rintro ⟨pre, n, post, h, -⟩
  simp at h

theorem firstRejected_cons {s : State} {y : Nat × Nat} {l : List (Nat × Nat)} {b : Nat} :
    firstRejected s (y :: l) b ↔
      (b = y.1 ∧ rejected s y.1 y.2) ∨ ((∃ v, memRead s y.1 y.2 = .ok v) ∧ firstRejected s l b) := by
  constructor
  · rintro ⟨pre, n, post, h, ha, hr⟩
    cases pre with
    | nil =>
      simp only [List.nil_append, List.cons.injEq] at h
      obtain ⟨rfl, rfl⟩ := h
      exact Or.inl ⟨rfl, hr⟩
    | cons z pre =>
      simp only [List.cons_append, List.cons.injEq] at h
      obtain ⟨rfl, rfl⟩ := h
      exact Or.inr ⟨ha _ (by simp), pre, n, post, rfl, fun z hz => ha z (by simp [hz]), hr⟩
  · rintro (⟨rfl, h⟩ | ⟨hv, pre, n, post, rfl, ha, hr⟩)
    · exact ⟨[], _, l, rfl, by simp [allRead], h⟩
    · exact ⟨y :: pre, n, post, rfl, List.forall_mem_cons.mpr ⟨hv, ha⟩, hr⟩

theorem firstRejected_concat {s : State} {l : List (Nat × Nat)} {y : Nat × Nat} {b : Nat} :
    firstRejected s (l ++ [y]) b ↔ firstRejected s l b ∨ (allRead s l ∧ b = y.1 ∧ rejected s y.1 y.2) := by
  induction l with
  | nil => simp [firstRejected_cons, allRead]
  | cons z l ih =>
    have hz : allRead s (z :: l) ↔ (∃ v, memRead s z.1 z.2 = .ok v) ∧ allRead s l := by simp [allRead]
    rw [List.cons_append, firstRejected_cons, firstRejected_cons, ih, hz]
    tauto

/-! ## The cells and the window -/

theorem colCell_bus_iff {s : State} {r c b : Nat} :
    colCell s r c = .error (.bus b) ↔ firstRejected s (colAccesses s r c) b := by
  simp only [colAccesses, firstRejected_cons, not_firstRejected_nil, and_false, or_false, ← readPx_bus_iff,
    ← satR_bus_iff, satR_readable_iff, readPx_readable_iff]
  simp only [colCell]
  cases readPx s r c with
  | error e => simp
  | ok px =>
    cases satR s (r - 1) c with
    | error e => simp
    | ok up => simp [cellUpdate_bus_iff, satR_bus_iff]

theorem rowCell_bus_iff {s : State} {r c b : Nat} :
    rowCell s r c = .error (.bus b) ↔ firstRejected s (rowAccesses s r c) b := by
  simp only [rowAccesses, firstRejected_cons, not_firstRejected_nil, and_false, or_false, ← satR_bus_iff,
    satR_readable_iff]
  simp only [rowCell]
  cases h1 : satR s r c with
  | error e => simp
  | ok x =>
    cases satR s r (c - 1) with
    | error e => simp
    | ok left => simp [cellUpdate_bus_iff, ← satR_bus_iff, h1]

theorem serialCell_bus_iff {s : State} {r c b : Nat} :
    serialCell s r c = .error (.bus b) ↔ firstRejected s (serialAccesses s r c) b := by
  simp only [serialAccesses, firstRejected_cons, not_firstRejected_nil, and_false, or_false, ← readPx_bus_iff,
    ← satR_bus_iff, satR_readable_iff, readPx_readable_iff]
  simp only [serialCell]
  cases readPx s r c with
  | error e => simp
  | ok px =>
    cases satR s (r - 1) c with
    | error e => simp
    | ok up =>
      cases satR s r (c - 1) with
      | error e => simp
      | ok left =>
        cases satR s (r - 1) (c - 1) with
        | error e => simp
        | ok diag => simp [cellUpdate_bus_iff, satR_bus_iff]

theorem winSum_bus_iff {s : State} {row col b : Nat} :
    winSum s row col = .error (.bus b) ↔ firstRejected s (windowAccesses s row col) b := by
  simp only [windowAccesses, firstRejected_cons, not_firstRejected_nil, and_false, or_false, ← satR_bus_iff,
    satR_readable_iff]
  simp only [winSum]
  cases satR s (row + kSize s) (col + kSize s) with
  | error e => simp
  | ok br =>
    cases satR s (row + kSize s) col with
    | error e => simp
    | ok bl =>
      cases satR s row (col + kSize s) with
      | error e => simp
      | ok tr => cases satR s row col <;> simp

theorem winSum_readable_iff {s : State} {row col : Nat} :
    allRead s (windowAccesses s row col) ↔ ∃ x inexact, winSum s row col = .ok (x, inexact) := by
  simp only [allRead, windowAccesses, List.mem_cons, List.not_mem_nil, or_false, forall_eq_or_imp, forall_eq,
    satR_readable_iff]
  simp only [winSum]
  cases satR s (row + kSize s) (col + kSize s) with
  | error e => simp
  | ok br =>
    cases satR s (row + kSize s) col with
    | error e => simp
    | ok bl =>
      cases satR s row (col + kSize s) with
      | error e => simp
      | ok tr => cases satR s row col <;> simp

end Sys2Proof.Machine
end

