-- ==== Sys2Proof/Laws/Engine.lean ====
section
/-! SUPPORT. Who moves and what the machine's step can do; the canonical form is kept by the cuts and by the host. -/

namespace Sys2Proof.Machine

/-! ## The choice of an agent -/

/-- The chosen agent is one of the enabled ones. -/
theorem chooseAgent_mem (pick : Option Nat) (a : Agent) (rest : List Agent) (s : State) :
    (chooseAgent pick a rest s).1 ∈ a :: rest := by
  have key : ∀ k, (a :: rest).getD (k % (a :: rest).length) a ∈ a :: rest := by
    intro k
    have hk : k % (a :: rest).length < (a :: rest).length := Nat.mod_lt _ (by simp)
    rw [List.getD_eq_getElem _ _ hk]
    exact List.getElem_mem hk
  unfold chooseAgent
  split
  · simp
  · split <;> exact key _

/-- Choosing changes at most the draw counter. -/
theorem chooseAgent_state (pick : Option Nat) (a : Agent) (rest : List Agent) (s : State) :
    (chooseAgent pick a rest s).2 = s ∨ (chooseAgent pick a rest s).2 = { s with draws := s.draws + 1 } := by
  unfold chooseAgent
  split
  · exact Or.inl rfl
  · split
    · exact Or.inl rfl
    · exact Or.inr rfl

/-- A step inside a command is a step of an enabled agent; only the draw counter may have moved before it. -/
theorem commandStep_cases (pick : Option Nat) (c : CmdState) (s : State) :
    (enabledAgents c s = [] ∧ commandStep pick c s = .fault .noEnabledStep) ∨
    ∃ a s', a ∈ enabledAgents c s ∧ (s' = s ∨ s' = { s with draws := s.draws + 1 }) ∧
      commandStep pick c s = agentStep a c s' := by
  unfold commandStep
  cases h : enabledAgents c s with
  | nil => exact Or.inl ⟨rfl, rfl⟩
  | cons a rest =>
    exact Or.inr ⟨_, _, chooseAgent_mem pick a rest s, chooseAgent_state pick a rest s, rfl⟩

/-! ## The step -/

/-- The step when a transaction of the host is due. -/
theorem step_host {s : State} {op : HostOp} {rest : List Turn} (h : s.env = .host op :: rest) :
    step s = hostStep op { s with env := rest } := by
  simp only [step, plan, h]

/-- The step inside a command, when the turn is the engine's. -/
theorem step_command {s : State} {c : CmdState} (he : s.engine = .busy (.exec c)) :
    (∀ k rest, s.env = .engine k :: rest → step s = commandStep (some k) c { s with env := rest }) ∧
    (s.env = [] → step s = commandStep none c s) := by
  refine ⟨fun k rest h => ?_, fun h => ?_⟩ <;> simp only [step, plan, h, enginePlan, he]

/-- The step when the engine is quiescent and the turn is its own. -/
theorem step_quiescent {s : State} (he : isBusy s = false) :
    (∀ k rest, s.env = .engine k :: rest → step s = .next { s with env := rest }) ∧
    (s.env = [] → step s = .next s) := by
  have hq : ∀ pick (t : State), t.engine = s.engine → enginePlan pick t = .outcome (.next t) := by
    intro pick t ht
    unfold isBusy at he
    unfold enginePlan
    rw [ht]
    cases h : s.engine with
    | busy p => rw [h] at he; simp at he
    | idle => rfl
    | done => rfl
    | faulted => rfl
  refine ⟨fun k rest h => ?_, fun h => ?_⟩
  · simp only [step, plan, h, hq (some k) { s with env := rest } rfl]
  · simp only [step, plan, h, hq none s rfl]

/-- Everything the fetch phase can do (42_sequencer.md R180). -/
theorem fetchPlan_cases (s : State) :
    fetchPlan s = .outcome (.refused .hostWriteInFootprint) ∨
    (∃ a, fetchWord s = .error (.bus a) ∧
      fetchPlan s = .outcome (.next (raiseFault .busError (BitVec.ofNat 32 a) s))) ∨
    (∃ why, fetchWord s = .error (.refuse why) ∧ fetchPlan s = .outcome (.refused why)) ∨
    (∃ w e, fetchWord s = .ok w ∧ decodeWord w = .error e ∧
      fetchPlan s = .outcome (.next (raiseFault .illegalCommand w s))) ∨
    (∃ w i, fetchWord s = .ok w ∧ decodeWord w = .ok i ∧
      fetchPlan s = .exec i (noteFootprint (footprint i s) s)) := by
  unfold fetchPlan
  split
  · exact Or.inl rfl
  · cases hf : fetchWord s with
    | error e =>
      cases e with
      | bus a => exact Or.inr (Or.inl ⟨a, rfl, rfl⟩)
      | refuse why => exact Or.inr (Or.inr (Or.inl ⟨why, rfl, rfl⟩))
    | ok w =>
      cases hd : decodeWord w with
      | error e => exact Or.inr (Or.inr (Or.inr (Or.inl ⟨w, e, rfl, hd, by simp only [hd]⟩)))
      | ok i =>
        simp only [hd]
        split
        · exact Or.inl rfl
        · exact Or.inr (Or.inr (Or.inr (Or.inr ⟨w, i, rfl, hd, rfl⟩)))

/-! ## The record of the run -/

/-- Noting a footprint adds its spans and takes none away. -/
theorem mem_addSpans {x : Span} {old new : List Span} : x ∈ addSpans old new ↔ x ∈ old ∨ x ∈ new := by
  simp only [addSpans, List.mem_append, List.mem_filter, Bool.not_eq_true', List.contains_eq_mem,
    decide_eq_false_iff_not]
  tauto

/-- A host write broke the contract of 20_memory.md R77 exactly when a byte it wrote lies in one of the spans. -/
theorem contractBroken_iff {spans : List Span} {s : State} :
    contractBroken spans s = true ↔ ∃ a ∈ s.hostWrote, ∃ x ∈ spans, inSpan a x = true := by
  simp only [contractBroken, List.any_eq_true]

@[simp] theorem storedByte_of_some {s : State} {a : Nat} {v : Byte} (h : s.mem.byteAt a = some v) :
    storedByte s a = v := by
  simp only [storedByte, h]

/-- Everything the host can be given for a byte (20_memory.md R67, R76, R77). -/
theorem hostByte_cases (s : State) (addr i : Nat) :
    (isBusy s = false ∧ hostByte s addr i = .settled (storedByte s (addr + i))) ∨
    (isBusy s = true ∧ runWrites s (addr + i) = true ∧ hostByte s addr i = .settled (Config.freeByte s.draws i)) ∨
    (isBusy s = true ∧ runWrites s (addr + i) = false ∧
      hostByte s addr i = .pending (addr + i) (storedByte s (addr + i)) (Config.freeByte s.draws i)) := by
  simp only [hostByte]
  cases isBusy s <;> cases runWrites s (addr + i) <;> simp

/-- A settled byte stays, a pending one is settled or stays; a pending byte has no value while BUSY and the kept one
after the run. -/
@[simp] theorem settle_settled (w : List Span) (v : Byte) : ReadByte.settle w (.settled v) = .settled v := rfl
theorem settle_pending_written {w : List Span} {a : Nat} (k f : Byte) (h : w.any (inSpan a) = true) :
    ReadByte.settle w (.pending a k f) = .settled f := by simp only [ReadByte.settle, h, if_true]
theorem settle_pending_other {w : List Span} {a : Nat} (k f : Byte) (h : w.any (inSpan a) = false) :
    ReadByte.settle w (.pending a k f) = .pending a k f := by simp [ReadByte.settle, h]
@[simp] theorem value_settled (b : Bool) (v : Byte) : ReadByte.value b (.settled v) = some v := rfl
@[simp] theorem value_pending_busy (a : Nat) (k f : Byte) : ReadByte.value true (.pending a k f) = none := rfl
@[simp] theorem value_pending_over (a : Nat) (k f : Byte) : ReadByte.value false (.pending a k f) = some k := rfl

/-- Settling the bytes of the run before keeps their values. -/
@[simp] theorem value_close (b : Bool) (x : ReadByte) : ReadByte.value b x.close = ReadByte.value false x := by
  cases x <;> rfl

/-! ## The canonical form under the cuts and the host -/

theorem cutImage_wf {old : Memory} {s : State} (ho : Memory.wf old) (h : Memory.wf s.mem) :
    ∀ n, Memory.wf (cutImage old s n) := by
  intro n
  induction n with
  | zero => exact h
  | succ n ih =>
    rw [cutImage]
    split
    · rename_i pix _ hfp
      refine writeLE_wf ih _ fun i hi => ?_
      simp only [finalPixel] at hfp
      split at hfp
      · rename_i hpc
        have hpl := portCheck_ok_iff.mp hpc i hi
        have heq : dstAddr s (n / (imgW s).toNat) (n % (imgW s).toNat) = s.p.dst.toNat + 4 * n := by
          simp only [dstAddr, gridAddr, Nat.div_add_mod']
        rw [heq] at hpl
        exact backs_lt (plain_backs hpl)
      · simp at hfp
    · exact restore_wf ho _ _ ih

theorem cutRun_wf {s : State} (h : Memory.wf s.mem)
    (ho : ∀ ar ac acc old, s.engine = .busy (.exec (.traverse ar ac acc old)) → Memory.wf old) :
    Memory.wf (cutRun s).mem := by
  unfold cutRun
  split
  case h_5 old he => exact cutImage_wf (ho _ _ _ _ he) h _
  all_goals first | exact h | exact cutBuild_wf h

/-- The soft reset writes no byte that `cutRun` does not (70_reset_and_hazards.md R242). -/
theorem softReset_mem (s : State) : (softReset s).mem = (cutRun s).mem := rfl

/-- A write of the register port reaches memory only through the soft reset (10_state.md R43). -/
theorem regWrite_mem (idx : BitVec 6) (v : Word) (s : State) :
    (regWrite idx v s).mem = s.mem ∨ (regWrite idx v s).mem = (softReset s).mem := by
  unfold regWrite
  split
  · unfold ctrlWrite
    split
    · exact Or.inr rfl
    · refine Or.inl ?_
      have hc : ∀ x : State, (clrAction x).mem = x.mem := fun x => by
        rcases clrAction_cases x with ⟨_, h⟩ | ⟨_, _, h⟩ | h <;> rw [h]
      have hg : ∀ x : State, (goAction x).mem = x.mem := fun x => by
        rcases goAction_cases x with ⟨_, h⟩ | h <;> rw [h]
      simp only []
      split <;> split <;> simp only [hg, hc]
  · split
    · exact Or.inl rfl
    · exact Or.inl rfl
  · split
    · split
      · exact Or.inl rfl
      · exact Or.inl rfl
    · exact Or.inl rfl

/-- Every transaction of the host keeps the canonical form. -/
theorem hostStep_wf {op : HostOp} {s t : State} (h : hostStep op s = .next t) (hw : Memory.wf s.mem)
    (ho : ∀ ar ac acc old, s.engine = .busy (.exec (.traverse ar ac acc old)) → Memory.wf old) :
    Memory.wf t.mem := by
  unfold hostStep at h
  split at h
  · simp only [Host.Outcome.next.injEq] at h; rw [← h]; exact hw
  · simp only [Host.Outcome.next.injEq] at h
    rw [← h]
    rcases regWrite_mem _ _ s with e | e <;> rw [e]
    · exact hw
    · exact cutRun_wf hw ho
  · simp only [Host.Outcome.next.injEq] at h; rw [← h]; exact cutRun_wf hw ho
  · split at h
    · simp only [Host.Outcome.next.injEq] at h; rw [← h]; exact hw
    · simp at h
  · rename_i addr bs
    split at h
    · rename_i hp
      simp only [List.all_eq_true, List.mem_range] at hp
      have key : Memory.wf (s.mem.writeBytes addr.toNat bs) :=
        writeBytes_wf bs hw fun i hi => backs_lt (plain_backs (hp i hi))
      split at h
      · split at h
        · simp at h
        · simp only [Host.Outcome.next.injEq] at h; rw [← h]; exact key
      · simp only [Host.Outcome.next.injEq] at h; rw [← h]; exact key
    · simp at h

end Sys2Proof.Machine
end

