-- ==== Sys2Proof/Laws/PerInstr.lean ====
section
/-! SUPPORT. Facts about each instruction as syntax: its word carries its opcode in bits 31:24 (30_encoding.md R90). -/

namespace Sys2Proof.Laws.OpcodeField

/-- "The opcode is always bits 31:24." -/
def Statement (i : Instr) : Prop := (encode i).extractLsb' 24 8 = i.opcode

theorem of_append {m n : Nat} (o : BitVec m) (f : BitVec n) : (o ++ f).extractLsb' n m = o := by
  ext k hk
  simp [BitVec.getLsbD_append, hk]

/-- The low field of a concatenation. -/
theorem low_of_append {m n : Nat} (o : BitVec m) (f : BitVec n) : (o ++ f).extractLsb' 0 n = f := by
  ext k hk
  simp [BitVec.getLsbD_append, hk]

theorem nop : Statement .nop := of_append _ _
theorem halt : Statement .halt := of_append _ _
theorem jmp (off24 : BitVec 24) : Statement (.jmp off24) := of_append _ _
theorem setl (pd : BitVec 4) (imm16 : BitVec 16) : Statement (.setl pd imm16) := of_append _ _
theorem seth (pd : BitVec 4) (imm16 : BitVec 16) : Statement (.seth pd imm16) := of_append _ _
theorem buildS : Statement .buildS := of_append _ _
theorem buildW : Statement .buildW := of_append _ _
theorem buildB : Statement .buildB := of_append _ _
theorem qsum : Statement .qsum := of_append _ _
theorem qblur : Statement .qblur := of_append _ _
theorem qapply : Statement .qapply := of_append _ _
theorem rdcell : Statement .rdcell := of_append _ _

end Sys2Proof.Laws.OpcodeField
end

