-- ==== Sys2Proof/Machine/Assembly.lean ====
section
/-! DEFINITION. The assembler syntax of 30_encoding.md R99 and the pseudo-instructions of R100, from characters to
command words with their addresses. Text is a list of characters. -/

namespace Sys2Proof.Asm

/-- What a line asks for. -/
inductive Item where
  | label (name : List Char)
  | command (i : Instr)
  | jump (target : List Char)
  | word (v : Word)
  | org (a : Nat)
deriving DecidableEq, Repr

/-! ## Lexing -/

/-- A character that ends a token. -/
def isGap (c : Char) : Bool := c = ' ' || c = '\t' || c = '\r' || c = ','

/-- Split at every character that satisfies the test. -/
def splitAt (sep : Char → Bool) : (acc : List Char) → List Char → List (List Char)
  | acc, [] => [acc.reverse]
  | acc, c :: cs => if sep c then acc.reverse :: splitAt sep [] cs else splitAt sep (c :: acc) cs

/-- The tokens of a line; "A comment runs from `;` to the end of the line". -/
def tokens (line : List Char) : List (List Char) :=
  (splitAt isGap [] (line.takeWhile fun c => c != ';')).filter fun t => !t.isEmpty

/-- A digit in the given base. -/
def digit (base : Nat) (c : Char) : Option Nat :=
  let v := if '0' ≤ c && c ≤ '9' then c.toNat - 48
    else if 'a' ≤ c && c ≤ 'f' then c.toNat - 87
    else if 'A' ≤ c && c ≤ 'F' then c.toNat - 55 else base
  if v < base then some v else none

/-- Digits in the given base after the value read so far. -/
def digits (base : Nat) : (v : Nat) → List Char → Option Nat
  | v, [] => some v
  | v, c :: cs =>
    match digit base c with
    | some d => digits base (v * base + d) cs
    | none => none

/-- A decimal number, or a hexadecimal one after `0x`. -/
def number : List Char → Option Nat
  | '0' :: 'x' :: c :: cs => digits 16 0 (c :: cs)
  | c :: cs => digits 10 0 (c :: cs)
  | [] => none

/-- `p0 .. p9` or a register name (10_state.md R20). -/
def register (t : List Char) : Option (BitVec 4) :=
  ([("p0", 0), ("p1", 1), ("p2", 2), ("p3", 3), ("p4", 4), ("p5", 5), ("p6", 6), ("p7", 7), ("p8", 8), ("p9", 9),
    ("SRC", 0), ("SAT", 1), ("DST", 2), ("ROWS", 3), ("COLS", 4), ("KSIZE", 5), ("NWORK", 6), ("BATCH", 7), ("QROW", 8),
    ("QCOL", 9)] : List (String × Nat)).findSome? fun x =>
      if x.1.toList = t then some (BitVec.ofNat 4 x.2) else none

/-- The commands without an operand, by name. -/
def plainCommand (t : List Char) : Option Instr :=
  ([("NOP", .nop), ("HALT", .halt), ("BUILD.S", .buildS), ("BUILD.W", .buildW), ("BUILD.B", .buildB), ("QSUM", .qsum),
    ("QBLUR", .qblur), ("QAPPLY", .qapply), ("RDCELL", .rdcell)] : List (String × Instr)).findSome? fun x =>
      if x.1.toList = t then some x.2 else none

/-- The strategies by the names of the pseudo-instruction `BUILD` (30_encoding.md R100). -/
def strategyName (t : List Char) : Option Strategy :=
  if t = "serial".toList then some .serial
  else if t = "wavefront".toList then some .wavefront
  else if t = "barrier".toList then some .barrier
  else none

/-- An identifier. R99 does not say which characters it may hold: a letter or `_`, then letters, digits, `_`, is the
model's own (DESIGN CHOICE, log 28). -/
def isIdent : List Char → Bool
  | [] => false
  | c :: cs => (c.isAlpha || c = '_') && cs.all fun d => d.isAlphanum || d = '_'

/-- An immediate of 16 bits, 0 to 65535. -/
def imm16 (t : List Char) : Option (BitVec 16) :=
  match number t with
  | some v => if v < 65536 then some (BitVec.ofNat 16 v) else none
  | none => none

/-- A 32-bit value. -/
def imm32 (t : List Char) : Option Word :=
  match number t with
  | some v => if v < 2 ^ 32 then some (BitVec.ofNat 32 v) else none
  | none => none

/-- The operand of `JMP`: a signed word offset written `+n` or `-n`, or a label. -/
def jumpTarget : List Char → Option Item
  | '+' :: ds =>
    match number ds with
    | some v => if v < 2 ^ 23 then some (.command (.jmp (BitVec.ofNat 24 v))) else none
    | none => none
  | '-' :: ds =>
    match number ds with
    | some v => if v ≤ 2 ^ 23 then some (.command (.jmp (BitVec.ofInt 24 (-(v : Int))))) else none
    | none => none
  | t => if isIdent t then some (.jump t) else none

/-- The items of a line after its label. -/
def statement (ts : List (List Char)) : Option (List Item) :=
  match ts with
  | [] => some []
  | [m] =>
    match plainCommand m with
    | some i => some [.command i]
    | none => none
  | [m, x] =>
    if m = "JMP".toList then
      match jumpTarget x with
      | some j => some [j]
      | none => none
    else if m = ".word".toList then
      match imm32 x with
      | some v => some [.word v]
      | none => none
    else if m = ".org".toList then
      match imm32 x with
      | some v => if v.toNat % 4 = 0 then some [.org v.toNat] else none
      | none => none
    else if m = "BUILD".toList then
      match strategyName x with
      | some k => some ((Pseudo.build k).expand.map .command)
      | none => none
    else none
  | [m, x, y] =>
    match register x with
    | none => none
    | some pd =>
      if m = "SETL".toList then
        match imm16 y with
        | some v => some [.command (.setl pd v)]
        | none => none
      else if m = "SETH".toList then
        match imm16 y with
        | some v => some [.command (.seth pd v)]
        | none => none
      else if m = "SET".toList then
        match imm32 y with
        | some v => some ((Pseudo.set pd v).expand.map .command)
        | none => none
      else none
  | _ => none

/-- The name of a label token `name:`. -/
def labelName (t : List Char) : Option (List Char) :=
  match t.reverse with
  | ':' :: rest => if isIdent rest.reverse then some rest.reverse else none
  | _ => none

/-- The items of one line: an optional label, then one command (30_encoding.md R99). -/
def lineItems (line : List Char) : Option (List Item) :=
  match tokens line with
  | [] => some []
  | t :: ts =>
    match labelName t with
    | some l =>
      match statement ts with
      | some items => some (.label l :: items)
      | none => none
    | none => statement (t :: ts)

/-- The items of a list of lines. -/
def textItems : List (List Char) → Option (List Item)
  | [] => some []
  | l :: ls =>
    match lineItems l, textItems ls with
    | some xs, some ys => some (xs ++ ys)
    | _, _ => none

/-! ## Addresses -/

/-- The address after an item at address `a`. -/
def nextAddr (a : Nat) : Item → Nat
  | .label _ => a
  | .command _ => a + 4
  | .jump _ => a + 4
  | .word _ => a + 4
  | .org b => b

/-- Every label with the address it names: that of the next command (30_encoding.md R99). R99 does not speak of a label in
front of a directive: here it names the present address, so that of the word of a `.word`, and the address before an
`.org` (DESIGN CHOICE, log 28). -/
def labels : (a : Nat) → List Item → List (List Char × Nat)
  | _, [] => []
  | a, i :: rest =>
    match i with
    | .label l => (l, a) :: labels a rest
    | _ => labels (nextAddr a i) rest

/-- The value of a label. -/
def lookup (l : List Char) : List (List Char × Nat) → Option Nat
  | [] => none
  | (k, a) :: rest => if k = l then some a else lookup l rest

/-- The word of a `JMP` at `a` to a label at `t`: `t - a` is a multiple of 4 within `-2^25 .. 2^25-4`
(30_encoding.md R99). -/
def jumpWord (a t : Nat) : Option Word :=
  let d : Int := (t : Int) - a
  if d % 4 = 0 ∧ -(2 ^ 25 : Int) ≤ d ∧ d ≤ 2 ^ 25 - 4 then some (encode (.jmp (BitVec.ofInt 24 (d / 4)))) else none

/-- The words with their addresses. -/
def emit (env : List (List Char × Nat)) : (a : Nat) → List Item → Option (List (Nat × Word))
  | _, [] => some []
  | a, i :: rest =>
    match emit env (nextAddr a i) rest with
    | none => none
    | some out =>
      match i with
      | .label _ => some out
      | .org _ => some out
      | .command c => some ((a, encode c) :: out)
      | .word v => some ((a, v) :: out)
      | .jump l =>
        match lookup l env with
        | none => none
        | some t =>
          match jumpWord a t with
          | some w => some ((a, w) :: out)
          | none => none

/-- No label is given twice. -/
def distinctLabels (env : List (List Char × Nat)) : Bool := decide (env.map Prod.fst).Nodup

/-- The assembler: from text to (address, word) pairs, starting at address 0. -/
def assemble (text : List Char) : Option (List (Nat × Word)) :=
  match textItems (splitAt (fun c => c = '\n') [] text) with
  | none => none
  | some items => if distinctLabels (labels 0 items) then emit (labels 0 items) 0 items else none

end Sys2Proof.Asm
end

