-- ==== Sys2Proof/Tests/Slice0.lean ====
section
/-! SUPPORT. Tests against the vectors of 95_test_vectors.md (V10 to V29) and, for every statement with hypotheses, a
concrete state and operands that meet all of them together. -/

namespace Sys2Proof.Tests

open Sys2Proof Sys2Proof.Machine

/-! ## Helpers -/

/-- The next state of an outcome. -/
def after (o : Host.Outcome State Fault Refusal) : Option State :=
  match o with
  | .next t => some t
  | _ => none

theorem after_some {o : Host.Outcome State Fault Refusal} {t : State} (h : after o = some t) : o = .next t := by
  cases o <;> simp_all [after]

theorem after_isSome {o : Host.Outcome State Fault Refusal} (h : (after o).isSome = true) : ∃ t, o = .next t := by
  cases o <;> simp_all [after]

/-- The value of a successful access. -/
def got {α : Type} (x : Except Stop α) : Option α :=
  match x with
  | .ok v => some v
  | .error _ => none

theorem got_some {α : Type} {x : Except Stop α} {v : α} (h : got x = some v) : x = .ok v := by
  cases x <;> simp_all [got]

/-- The refusal of an outcome. -/
def refusalOf (o : Host.Outcome State Fault Refusal) : Option Refusal :=
  match o with
  | .refused r => some r
  | _ => none

/-- A Pixel's bytes. -/
def px (r g b a : Nat) : List Byte := [BitVec.ofNat 8 r, BitVec.ofNat 8 g, BitVec.ofNat 8 b, BitVec.ofNat 8 a]

/-- A SatPixel. -/
def sp (r g b a : Nat) : Quad Word := ⟨BitVec.ofNat 32 r, BitVec.ofNat 32 g, BitVec.ofNat 32 b, BitVec.ofNat 32 a⟩

/-- The padded grid of V19. -/
def gridV19 : List Byte :=
  px 9 9 9 9 ++ px 9 9 9 9 ++ px 9 9 9 9 ++ px 9 9 9 9 ++ px 1 10 100 255 ++ px 2 20 200 255 ++ px 9 9 9 9 ++
    px 3 30 50 255 ++ px 4 40 250 255

/-- The table of V19. -/
def tableV19 : Nat → Nat → Quad Word
  | 1, 1 => sp 1 10 100 255
  | 1, 2 => sp 3 30 300 510
  | 2, 1 => sp 4 40 150 510
  | 2, 2 => sp 10 100 600 1020
  | _, _ => sp 0 0 0 0

/-- Bytes at ascending addresses. -/
def bytesFrom : (a : Nat) → List Byte → Memory
  | _, [] => []
  | a, b :: bs => (a, b) :: bytesFrom (a + 1) bs

/-- The bytes of the nine cells of a 3 by 3 table at `0x300`. -/
def tableBytes (cell : Nat → Nat → Quad Word) : Memory :=
  bytesFrom 0x300 ((List.range 9).flatMap fun i => bytesLE 16 (packSat (cell (i / 3) (i % 3))))

/-- The 3 by 3 grid of V19 with a table. -/
def gridWith (cell : Nat → Nat → Quad Word) : Memory := bytesFrom 0x200 gridV19 ++ tableBytes cell

/-- A launched machine about to fetch at `0x100`, over the 3 by 3 grid of V19, with its table built. -/
def lab : State :=
  { State.reset with
    p := { src := 0x200#32, sat := 0x300#32, dst := 0x400#32, rows := 3#32, cols := 3#32, ksize := 1#32,
           nwork := 2#32, batch := 1#32, qrow := 0#32, qcol := 0#32 }
    cp := 0x100#32
    engine := .busy .fetch
    satValid := true
    mem := gridWith tableV19 }

/-- `lab` inside a command, with `SATVALID` 0 as a build leaves it at its start. -/
def inside (c : CmdState) : State := { lab with satValid := false, engine := .busy (.exec c) }

/-- `lab` with a command word at `cp`. -/
def fetching (w : Nat) : State := { lab with mem := lab.mem.writeLE 0x100 4 w }

/-! ## Well-formedness (30_encoding.md R92) -/

theorem test_setl_register_ten_ill_formed : (Instr.setl 10#4 0#16).wellFormed = false := by decide
theorem test_seth_register_fifteen_ill_formed : (Instr.seth 15#4 0#16).wellFormed = false := by decide
theorem test_setl_register_nine_well_formed : (Instr.setl 9#4 0#16).wellFormed = true := by decide
theorem test_seth_register_nine_well_formed : (Instr.seth 9#4 0#16).wellFormed = true := by decide

/-! ## Decoding (V16; the words are written from 30_encoding.md R91 to R95) -/

theorem test_decode_nop : decodeTableWord 32 0x01000000 = some .nop := by decide
theorem test_decode_halt : decodeTableWord 32 0x02000000 = some .halt := by decide
theorem test_decode_jmp : decodeTableWord 32 0x03000002 = some (.jmp 2#24) := by decide
theorem test_decode_jmp_back : decodeTableWord 32 0x03FFFFFF = some (.jmp 0xFFFFFF#24) := by decide
theorem test_decode_setl : decodeTableWord 32 0x0890FFFF = some (.setl 9#4 0xFFFF#16) := by decide
theorem test_decode_seth : decodeTableWord 32 0x09100002 = some (.seth 1#4 2#16) := by decide
theorem test_decode_buildS : decodeTableWord 32 0x10000000 = some .buildS := by decide
theorem test_decode_buildW : decodeTableWord 32 0x11000000 = some .buildW := by decide
theorem test_decode_buildB : decodeTableWord 32 0x12000000 = some .buildB := by decide
theorem test_decode_qsum : decodeTableWord 32 0x20000000 = some .qsum := by decide
theorem test_decode_qblur : decodeTableWord 32 0x21000000 = some .qblur := by decide
theorem test_decode_qapply : decodeTableWord 32 0x22000000 = some .qapply := by decide
theorem test_decode_rdcell : decodeTableWord 32 0x23000000 = some .rdcell := by decide
/-- V15: "Command word `0x08300008` as bytes `08 00 30 08`". -/
theorem test_decode_bytes_little_endian :
    (decodeBytes [0x08#8, 0x00#8, 0x30#8, 0x08#8]).toOption = some (.setl 3#4 8#16, []) := by decide
theorem test_illegal_words :
    [0x00000000, 0xFFFFFFFF, 0x04000000, 0x13000000, 0x24000000, 0x10000001, 0x02800000, 0x08A00000, 0x09F01234,
      0x08010000, 0x083F0008].all (fun w => decodeTableWord 32 w = none) = true := by decide
theorem test_encode_words :
    encode (.jmp 0x800000#24) = 0x03800000#32 ∧ encode (.setl 0#4 0x200#16) = 0x08000200#32 ∧
      encode (.seth 1#4 2#16) = 0x09100002#32 ∧ encode .qapply = 0x22000000#32 := by decide

/-! ## Arithmetic (V10 to V14) -/

/-- The four channels alike. -/
def same (v : Nat) : Quad Word := sp v v v v

/-- A Pixel with four channels alike. -/
def samePx (v : Nat) : Quad Byte := ⟨BitVec.ofNat 8 v, BitVec.ofNat 8 v, BitVec.ofNat 8 v, BitVec.ofNat 8 v⟩

/-- The result and the flag of a law in channel R. -/
def lawR (x : Quad Int) : Nat × Bool := ((sat32 x.r).toNat, exceeds x.r)

theorem test_sat32 :
    [0, 1152, 0xFFFFFFFF, 0x100000000, 0x1FFFFFFFE, -1, -49215, -0x1FFFFFFFE].map (fun v : Int => (sat32 v).toNat) =
      [0, 1152, 0xFFFFFFFF, 0xFFFFFFFF, 0xFFFFFFFF, 0, 0, 0] := by decide
theorem test_sat8 : (sat8 310, sat8 (-290)) = (255#8, 0#8) := by decide
theorem test_colStep :
    [(255, 0xFFFFFF00), (255, 0xFFFFFF01), (0, 0xFFFFFFFF), (1, 0xFFFFFFFF)].map
        (fun q : Nat × Nat => lawR (colExact (samePx q.1) (same q.2))) =
      [(0xFFFFFFFF, false), (0xFFFFFFFF, true), (0xFFFFFFFF, false), (0xFFFFFFFF, true)] := by decide
theorem test_rowStep :
    [(4, 6), (0xFFFFFFFF, 1), (0x80000000, 0x7FFFFFFF), (0x80000000, 0x80000000)].map
        (fun q : Nat × Nat => lawR (rowExact (same q.1) (same q.2))) =
      [(10, false), (0xFFFFFFFF, true), (0xFFFFFFFF, false), (0xFFFFFFFF, true)] := by decide
theorem test_serialStep :
    [(4, 6, 4, 1), (0, 0xFFFFFFFF, 0xFFFFFFFF, 0xFFFFFFFF), (1, 0xFFFFFFFF, 5, 5), (0, 0x80000000, 0x80000000, 1)].map
        (fun q : Nat × Nat × Nat × Nat => lawR (serialExact (samePx q.1) (same q.2.1) (same q.2.2.1) (same q.2.2.2))) =
      [(13, false), (0xFFFFFFFF, false), (0xFFFFFFFF, true), (0xFFFFFFFF, false)] := by decide
theorem test_avgPix :
    avgPix 9 (sp 1152 1152 1152 2295) = 0xFF808080#32 ∧ avgPix 9 (sp 8 9 10 0) = 0xFF010100#32 ∧
      avgPix 9 (sp 2304 0 0xFFFFFFFF 0) = 0xFFFF00FF#32 ∧ avgPix 25 (sp 1790 1510 1754 5700) = 0xFF463C47#32 := by decide
theorem test_winExact : winExact (sp 2080 1220 1408 4370) (sp 440 520 600 2040) (sp 200 250 300 1165)
    (sp 20 40 60 510) = ⟨1460, 490, 568, 1675⟩ := by decide

/-! ## Layout and partition (V15, V23) -/

theorem test_pixel_layout : unpackPixel 0xFF640A01 = ⟨1#8, 10#8, 100#8, 255#8⟩ := by decide
theorem test_satPixel_layout : bytesLE 16 (packSat (sp 3 30 300 510)) =
    [3#8, 0#8, 0#8, 0#8, 0x1E#8, 0#8, 0#8, 0#8, 0x2C#8, 1#8, 0#8, 0#8, 0xFE#8, 1#8, 0#8, 0#8] := by decide
theorem test_addresses : gridAddr 0x12000 7 4 3 4 = 0x12064 ∧ gridAddr 0x20000 7 16 4 5 = 0x20210 ∧
    gridAddr 0x300 3 16 2 2 = 0x380 ∧ gridAddr 0x4000 4 4 3 3 = 0x403C := by decide

/-! ## One step each (V17 to V20, V26 to V29) -/

/-- The step run on a word placed where the next step fetches, at `cp`. -/
def runWord (s : State) (cp w : Nat) : Option State :=
  after (step (State.withFetchWord { s with cp := BitVec.ofNat 32 cp } 32 w))

theorem test_nop_wraps : (runWord lab 0xFFFFFFFC 0x01000000).map (fun t => t.cp) = some 0#32 := by decide
theorem test_halt : (runWord lab 0x120 0x02000000).map (fun t => (t.cp, t.engine)) = some (0x124#32, .done) := by
  decide
theorem test_jmp_back_wraps : (runWord lab 0 0x03FFFFFF).map (fun t => t.cp) = some 0xFFFFFFFC#32 := by decide
theorem test_jmp_most_negative : (runWord lab 0x02000000 0x03800000).map (fun t => t.cp) = some 0#32 := by
  decide
theorem test_setl_rows_clears : (runWord lab 0x100 0x08300008).map (fun t => (t.p.rows, t.satValid, t.cp)) =
    some (8#32, false, 0x104#32) := by decide
theorem test_setl_ksize_keeps : (runWord lab 0x100 0x08500003).map (fun t => (t.p.ksize, t.satValid)) =
    some (3#32, true) := by decide
theorem test_seth_sat : (runWord { lab with p := { lab.p with sat := 0x2000#32 } } 0x100 0x09100001).map
    (fun t => (t.p.sat, t.satValid)) = some (0x12000#32, false) := by decide
theorem test_illegal_step : (runWord lab 0x104 0x10000001).map (fun t => (t.fault, t.engine, t.cp)) =
    some (⟨3#8, false, 0x104#32, 0x10000001#32⟩, .faulted, 0x104#32) := by decide
/-- P7 (b): `BUILD.S` after reset raises NotLoaded. -/
theorem test_buildS_not_loaded : (runWord State.reset 0 0x10000000).map (fun t => t.fault.code) = some 1#8 := by
  decide
/-- V19: "`S-CELL (2,2)`". -/
theorem test_serial_cell : (after (step (inside (.serial 2 2)))).map (fun t => (got (satR t 2 2), t.engine)) =
    some (some (sp 10 100 600 1020), .busy (.exec (.serial 3 1))) := by decide
/-- 40_build.md R113 row 2 before row 4. -/
theorem test_buildW_bad_batch :
    (runWord { lab with p := { lab.p with batch := 0#32, src := 1#32 } } 0x100 0x11000000).map (fun t => t.fault) =
      some ⟨8#8, false, 0x100#32, 7#32⟩ := by decide
/-- V19: "Intermediate state of the two-pass strategies": column sum of cell (2,2). -/
theorem test_producer_cell :
    (after (agentStep .producer (.wave { waveStart with pr := 2, pc := 2 })
      { lab with mem := gridWith fun r c => if r = 1 ∧ c = 2 then sp 2 20 200 255 else sp 0 0 0 0 })).map
      (fun t => got (satR t 2 2)) = some (some (sp 6 60 450 510)) := by decide
theorem test_buildB_too_many_workers :
    (runWord { lab with p := { lab.p with nwork := 9#32 } } 0x100 0x12000000).map (fun t => t.fault) =
      some ⟨8#8, false, 0x100#32, 6#32⟩ := by decide
/-- 40_build.md R123 with `L = 8`, `N = 2` (P2): worker 0 has 1..3, worker 1 has 4..7. -/
theorem test_partition : (spanLo 8 2 0, spanHi 8 2 0, spanLo 8 2 1, spanHi 8 2 1) = (1, 4, 4, 8) := by decide
/-- P8: `K = 1` at (0, 0) reads the padded cell (1, 1). -/
theorem test_qsum : (runWord lab 0x140 0x20000000).map (fun t => (t.qs, t.qInexact, t.qpix)) =
    some (sp 1 10 100 255, false, 0#32) := by decide
/-- P4: a query before any build. -/
theorem test_qsum_not_valid : (runWord { lab with satValid := false } 0x10C 0x20000000).map (fun t => t.fault) =
    some ⟨7#8, false, 0x10C#32, 0#32⟩ := by decide
/-- 41_query.md R165: `K = 1` writes the Pixel's own R, G, B and alpha 255. -/
theorem test_qblur : (runWord lab 0x140 0x21000000).map (fun t => (t.qpix, t.mem.readLE 0x400 4)) =
    some (0xFF640A01#32, some 0xFF640A01) := by decide
/-- P5: an even kernel size. -/
theorem test_qapply_even_kernel :
    (runWord { lab with p := { lab.p with ksize := 4#32 } } 0x1104 0x22000000).map (fun t => t.fault) =
      some ⟨2#8, false, 0x1104#32, 4#32⟩ := by decide
theorem test_qapply_pixel : (after (step { lab with engine := .busy (.exec (.traverse 0 0 false [])) })).map
    (fun t => (t.qpix, t.mem.readLE 0x400 4, t.engine)) =
    some (0xFF640A01#32, some 0xFF640A01, .busy (.exec (.traverse 1 0 false []))) := by decide
/-- P1: `RDCELL` of (2, 2). -/
theorem test_rdcell : (runWord { lab with p := { lab.p with qrow := 2#32, qcol := 2#32 } } 0x11C 0x23000000).map
    (fun t => t.qs) = some (sp 10 100 600 1020) := by decide
theorem test_rdcell_range : (runWord { lab with p := { lab.p with qrow := 3#32 } } 0x11C 0x23000000).map
    (fun t => t.fault) = some ⟨5#8, false, 0x11C#32, 8#32⟩ := by decide

/-! ## The register port (V18) -/

theorem test_reads_after_reset :
    [0, 2, 22, 23, 7, 13, 26, 63].map (fun i => (regRead (BitVec.ofNat 6 i) State.reset).toNat) =
      [0x53415401, 0, 1, 0x20, 0, 0, 0, 0] := by decide
theorem test_write_cp : (regWrite 3#6 0x103#32 State.reset).cp = 0x100#32 := by decide
theorem test_write_ctrl_reserved_bits :
    regWrite 1#6 0xFFFFFCF8#32 { State.reset with ieDone := true } = State.reset := by decide
theorem test_clr_and_go : (regWrite 1#6 3#32 { lab with engine := .done, ieDone := true }).engine = .busy .fetch := by
  decide
theorem test_go_when_done : (regWrite 1#6 1#32 { lab with engine := .done }).engine = .done := by decide
theorem test_fatal_stays :
    (regWrite 1#6 2#32 { lab with engine := .faulted, fault := ⟨9#8, true, 0#32, 0#32⟩ }).engine = .faulted := by
  decide
theorem test_srst_uses_no_other_bit : regWrite 1#6 0x307#32 { lab with mem := [] } = State.reset := by decide
theorem test_status_done : regRead 2#6 { lab with engine := .done, ieDone := true } = 0x112#32 := by decide

/-- A read transaction answers its word and changes no register. -/
theorem test_register_read_transaction :
    (after (step { lab with engine := .done, ieDone := true, env := [.host (.regRead 2#6)] })).map (fun t =>
      (t.portOut, t.env, t.engine, t.draws)) = some (some (.word 0x112#32), [], .done, 0) := by decide

/-! ## What the model refuses (93 X3, X6, X7; log 6, 7, 8) -/

theorem test_unwritten_fetch_refused : refusalOf (step lab) = some (.unwrittenRead 0x100) := by decide
theorem test_device_refused :
    refusalOf (step { fetching 0x01000000 with platform := { lab.platform with devices := [(0x102, 1)] } }) =
      some (.deviceAccess 0x100) := by decide
theorem test_host_write_into_footprint_refused :
    refusalOf (step { lab with runFoot := ⟨[.block 0x200 36], []⟩, env := [.host (.memWrite 0x200#32 [0#8])] }) =
      some .hostWriteInFootprint := by decide

/-! ## Footprints (20_memory.md R73: what each command reads and writes; R77) -/

/-- `lab` over a 6 by 6 grid whose query at (0, 1) with `K = 3` reads the corners of the rows and columns 0 or 3, 1 or
4. -/
def wide : State :=
  { lab with
    p := { lab.p with sat := 0x1000#32, dst := 0x2000#32, rows := 6#32, cols := 6#32, ksize := 3#32, qcol := 1#32 } }

/-- "PX(r,c) for 1 <= r < Hp, 1 <= c < Wp": of the nine Pixels of V19 the build reads (1,1), (1,2), (2,1), (2,2). -/
theorem test_build_footprint_is_interior :
    (List.range 9).map (fun i => (footprint .buildS lab).spans.any (inSpan (0x200 + 4 * i))) =
      [false, false, false, false, true, true, false, true, true] := by decide
/-- "the 4 SatPixels of the window". -/
theorem test_qsum_footprint_is_four_cells :
    (List.range 36).filter (fun i => (footprint .qsum wide).spans.any (inSpan (0x1000 + 16 * i + 15))) =
      [1, 4, 19, 22] := by decide
/-- The windows of the four output Pixels (0..1, 0..1) together. -/
theorem test_qapply_footprint :
    (List.range 36).filter (fun i => (footprint .qapply wide).reads.any (inSpan (0x1000 + 16 * i))) =
        [0, 1, 3, 4, 6, 7, 9, 10, 18, 19, 21, 22, 24, 25, 27, 28] ∧
      (footprint .qapply wide).writes = [.block 0x2000 16] := by decide

/-- A run that has fetched a `QSUM` of `wide`. -/
def inQsumRun (op : HostOp) : State :=
  { noteFootprint (footprint .qsum wide) wide with env := [.host op] }

/-- A cell of the table that no command of the run reads is the host's to write. -/
theorem test_host_write_beside_footprint :
    (after (step (inQsumRun (.memWrite 0x1000#32 [7#8])))).map (fun t => t.mem.byteAt 0x1000) = some (some 7#8) := by
  decide
/-- The values of the bytes that the host read last. -/
def valuesRead (busy : Bool) (s : State) : Option (List (Option Byte)) :=
  match s.portOut with
  | some (.bytes bs) => some (bs.map (ReadByte.value busy))
  | _ => none

/-- R67: a byte that the run does not write has its value, which is certain when the run is over. -/
theorem test_host_read_while_busy :
    (after (step (inQsumRun (.memRead 0x210#32 2)))).map (fun t => (valuesRead true t, valuesRead false t)) =
      some (some [none, none], some [some 1#8, some 10#8]) := by decide
/-- R77: what was read of the Pixel at `0x400` before the `QBLUR` that writes it is a value of its own, while the byte
before it stays as it was. -/
theorem test_host_read_before_later_write :
    (after (hostStep (.memRead 0x3FF#32 2) { lab with mem := lab.mem.writeLE 0x3FF 2 0x0605 })).map (fun t =>
      (noteFootprint (footprint .qblur lab) t).portOut) =
      some (some (.bytes [.pending 0x3FF 5#8 (Config.freeByte 0 0), .settled (Config.freeByte 0 1)])) := by rfl
/-- R67: two reads of a location nobody has written return the same value. -/
theorem test_host_read_unwritten_twice :
    (after (hostStep (.memRead 0x500#32 1) { lab with engine := .idle })).map (fun t => (t.portOut, t.draws)) =
      some (some (.bytes [.settled (Config.unwrittenByte 0x500)]), 0) := by rfl

/-! ## Assembler and reference functions (30_encoding.md R99, R100; V5) -/

theorem test_pseudo_build : (Pseudo.build .barrier).expand = [.buildB] := by decide
theorem test_assemble : Asm.assemble "SETL ROWS, 8 ; rows\nagain: NOP\nJMP again\n.word 0xFF".toList =
    some [(0, 0x08300008#32), (4, 0x01000000#32), (8, 0x03FFFFFF#32), (12, 0xFF#32)] := by decide
theorem test_padRef_v5 : (List.range 5).map (fun j => padRef (fun i k => samePx (3 * i + k)) 3 3 1 0 j) =
    [samePx 0, samePx 0, samePx 1, samePx 2, samePx 2] := by decide

/-! ## Witnesses: for each statement, states and operands that meet its hypotheses together -/

theorem after_engine {o : Host.Outcome State Fault Refusal} {e : Engine}
    (h : (after o).map (fun t => t.engine) = some e) : ∃ t, o = .next t ∧ t.engine = e := by
  cases o <;> simp_all [after]

theorem plain_default {a : Nat} (h : a < 2 ^ 32) : Platform.default.plain a = true := by
  have h4 : a < 4294967296 := h
  simp [Platform.plain, Platform.backs, Platform.isDevice, Platform.default, inRange, Config.addrSpace, h4]

theorem lab_hp : hp lab = 3 := by decide
theorem lab_wp : wp lab = 3 := by decide

/-- The Pixels of V19 as the engine reads them. -/
def labPx (r c : Nat) : Quad Byte := (got (readPx lab r c)).getD (samePx 0)

theorem lab_pixels : pixelsAre labPx lab := by
  intro r c h1 h2 h3 h4
  rw [lab_hp] at h2
  rw [lab_wp] at h4
  interval_cases r <;> interval_cases c <;> exact got_some (by decide)

theorem lab_table : tableIs tableV19 lab := by
  intro r c h1 h2
  rw [lab_hp] at h1
  rw [lab_wp] at h2
  interval_cases r <;> interval_cases c <;> exact got_some (by decide)

theorem lab_grid_plain : plainWhere (inSatGrid lab) lab := by
  intro a h
  have h2 : a < 0x300 + 16 * (3 * 3) := h.2
  exact plain_default (by omega)

theorem lab_image_plain : plainWhere (inImage lab) lab := by
  intro a h
  have h2 : a < 0x400 + 4 * (1 * 1) := h.2
  exact plain_default (by omega)

theorem lab_bytes_plain {a n : Nat} (h : a + n ≤ 2 ^ 32) : plainBytes a n lab := by
  intro x hx
  have := hx.2
  exact plain_default (by omega)

theorem lab_engine_only : onlyEngineTurns lab := by
  intro t h
  simp [lab, State.reset] at h

theorem witness_EncodeDecodeLegalWord : decodeWord 0x0890FFFF#32 = .ok (.setl 9#4 0xFFFF#16) := rfl

theorem witness_LegalWordsMatchOneRow :
    decodeWord 0x03FFFFFF#32 = .ok (.jmp 0xFFFFFF#24) ∧ (0x03#8, 0x03000000#32, 0xFF000000#32, false) ∈ opcodeRows ∧
      matchesRow 0x03FFFFFF#32 (0x03#8, 0x03000000#32, 0xFF000000#32, false) := by
  refine ⟨rfl, by decide, by unfold matchesRow; decide⟩

theorem witness_IllegalWordRaisesIllegalCommand :
    engineMoves (fetching 0x10000001) (fetching 0x10000001) ∧ (fetching 0x10000001).engine = .busy .fetch ∧
      contractBroken [fetchSpan (fetching 0x10000001)] (fetching 0x10000001) = false ∧
      fetchWord (fetching 0x10000001) = .ok 0x10000001#32 ∧ illegalWord 0x10000001#32 :=
  ⟨.inl ⟨rfl, rfl⟩, rfl, by decide, got_some (by decide), by simp [illegalWord]⟩

/-- The cases (a) to (d) of 30_encoding.md R96 at their boundaries, and the legal words beside them. -/
theorem witness_illegalWord_clauses :
    illegalWord 0#32 ∧ illegalWord 0xFFFFFFFF#32 ∧ illegalWord 0x10000001#32 ∧ illegalWord 0x08010000#32 ∧
      illegalWord 0x09A00000#32 ∧ ¬ illegalWord 0x0990FFFF#32 ∧ ¬ illegalWord 0x03FFFFFF#32 := by
  simp [illegalWord]

theorem witness_StepRunsDecodedCommand :
    engineMoves (fetching 0x02000000) (fetching 0x02000000) ∧ (fetching 0x02000000).engine = .busy .fetch ∧
      plainBytes (fetching 0x02000000).cp.toNat 4 (fetching 0x02000000) ∧
      (fetching 0x02000000).mem.byteAt 0x100 = some 0#8 ∧ (fetching 0x02000000).mem.byteAt 0x101 = some 0#8 ∧
      (fetching 0x02000000).mem.byteAt 0x102 = some 0#8 ∧ (fetching 0x02000000).mem.byteAt 0x103 = some 2#8 ∧
      decodeBytes [0#8, 0#8, 0#8, 2#8] = .ok (.halt, []) ∧
      contractBroken (footprint .halt (fetching 0x02000000)).spans (fetching 0x02000000) = false := by
  refine ⟨.inl ⟨rfl, rfl⟩, rfl, ?_, by decide, by decide, by decide, by decide, rfl, by decide⟩
  exact lab_bytes_plain (a := 0x100) (by decide)

/-- For `NOP`, `HALT`, `JMP`, `SETL`, `SETH` and the completions: an aligned `cp`, at the top of the space too. -/
theorem witness_cpAligned : cpAligned lab ∧ cpAligned { lab with cp := 0xFFFFFFFC#32 } := by decide

theorem witness_SetlWritesZeroExtended :
    (0x08A00000#32 : Word).toNat / 2 ^ 24 = 0x08 ∧ (0x08A00000#32 : Word).toNat / 2 ^ 20 % 16 ≥ 10 ∧
      (0x08010000#32 : Word).toNat / 2 ^ 24 = 0x08 ∧ (0x08010000#32 : Word).toNat / 2 ^ 16 % 16 ≠ 0 := by decide

theorem witness_SethReplacesHighHalf :
    (0x09A00000#32 : Word).toNat / 2 ^ 24 = 0x09 ∧ (0x09A00000#32 : Word).toNat / 2 ^ 20 % 16 ≥ 10 ∧
      (0x09010000#32 : Word).toNat / 2 ^ 24 = 0x09 ∧ (0x09010000#32 : Word).toNat / 2 ^ 16 % 16 ≠ 0 := by decide

theorem witness_MissingRegisterRaisesIllegal : (10#4 : BitVec 4).toNat > 9 ∧ (15#4 : BitVec 4).toNat > 9 := by decide

theorem witness_SequencerCommandsFrame :
    (∃ t, exec .nop lab = .next t) ∧ (∃ t, exec .halt lab = .next t) ∧ (∃ t, exec (.jmp 5#24) lab = .next t) ∧
      (∃ t, exec (.setl 3#4 8#16) lab = .next t) ∧ ∃ t, exec (.seth 3#4 8#16) lab = .next t :=
  ⟨⟨_, rfl⟩, ⟨_, rfl⟩, ⟨_, rfl⟩, ⟨_, rfl⟩, ⟨_, rfl⟩⟩

/-- `lab` with other parameter registers. -/
def labP (f : Params → Params) : State := { lab with p := f lab.p }

/-- Each row of 40_build.md R113 at a boundary. -/
theorem witness_BuildRaisesFirstFault :
    buildFaultOf .serial (labP fun p => { p with rows := 0#32 }) = some (1#8, 0#32) ∧
    buildFaultOf .wavefront (labP fun p => { p with batch := 0#32 }) = some (8#8, 7#32) ∧
    buildFaultOf .barrier (labP fun p => { p with nwork := 0#32 }) = some (8#8, 6#32) ∧
    buildFaultOf .barrier (labP fun p => { p with nwork := 9#32 }) = some (8#8, 6#32) ∧
    buildFaultOf .serial (labP fun p => { p with src := 0x202#32 }) = some (4#8, 0#32) ∧
    buildFaultOf .serial (labP fun p => { p with sat := 0x308#32 }) = some (4#8, 1#32) ∧
    buildFaultOf .serial (labP fun p => { p with src := 0xFFFFFFE0#32 }) = some (5#8, 0#32) ∧
    buildFaultOf .serial (labP fun p => { p with sat := 0xFFFFFF80#32 }) = some (5#8, 1#32) ∧
    buildFaultOf .serial (labP fun p => { p with src := 0x2E0#32 }) = some (6#8, 0#32) ∧
    buildFaultOf .serial (labP fun p => { p with src := 0x2DC#32 }) = none ∧
    buildFaultOf .barrier (labP fun p => { p with nwork := 8#32 }) = none ∧
    buildFaultOf .wavefront lab = none := by decide

theorem witness_BuildStartsWhenChecksPass :
    buildFaultOf .serial lab = none ∧ buildFaultOf .wavefront lab = none ∧ buildFaultOf .barrier lab = none := by decide

/-- The last cell of row 0, the first of column 0 below it, and the last sentinel, after which both workers exist. -/
theorem witness_SentinelStepZeroesOneCell :
    (4 + 1 = hp lab + wp lab - 1 ∧ 1 < lab.p.nwork.toNat) ∧
    (2 < hp lab + wp lab - 1 ∧ ((0, 2) : Nat × Nat) = (if 2 < wp lab then (0, 2) else (2 - wp lab + 1, 0)) ∧
      plainBytes (satAddr lab 0 2) 16 lab) ∧
    (3 < hp lab + wp lab - 1 ∧ ((1, 0) : Nat × Nat) = (if 3 < wp lab then (0, 3) else (3 - wp lab + 1, 0)) ∧
      plainBytes (satAddr lab 1 0) 16 lab) ∧
    (4 < hp lab + wp lab - 1 ∧ ((2, 0) : Nat × Nat) = (if 4 < wp lab then (0, 4) else (4 - wp lab + 1, 0)) ∧
      plainBytes (satAddr lab 2 0) 16 lab) :=
  ⟨by decide, ⟨by decide, by decide, lab_bytes_plain (by decide)⟩, ⟨by decide, by decide, lab_bytes_plain (by decide)⟩,
    ⟨by decide, by decide, lab_bytes_plain (by decide)⟩⟩

theorem witness_SerialCellStep :
    2 < hp lab ∧ 2 < wp lab ∧ readPx lab 2 2 = .ok ⟨4#8, 40#8, 250#8, 255#8⟩ ∧
      satR lab 1 2 = .ok (sp 3 30 300 510) ∧ satR lab 2 1 = .ok (sp 4 40 150 510) ∧
      satR lab 1 1 = .ok (sp 1 10 100 255) ∧ plainBytes (satAddr lab 2 2) 16 lab :=
  ⟨by decide, by decide, got_some (by decide), got_some (by decide), got_some (by decide), got_some (by decide),
    lab_bytes_plain (by decide)⟩

/-- Each clause: a cell, the end of a row with and without a publication, the end of the last row. -/
theorem witness_ProducerSteps :
    (waveStart.pdone = false ∧ waveStart.pr < hp lab ∧ waveStart.pc < wp lab ∧
      readPx lab 1 1 = .ok ⟨1#8, 10#8, 100#8, 255#8⟩ ∧ satR lab 0 1 = .ok (sp 0 0 0 0) ∧
      plainBytes (satAddr lab 1 1) 16 lab) ∧
    (2 < hp lab ∧ wp lab ≤ 3 ∧ 2 % lab.p.batch.toNat = 0) ∧
    (2 < hp lab ∧ wp lab ≤ 3 ∧ 2 % (labP fun p => { p with batch := 3#32 }).p.batch.toNat ≠ 0) ∧ hp lab ≤ 3 :=
  ⟨⟨rfl, by decide, by decide, got_some (by decide), got_some (by decide), lab_bytes_plain (by decide)⟩, by decide,
    by decide, by decide⟩

/-- Each clause: held or awake, a cell, the end of a row. -/
theorem witness_ConsumerSteps :
    (waveStart.mode = .waiting ∧ waveStart.cur < hp lab ∧ ¬ waveStart.cur ≤ waveStart.safeRow) ∧
    (1 < hp lab ∧ (1 : Nat) ≤ { waveStart with safeRow := 1 }.safeRow) ∧
    (2 < wp lab ∧ satR lab 2 2 = .ok (sp 10 100 600 1020) ∧ satR lab 2 1 = .ok (sp 4 40 150 510)) ∧ wp lab ≤ 3 :=
  ⟨by decide, by decide, ⟨by decide, got_some (by decide), got_some (by decide)⟩, by decide⟩

/-- Each clause: a cell of pass 1, a cell of pass 2, no cell left in each pass (worker 1 of 2 over columns 1..2). -/
theorem witness_WorkerSteps :
    ((pass1 lab).workers[1]? = some { lo := 2, hi := 3, r := 1, c := 2, arrived := false } ∧ (pass1 lab).pass = .one ∧
      1 < hp lab ∧ readPx lab 1 2 = .ok ⟨2#8, 20#8, 200#8, 255#8⟩ ∧ satR lab 0 2 = .ok (sp 0 0 0 0) ∧
      plainBytes (satAddr lab 1 2) 16 lab) ∧
    ((pass2 lab).workers[1]? = some { lo := 2, hi := 3, r := 2, c := 1, arrived := false } ∧ (pass2 lab).pass = .two ∧
      1 < wp lab ∧ satR lab 2 1 = .ok (sp 4 40 150 510) ∧ satR lab 2 0 = .ok (sp 0 0 0 0)) ∧
    ¬ (3 < hp lab ∧ 2 < 3) ∧ ¬ (3 < 3 ∧ 1 < wp lab) :=
  ⟨⟨by decide, rfl, by decide, got_some (by decide), got_some (by decide), lab_bytes_plain (by decide)⟩,
    ⟨by decide, rfl, by decide, got_some (by decide), got_some (by decide)⟩, by decide, by decide⟩

/-- The barrier of pass 1 with both workers arrived. -/
def fullBarrier : Barrier :=
  { pass := .one, arrivedCount := 2, workers := (pass1 lab).workers.map fun k => { k with r := 3, arrived := true } }

theorem witness_BarrierOpensWhenAllArrived :
    fullBarrier.arrivedCount = fullBarrier.workers.length ∧ fullBarrier.pass = .one ∧
      ∃ t b', agentStep .sequencer (.barrier fullBarrier) lab = .next t ∧ t.engine = .busy (.exec (.barrier b')) ∧
        b'.pass = .two := by
  refine ⟨by decide, rfl, ?_⟩
  obtain ⟨t, h, he⟩ := after_engine (o := agentStep .sequencer (.barrier fullBarrier) lab)
    (e := .busy (.exec (.barrier (pass2 lab)))) (by decide)
  exact ⟨t, pass2 lab, h, he, rfl⟩

theorem witness_BuildCompletion :
    cpAligned lab ∧ hp lab ≤ 3 ∧ (wp (labP fun p => { p with cols := 1#32 }) ≤ 1 ∧ 1 ≤ 1) ∧
      ({ waveStart with pdone := true, cur := 3 }.pdone = true ∧ { waveStart with pdone := true, cur := 3 }.mode = .waiting ∧
        hp lab ≤ { waveStart with pdone := true, cur := 3 }.cur) ∧
      ({ fullBarrier with pass := .two }.pass = .two ∧
        { fullBarrier with pass := .two }.arrivedCount = { fullBarrier with pass := .two }.workers.length) := by decide

/-- Empty spans, and the first and the last index. -/
theorem witness_PartitionCoversOnce :
    (1 ≤ 1 ∧ 1 ≤ 2 ∧ spanLo 1 2 1 = spanHi 1 2 1) ∧ (0 < 2 ∧ spanLo 8 2 0 ≤ 1 ∧ 1 < spanHi 8 2 0) ∧
      (1 < 2 ∧ spanLo 8 2 1 ≤ 7 ∧ 7 < spanHi 8 2 1) := by decide

theorem allRead_of {s : State} {l : List (Nat × Nat)} (h : l.all (fun y => (got (memRead s y.1 y.2)).isSome) = true) :
    allRead s l := by
  intro y hy
  obtain ⟨v, hv⟩ := Option.isSome_iff_exists.mp (List.all_eq_true.mp h y hy)
  exact ⟨v, got_some hv⟩

/-- `lab` with no memory but the `n` bytes at `a`. -/
def labBacked (a n : Nat) : State := { lab with platform := { lab.platform with memValid := [(a, n)] } }

/-- Each clause: a build's and a traversal's step that end FAULTED; the first and the last access of a producer's cell;
the first and the last corner of `QSUM`; the first corner and the Pixel of `QBLUR`. -/
theorem witness_RejectedAccessIsFatal :
    (isBuild (.sentinels .serial 0) ∧
      ∃ t, agentStep .sequencer (.sentinels .serial 0) (labBacked 0 0) = .next t ∧ t.engine = .faulted) ∧
    (¬ isBuild (.traverse 0 0 false []) ∧
      ∃ t, agentStep .sequencer (.traverse 0 0 false []) (labBacked 0 0x400) = .next t ∧ t.engine = .faulted) ∧
    (agentAccesses .producer (.wave waveStart) lab = [] ++ (0x210, 4) :: [(0x310, 16), (0x340, 16)] ∧
      rejected (labBacked 0 0x213) 0x210 4) ∧
    (agentAccesses .producer (.wave waveStart) lab = [(0x210, 4), (0x310, 16)] ++ (0x340, 16) :: [] ∧
      allRead (labBacked 0 0x340) [(0x210, 4), (0x310, 16)] ∧ rejected (labBacked 0 0x340) 0x340 16) ∧
    (queryFaultOf .sum (labBacked 0 0x340) = none ∧
      windowAccesses (labBacked 0 0x340) 0 0 = [] ++ (0x340, 16) :: [(0x330, 16), (0x310, 16), (0x300, 16)] ∧
      rejected (labBacked 0 0x340) 0x340 16) ∧
    (windowAccesses (labBacked 0x310 0x100) 0 0 = [(0x340, 16), (0x330, 16), (0x310, 16)] ++ (0x300, 16) :: [] ∧
      allRead (labBacked 0x310 0x100) [(0x340, 16), (0x330, 16), (0x310, 16)] ∧
      rejected (labBacked 0x310 0x100) 0x300 16) ∧
    (queryFaultOf .blur (labBacked 0 0x400) = none ∧
      windowAccesses (labBacked 0 0x400) 0 0 ++ [(dstAddr (labBacked 0 0x400) 0 0, 4)] =
        [(0x340, 16), (0x330, 16), (0x310, 16), (0x300, 16)] ++ (0x400, 4) :: [] ∧
      allRead (labBacked 0 0x400) [(0x340, 16), (0x330, 16), (0x310, 16), (0x300, 16)] ∧
      rejected (labBacked 0 0x400) 0x400 4) :=
  ⟨⟨trivial, after_engine (by decide)⟩, ⟨id, after_engine (by decide)⟩, ⟨by decide, 3, by decide, by decide⟩,
    ⟨by decide, allRead_of (by decide), 0, by decide, by decide⟩,
    ⟨by decide, by decide, 0, by decide, by decide⟩, ⟨by decide, allRead_of (by decide), 0, by decide, by decide⟩,
    ⟨by decide, by decide, allRead_of (by decide), 0, by decide, by decide⟩⟩

theorem witness_SerialBuildComputesSatRef :
    buildFaultOf .serial lab = none ∧ pixelsAre labPx lab ∧ plainWhere (inSatGrid lab) lab ∧ onlyEngineTurns lab ∧
      cpAligned lab :=
  ⟨by decide, lab_pixels, lab_grid_plain, lab_engine_only, by decide⟩

theorem witness_WavefrontBuildComputesSatRef :
    buildFaultOf .wavefront lab = none ∧ pixelsAre labPx lab ∧ plainWhere (inSatGrid lab) lab ∧ onlyEngineTurns lab ∧
      cpAligned lab :=
  ⟨by decide, lab_pixels, lab_grid_plain, lab_engine_only, by decide⟩

theorem witness_BarrierBuildComputesSatRef :
    buildFaultOf .barrier lab = none ∧ pixelsAre labPx lab ∧ plainWhere (inSatGrid lab) lab ∧ onlyEngineTurns lab ∧
      cpAligned lab :=
  ⟨by decide, lab_pixels, lab_grid_plain, lab_engine_only, by decide⟩

theorem witness_OverflowFlagIsStrategyIndependent :
    (∀ k, buildFaultOf k lab = none) ∧ pixelsAre labPx lab ∧ plainWhere (inSatGrid lab) lab ∧ onlyEngineTurns lab :=
  ⟨by intro k; cases k <;> decide, lab_pixels, lab_grid_plain, lab_engine_only⟩

/-- A state inside a build over a 5 by 5 grid, with nothing in memory unless said. -/
def bare (c : CmdState) (m : Memory := []) : State :=
  { State.reset with
    mem := m
    p := { src := 0x200#32, sat := 0x300#32, dst := 0x800#32, rows := 5#32, cols := 5#32, ksize := 1#32,
           nwork := 2#32, batch := 1#32, qrow := 0#32, qcol := 0#32 }
    engine := .busy (.exec c) }

/-- The producer at row 3, the consumer draining row 1. -/
def midWave : Wave :=
  { safeRow := 1, pr := 3, pc := 1, pdone := false, cur := 1, cc := 1, limit := 1, mode := .draining }

/-- The producer at the end of row 2, the consumer held at row 1. -/
def publishingWave : Wave :=
  { safeRow := 0, pr := 2, pc := 5, pdone := false, cur := 1, cc := 1, limit := 0, mode := .waiting }

theorem inv_bare {c : CmdState} {m : Memory} (hm : m.wf) (h : cmdOk c (bare c m)) : Inv (bare c m) := by
  refine ⟨hm, rfl, ?_, ?_, h⟩
  · rw [recordOk, if_neg (by simp [bare])]
    rfl
  · intro hv
    simp [bare, State.reset] at hv

theorem inv_sentinels : Inv (bare (.sentinels .serial 0)) := inv_bare reset_mem_wf (by
  show _ ∧ _ ∧ _
  decide)

theorem inv_midWave : Inv (bare (.wave midWave)) := inv_bare reset_mem_wf (by
  show _ ∧ _ ∧ _
  decide)

theorem inv_publishingWave : Inv (bare (.wave publishingWave)) := inv_bare reset_mem_wf (by
  show _ ∧ _ ∧ _
  decide)

theorem witness_EveryCommandEnds :
    Inv (bare (.sentinels .serial 0)) ∧ inCommand (bare (.sentinels .serial 0)) ∧
      onlyEngineTurns (bare (.sentinels .serial 0)) :=
  ⟨inv_sentinels, ⟨_, rfl⟩, by intro t h; simp [bare, State.reset] at h⟩

/-- The Pixel and the cells that the next steps of the producer and of the consumer of `midWave` read. -/
def workingMem : Memory :=
  (((Memory.writeLE [] 0x240 4 0xFF040302).writeLE 0x350 16 0).writeLE 0x360 16 5).writeLE 0x3B0 16 7

theorem workingMem_wf : Memory.wf workingMem := by
  have key : ∀ {m : Memory}, m.wf → ∀ a n v, a + n ≤ 0x1000 → Memory.wf (m.writeLE a n v) := fun h a n v hb =>
    writeLE_wf h v fun i hi => by simp only [Config.addrSpace]; omega
  exact key (key (key (key reset_mem_wf _ _ _ (by decide)) _ _ _ (by decide)) _ _ _ (by decide)) _ _ _ (by decide)

/-- `midWave` with something to read. -/
def working : State := bare (.wave midWave) workingMem

theorem inv_working : Inv working := inv_bare workingMem_wf (by
  show _ ∧ _ ∧ _
  decide)

/-- Both agents have a cell to compute, and each step is taken; row 1 is certified. -/
theorem witness_WavefrontRowsApart :
    Inv working ∧ working.engine = .busy (.exec (.wave midWave)) ∧
      Agent.producer ∈ enabledAgents (.wave midWave) working ∧
      Agent.consumer ∈ enabledAgents (.wave midWave) working ∧
      (∃ t, agentStep .producer (.wave midWave) working = .next t ∧
        t.engine = .busy (.exec (.wave { midWave with pc := 2 }))) ∧
      (∃ t, agentStep .consumer (.wave midWave) working = .next t ∧
        t.engine = .busy (.exec (.wave { midWave with cc := 2 }))) ∧
      (0x360, 16) ∈ agentAccesses .consumer (.wave midWave) working ∧ inBytes 0x360 16 0x36F ∧
      (0x240, 4) ∈ agentAccesses .producer (.wave midWave) working ∧ inBytes 0x240 4 0x240 ∧
      midWave.cur ≤ 1 ∧ 1 ≤ midWave.safeRow ∧ 4 < wp working ∧ inBytes (satAddr working 1 4) 16 0x39F :=
  ⟨inv_working, rfl, by decide, by decide, after_engine (by decide), after_engine (by decide), by decide,
    ⟨by decide, by decide⟩, by decide, ⟨by decide, by decide⟩, by decide, by decide, by decide, ⟨by decide, by decide⟩⟩

theorem witness_SafeRowOnlyGrows :
    Inv (bare (.wave publishingWave)) ∧ (bare (.wave publishingWave)).engine = .busy (.exec (.wave publishingWave)) ∧
      ∃ t, step (bare (.wave publishingWave)) = .next t ∧
        t.engine = .busy (.exec (.wave { publishingWave with safeRow := 1, pr := 3, pc := 1 })) :=
  ⟨inv_publishingWave, rfl, after_engine (by decide)⟩

/-- Each row of 41_query.md R151 at a boundary (with `K = 1`, `H = W = 1`). -/
theorem witness_QueryRaisesFirstFault :
    queryFaultOf .sum (labP fun p => { p with cols := 0#32 }) = some (1#8, 0#32) ∧
    queryFaultOf .blur (labP fun p => { p with ksize := 2#32 }) = some (2#8, 2#32) ∧
    queryFaultOf .apply (labP fun p => { p with ksize := 0x80000001#32 }) = some (2#8, 0x80000001#32) ∧
    queryFaultOf .sum { lab with satValid := false } = some (7#8, 0#32) ∧
    queryFaultOf .blur (labP fun p => { p with dst := 0x402#32 }) = some (4#8, 2#32) ∧
    queryFaultOf .apply (labP fun p => { p with ksize := 3#32 }) = some (5#8, 5#32) ∧
    queryFaultOf .sum (labP fun p => { p with qrow := 1#32 }) = some (5#8, 8#32) ∧
    queryFaultOf .blur (labP fun p => { p with qcol := 1#32 }) = some (5#8, 9#32) ∧
    queryFaultOf .apply (labP fun p => { p with dst := 0xFFFFFFFC#32, rows := 4#32 }) = some (5#8, 2#32) ∧
    queryFaultOf .apply (labP fun p => { p with dst := 0xFFFFFFFC#32 }) = none ∧
    queryFaultOf .blur (labP fun p => { p with dst := 0x38C#32 }) = some (6#8, 2#32) ∧
    queryFaultOf .blur (labP fun p => { p with dst := 0x390#32 }) = none := by decide

theorem witness_QsumLeavesWindowSum :
    cpAligned lab ∧ queryFaultOf .sum lab = none ∧ satR lab (0 + 1) (0 + 1) = .ok (sp 1 10 100 255) ∧
      satR lab (0 + 1) 0 = .ok (sp 0 0 0 0) ∧ satR lab 0 (0 + 1) = .ok (sp 0 0 0 0) ∧
      satR lab 0 0 = .ok (sp 0 0 0 0) ∧ lab.p.qrow.toNat = 0 ∧ lab.p.qcol.toNat = 0 ∧ lab.p.ksize.toNat = 1 :=
  ⟨by decide, by decide, got_some (by decide), got_some (by decide), got_some (by decide), got_some (by decide), rfl,
    rfl, rfl⟩

theorem witness_QblurWritesOnePixel :
    cpAligned lab ∧ queryFaultOf .blur lab = none ∧
      winSum lab lab.p.qrow.toNat lab.p.qcol.toNat = .ok (⟨1, 10, 100, 255⟩, false) ∧
      plainBytes (dstAddr lab lab.p.qrow.toNat lab.p.qcol.toNat) 4 lab :=
  ⟨by decide, by decide, got_some (by decide), lab_bytes_plain (by decide)⟩

/-- Each clause: the four faults, a readable cell, a rejected read. -/
theorem witness_RdcellCopiesOneCell :
    cellFaultOf (labP fun p => { p with rows := 0#32 }) = some (1#8, 0#32) ∧
    cellFaultOf { lab with satValid := false } = some (7#8, 0#32) ∧
    cellFaultOf (labP fun p => { p with qrow := 3#32 }) = some (5#8, 8#32) ∧
    cellFaultOf (labP fun p => { p with qcol := 3#32 }) = some (5#8, 9#32) ∧
    (cpAligned lab ∧ cellFaultOf lab = none ∧ satR lab lab.p.qrow.toNat lab.p.qcol.toNat = .ok (sp 0 0 0 0)) ∧
    satR { lab with platform := { lab.platform with memValid := [] } } 0 0 = .error (.bus 0x300) :=
  ⟨by decide, by decide, by decide, by decide, ⟨by decide, by decide, got_some (by decide)⟩, rfl⟩

/-- Each clause: the start, the one Pixel of the image, the end after it. -/
theorem witness_QapplyStartsAndSteps :
    queryFaultOf .apply lab = none ∧
    ((0 : Nat) : Int) < imgH lab ∧ ((0 : Nat) : Int) < imgW lab ∧ winSum lab 0 0 = .ok (⟨1, 10, 100, 255⟩, false) ∧
      plainBytes (dstAddr lab 0 0) 4 lab ∧ cpAligned lab ∧ imgH lab ≤ ((1 : Nat) : Int) :=
  ⟨by decide, by decide, by decide, got_some (by decide), lab_bytes_plain (by decide), by decide, by decide⟩

theorem witness_QapplyBlursWholeImage :
    queryFaultOf .apply lab = none ∧ tableIs tableV19 lab ∧ plainWhere (inImage lab) lab ∧ onlyEngineTurns lab ∧
      cpAligned lab :=
  ⟨by decide, lab_table, lab_image_plain, lab_engine_only, by decide⟩

theorem satRef_v19 : ∀ r < 3, ∀ c < 3, satRef labPx r c = tableV19 r c := by decide

theorem witness_ExactWindowSum :
    tableIs (satRef labPx) lab ∧ 0 + kSize lab < hp lab ∧ 0 + kSize lab < wp lab ∧
      winSum lab 0 0 = .ok (⟨1, 10, 100, 255⟩, false) ∧ gridOverflows labPx (hp lab) (wp lab) = false := by
  refine ⟨fun r c hr hc => ?_, by decide, by decide, got_some (by decide), by decide⟩
  rw [satRef_v19 r (lab_hp ▸ hr) c (lab_wp ▸ hc)]
  exact lab_table r c hr hc

/-- A one-Pixel image, and the machine over the table of its padded grid. -/
def onePixel : Nat → Nat → Quad Byte := fun _ _ => ⟨1#8, 10#8, 100#8, 255#8⟩

/-- `lab` with the table of the padded one-Pixel image. -/
def padded : State := { lab with mem := gridWith (satRef (padRef onePixel 1 1 1)) }

theorem witness_QsumEqualsNaiveSum :
    cpAligned padded ∧ queryFaultOf .sum padded = none ∧ padded.p.ksize.toNat = 2 * 0 + 1 ∧ imgH padded = (1 : Nat) ∧
      imgW padded = (1 : Nat) ∧ tableIs (satRef (padRef onePixel 1 1 (0 + 1))) padded ∧
      ∃ t, exec .qsum padded = .next t ∧ t.qInexact = false := by
  refine ⟨by decide, by decide, rfl, by decide, by decide, ?_, ?_⟩
  · intro r c h1 h2
    have h1 : r < 3 := h1
    have h2 : c < 3 := h2
    interval_cases r <;> interval_cases c <;> exact got_some (by decide)
  · cases h : exec .qsum padded with
    | next t =>
      refine ⟨t, rfl, ?_⟩
      have : (after (exec .qsum padded)).map (fun t => t.qInexact) = some false := by decide
      rw [h] at this
      simpa [after] using this
    | fault f =>
      have : (after (exec .qsum padded)).isSome = true := by decide
      rw [h] at this
      cases this
    | refused r =>
      have : (after (exec .qsum padded)).isSome = true := by decide
      rw [h] at this
      cases this

theorem witness_OneStepQueriesFrame :
    (∃ t, exec .qsum lab = .next t) ∧ (∃ t, exec .qblur lab = .next t) ∧ ∃ t, exec .rdcell lab = .next t :=
  ⟨after_isSome (by decide), after_isSome (by decide), after_isSome (by decide)⟩

/-- The last of the four bytes is not backed. -/
theorem witness_RejectedFetchRaisesBusError :
    engineMoves { lab with platform := { lab.platform with memValid := [(0, 0x103)] } }
        { lab with platform := { lab.platform with memValid := [(0, 0x103)] } } ∧
      lab.engine = .busy .fetch ∧ contractBroken [fetchSpan lab] lab = false ∧ 3 < 4 ∧
      Platform.backs { lab.platform with memValid := [(0, 0x103)] } (lab.cp.toNat + 3) = false :=
  ⟨.inl ⟨rfl, rfl⟩, rfl, by decide, by decide, by decide⟩

/-- Not inside a command, inside a build, inside a `QAPPLY`. -/
theorem witness_ResetSetsEveryRegister :
    ¬ inCommand lab ∧ (∃ c, (inside (.serial 2 2)).engine = .busy (.exec c) ∧ isBuild c) ∧
      ∃ c, { lab with engine := .busy (.exec (.traverse 0 0 false [])) }.engine = .busy (.exec c) ∧ ¬ isBuild c := by
  refine ⟨fun h => ?_, ⟨_, rfl, trivial⟩, ⟨_, rfl, id⟩⟩
  obtain ⟨c, hc⟩ := h
  simp [lab] at hc

theorem witness_ClrAcknowledges :
    { lab with engine := .done }.engine = .done ∧
    ({ lab with engine := .faulted }.engine = .faulted ∧ { lab with engine := .faulted }.fault.fatal = false) ∧
    isBusy lab = true ∧ { lab with engine := .idle }.engine = .idle ∧
    { lab with engine := .faulted, fault := ⟨9#8, true, 0#32, 0#32⟩ }.fault.fatal = true := by decide

/-- SRST or not; an answer of bytes, of which one is pending, of a word, and none. -/
theorem witness_CtrlWriteOrder :
    (4#32 : Word).getLsbD 2 = true ∧ (3#32 : Word).getLsbD 2 = false ∧
      { lab with portOut := some (.bytes [.pending 0x200 9#8 0#8, .settled 1#8]) }.portOut =
        some (.bytes [.pending 0x200 9#8 0#8, .settled 1#8]) ∧
      { lab with portOut := some (.word 5#32) }.portOut = some (.word 5#32) ∧ lab.portOut = none :=
  ⟨by decide, by decide, rfl, rfl, rfl⟩

theorem witness_IrqAndStatusRead :
    isBusy lab = true ∧ isBusy State.reset = false ∧ State.reset.engine = .idle ∧
      { lab with engine := .done }.engine = .done ∧ { lab with engine := .faulted }.engine = .faulted := by decide

theorem witness_RegisterMapReads :
    isBusy State.reset = false ∧ isBusy lab = true ∧ (7#6 : BitVec 6).toNat = 7 ∧ 13 ≤ (13#6 : BitVec 6).toNat ∧
      (15#6 : BitVec 6).toNat ≤ 15 ∧ 26 ≤ (26#6 : BitVec 6).toNat ∧ 26 ≤ (63#6 : BitVec 6).toNat := by decide

theorem witness_HostWritesWhenNotBusy : isBusy { lab with engine := .idle } = false := by decide

theorem witness_IgnoredRegisterWrites :
    (16#6 : BitVec 6) ≠ 1#6 ∧ isBusy lab = true ∧ (15#6 : BitVec 6) ≠ 3#6 ∧ (15#6 : BitVec 6).toNat < 16 ∧
      (26#6 : BitVec 6) ≠ 3#6 ∧ 25 < (26#6 : BitVec 6).toNat := by decide

/-- A write at the top of the space; while not BUSY and while BUSY a read of written bytes, and a footprint fetched later
that writes the last of them and one that writes none; while BUSY a write beside the footprint and one into its last
byte. -/
theorem witness_HostMemoryAccess :
    isBusy { lab with engine := .idle } = false ∧ isBusy wide = true ∧
      plainBytes (0xFFFFFFFE#32 : Word).toNat 2 { lab with engine := .idle } ∧
      plainBytes (0x20C#32 : Word).toNat 4 (noteFootprint (footprint .buildS lab) lab) ∧
      (∀ i, i < 4 → lab.mem.byteAt ((0x20C#32 : Word).toNat + i) = [9#8, 9#8, 9#8, 9#8][i]?) ∧
      (∀ i, i < 4 → ∀ x ∈ (noteFootprint (footprint .buildS lab) lab).runFoot.writes,
        inSpan ((0x20C#32 : Word).toNat + i) x = false) ∧
      (∀ i, i < 4 → ∀ x ∈ (noteFootprint (footprint .buildS lab) lab).runFoot.spans,
        inSpan ((0x20C#32 : Word).toNat + i) x = false) ∧
      inSpan ((0x20C#32 : Word).toNat + 3) (.block 0x20F 1) = true ∧
      inSpan ((0x20C#32 : Word).toNat + 3) (.block 0x210 1) = false ∧
      ∃ i, i < 2 ∧ ∃ x ∈ (noteFootprint (footprint .buildS lab) lab).runFoot.spans,
        inSpan ((0x38E#32 : Word).toNat + i) x = true := by
  refine ⟨by decide, by decide, lab_bytes_plain (by decide), ?_, ?_, ?_, ?_, by decide, by decide, 1, by decide,
    satSpan lab, by decide, by decide⟩
  · exact lab_bytes_plain (a := 0x20C) (by decide)
  all_goals
    intro i h
    interval_cases i <;> decide

/-- Each clause: a host's turn, a quiescent engine, a command in which two agents have a step. -/
theorem witness_TurnsOfHostAndEngine :
    { lab with env := [.host .resetInput] }.env = .host .resetInput :: [] ∧
    (engineMoves State.reset State.reset ∧ isBusy State.reset = false) ∧
    (engineMoves working working ∧ working.engine = .busy (.exec (.wave midWave)) ∧
      enabledAgents (.wave midWave) working = [.producer, .consumer]) :=
  ⟨rfl, ⟨.inl ⟨rfl, rfl⟩, by decide⟩, .inl ⟨rfl, rfl⟩, rfl, by decide⟩

theorem witness_StepKeepsInvariant :
    Inv (bare (.sentinels .serial 0)) ∧ ∃ t, step (bare (.sentinels .serial 0)) = .next t :=
  ⟨inv_sentinels, after_isSome (by decide)⟩

theorem witness_NoDeadlock : Inv (bare (.wave midWave)) := inv_midWave

/-- An engine's turn (a `HALT`), and a host's turn (`GO`). -/
theorem witness_StateTransitions :
    (∃ t, step (fetching 0x02000000) = .next t ∧ t.engine = .done) ∧
      ∃ t, step { State.reset with env := [.host (.regWrite 1#6 1#32)] } = .next t ∧ t.engine = .busy .fetch :=
  ⟨after_engine (by decide), after_engine (by decide)⟩

theorem witness_ParameterWriters :
    engineMoves (fetching 0x08300008) (fetching 0x08300008) ∧
      ∃ t, step (fetching 0x08300008) = .next t ∧ t.p ≠ (fetching 0x08300008).p := by
  refine ⟨.inl ⟨rfl, rfl⟩, ?_⟩
  obtain ⟨t, h⟩ := after_isSome (o := step (fetching 0x08300008)) (by decide)
  refine ⟨t, h, fun he => ?_⟩
  have h8 : (after (step (fetching 0x08300008))).map (fun t => t.p.rows) = some 8#32 := by decide
  rw [h] at h8
  simp only [after, Option.map_some, he] at h8
  exact absurd h8 (by decide)

theorem witness_SatValidSetByCompletionAlone :
    (inside (.serial 3 1)).satValid = false ∧ ∃ t, step (inside (.serial 3 1)) = .next t ∧ t.satValid = true := by
  refine ⟨rfl, ?_⟩
  obtain ⟨t, h⟩ := after_isSome (o := step (inside (.serial 3 1))) (by decide)
  refine ⟨t, h, ?_⟩
  have hv : (after (step (inside (.serial 3 1)))).map (fun t => t.satValid) = some true := by decide
  rw [h] at hv
  simpa [after] using hv

theorem witness_EngineWritesOnlyItsGrids :
    Inv (bare (.sentinels .serial 0)) ∧
      engineMoves (bare (.sentinels .serial 0)) (bare (.sentinels .serial 0)) ∧
      ∃ t, step (bare (.sentinels .serial 0)) = .next t :=
  ⟨inv_sentinels, .inl ⟨rfl, rfl⟩, after_isSome (by decide)⟩

end Sys2Proof.Tests
end

section
/-! PROOFS. What one step can do, said once: the outcomes of each command, of an agent's step, of the engine's turn. The
invariants and frames after it are case splits on these. -/

namespace Sys2Proof.Machine

/-! ## The outcomes of a command -/

/-- A query that was stopped either raised BusError over the cut state or had no meaning (60_exceptions.md R211). -/
theorem queryStop_next {e : Stop} {u t : State} (h : queryStop e u = .next t) :
    ∃ info, t = raiseFault .busError info u := by
  cases e with
  | bus a => exact ⟨_, by simpa [queryStop] using h.symm⟩
  | refuse why => simp [queryStop] at h

/-- Everything `exec` can do when it answers `next`: a fault, the command's own effect, or for `QBLUR` a BusError over
free results. -/
inductive ExecMove (s : State) : Instr → State → Prop
  | raised (i : Instr) (code : FaultCode) (info : Word) : ExecMove s i (raiseFault code info s)
  | nop : ExecMove s .nop (complete s)
  | halt : ExecMove s .halt { setCp (s.cp + 4#32) s with engine := .done }
  | jmp (off : BitVec 24) : ExecMove s (.jmp off) { setCp (jmpTarget s.cp off) s with engine := .busy .fetch }
  | setl (pd : BitVec 4) (imm : BitVec 16) (r : PReg) (hr : pregOf pd = some r) :
      ExecMove s (.setl pd imm) (complete (setParam r (imm.zeroExtend 32) s))
  | seth (pd : BitVec 4) (imm : BitVec 16) (r : PReg) (hr : pregOf pd = some r) :
      ExecMove s (.seth pd imm) (complete (setParam r (imm ++ (s.p.get r).extractLsb' 0 16) s))
  | build (i : Instr) (k : Strategy) (hi : i = buildCommand k) (hc : firstFault (buildChecks k s) = none) :
      ExecMove s i (setCmd (.sentinels k 0) { s with satValid := false, satOvf := false })
  | summed (q : Quad Word) (inexact : Bool) : ExecMove s .qsum (complete { s with qs := q, qInexact := inexact })
  | blurred (u : State) (pix : Word) (q : Quad Word) (inexact : Bool)
      (hw : dstW s s.p.qrow.toNat s.p.qcol.toNat pix = .ok u) :
      ExecMove s .qblur (complete { u with qs := q, qInexact := inexact, qpix := pix })
  | blurCut (info : Word) : ExecMove s .qblur (raiseFault .busError info (cutResults s))
  | applied (hc : firstFault (queryChecks .apply s) = none) :
      ExecMove s .qapply (setCmd (.traverse 0 0 false s.mem) s)
  | copied (q : Quad Word) : ExecMove s .rdcell (complete { s with qs := q })

theorem writeParam_next {pd : BitVec 4} {word : Word} {f : Word → Word} {s t : State}
    (h : writeParam pd word f s = .next t) :
    t = raiseFault .illegalCommand word s ∨
      ∃ r, pregOf pd = some r ∧ t = complete (setParam r (f (s.p.get r)) s) := by
  unfold writeParam at h
  split at h
  · exact .inl (by simpa using h.symm)
  · rename_i r hr
    exact .inr ⟨r, hr, by simpa using h.symm⟩

theorem startBuild_move {k : Strategy} {s t : State} (h : startBuild k s = .next t) :
    ExecMove s (buildCommand k) t := by
  rcases startBuild_cases k s with ⟨c, i, -, e⟩ | ⟨hc, e⟩ <;> rw [e, Host.Outcome.next.injEq] at h <;> subst h
  · exact .raised _ c i
  · exact .build _ k rfl hc

theorem execQsum_move {s t : State} (h : execQsum s = .next t) : ExecMove s .qsum t := by
  unfold execQsum at h
  split at h
  · cases h; exact .raised _ _ _
  · split at h
    · obtain ⟨info, rfl⟩ := queryStop_next h; exact .raised _ _ _
    · cases h; exact .summed _ _

theorem execQblur_move {s t : State} (h : execQblur s = .next t) : ExecMove s .qblur t := by
  unfold execQblur at h
  split at h
  · cases h; exact .raised _ _ _
  · split at h
    · obtain ⟨info, rfl⟩ := queryStop_next h; exact .blurCut _
    · split at h
      · obtain ⟨info, rfl⟩ := queryStop_next h; exact .blurCut _
      · rename_i hw
        cases h; exact .blurred _ _ _ _ hw

theorem execQapply_move {s t : State} (h : execQapply s = .next t) : ExecMove s .qapply t := by
  unfold execQapply at h
  split at h
  · cases h; exact .raised _ _ _
  · rename_i hc
    cases h; exact .applied hc

theorem execRdcell_move {s t : State} (h : execRdcell s = .next t) : ExecMove s .rdcell t := by
  unfold execRdcell at h
  split at h
  · cases h; exact .raised _ _ _
  · split at h
    · obtain ⟨info, rfl⟩ := queryStop_next h; exact .raised _ _ _
    · cases h; exact .copied _

theorem exec_move {i : Instr} {s t : State} (h : exec i s = .next t) : ExecMove s i t := by
  cases i with
  | nop => cases h; exact .nop
  | halt => cases h; exact .halt
  | jmp off => cases h; exact .jmp off
  | setl pd imm =>
    simp only [exec, execSetl] at h
    rcases writeParam_next h with rfl | ⟨r, hr, rfl⟩
    · exact .raised _ _ _
    · exact .setl pd imm r hr
  | seth pd imm =>
    simp only [exec, execSeth] at h
    rcases writeParam_next h with rfl | ⟨r, hr, rfl⟩
    · exact .raised _ _ _
    · exact .seth pd imm r hr
  | buildS => exact startBuild_move (k := .serial) h
  | buildW => exact startBuild_move (k := .wavefront) h
  | buildB => exact startBuild_move (k := .barrier) h
  | qsum => exact execQsum_move h
  | qblur => exact execQblur_move h
  | qapply => exact execQapply_move h
  | rdcell => exact execRdcell_move h

/-! ## The outcomes of an agent's step -/

/-- What the accesses of a step of a build leave: another memory, in canonical form if it was, and another `SATOVF`. -/
def CellDone (s u : State) : Prop :=
  (Memory.wf s.mem → Memory.wf u.mem) ∧ u = { s with mem := u.mem, satOvf := u.satOvf }

theorem CellDone.refl (s : State) : CellDone s s := ⟨id, rfl⟩

theorem cellDone_of_satW {s u : State} {r c : Nat} {q : Quad Word} (h : satW s r c q = .ok u) : CellDone s u :=
  ⟨memWrite_wf h, by rw [(satW_ok_iff.mp h).2]⟩

theorem cellDone_of_cellUpdate {s u : State} {r c : Nat} {x : Quad Int} (h : cellUpdate s r c x = .ok u) :
    CellDone s u :=
  ⟨cellUpdate_wf h, by rw [(cellUpdate_ok_iff.mp h).2]⟩

theorem cellDone_of_colCell {s u : State} {r c : Nat} (h : colCell s r c = .ok u) : CellDone s u := by
  obtain ⟨_, _, -, -, hu⟩ := colCell_ok_iff.mp h
  exact cellDone_of_cellUpdate hu

theorem cellDone_of_rowCell {s u : State} {r c : Nat} (h : rowCell s r c = .ok u) : CellDone s u := by
  obtain ⟨_, _, -, -, hu⟩ := rowCell_ok_iff.mp h
  exact cellDone_of_cellUpdate hu

theorem cellDone_of_serialCell {s u : State} {r c : Nat} (h : serialCell s r c = .ok u) : CellDone s u := by
  obtain ⟨_, _, _, _, -, -, -, -, hu⟩ := serialCell_ok_iff.mp h
  exact cellDone_of_cellUpdate hu

/-- Everything an agent of a build can do in state `s`: move its command on to a substate that `next` allows, cut the
command by a BusError, or complete it. -/
inductive BuildMove (next : CmdState → Prop) (s : State) : State → Prop
  | moved (c : CmdState) (u : State) (hc : next c) (hu : CellDone s u) : BuildMove next s (setCmd c u)
  | cut (info : Word) : BuildMove next s (raiseFault .busError info (cutBuild s))
  | completed : BuildMove next s (completeBuild s)

theorem buildStep_move {next : CmdState → Prop} {res : Except Stop State} {s t : State} {c : CmdState}
    (h : buildStep res s (setCmd c) = .next t) (hres : ∀ u, res = .ok u → CellDone s u) (hc : next c) :
    BuildMove next s t := by
  rcases buildStep_next h with ⟨u, hu, rfl⟩ | ⟨a, -, rfl⟩
  · exact .moved c u hc (hres u hu)
  · exact .cut _

/-- The substates that a step of the build in substate `c` may lead to: those of a build, inside their ranges
(10_state.md R45 to R48) if `c` was. -/
def Follows (c : CmdState) (s : State) (c' : CmdState) : Prop := isBuild c' ∧ (cmdOk c s → cmdOk c' s)

/-! ### Where the strategies start -/

/-- The barrier's state at the start of a pass, with the workers of that pass not arrived. -/
theorem barrierOk_start {s : State} {pass : Pass} {f : Nat → Worker} (hf : ∀ i, (f i).arrived = false)
    (hok : ∀ i, i < s.p.nwork.toNat → workerOk pass i (f i) s) :
    barrierOk { pass := pass, arrivedCount := 0, workers := (List.range s.p.nwork.toNat).map f } s := by
  refine ⟨by simp, by simp [List.countP_map, Function.comp_def, hf], fun i hi => ?_⟩
  simp only [List.getElem_map, List.getElem_range]
  exact hok i (by simpa using hi)

theorem barrierOk_pass1 {s : State} (hh : 1 ≤ hp s) : barrierOk (pass1 s) s :=
  barrierOk_start (fun _ => rfl) fun i _ =>
    ⟨rfl, rfl, Nat.le_refl 1, hh, Nat.le_refl _, spanLo_le_spanHi _ _ i⟩

theorem barrierOk_pass2 {s : State} (hw : 1 ≤ wp s) : barrierOk (pass2 s) s :=
  barrierOk_start (fun _ => rfl) fun i _ =>
    ⟨rfl, rfl, Nat.le_refl _, spanLo_le_spanHi _ _ i, Nat.le_refl 1, hw⟩

theorem waveOk_start {s : State} (hh : 1 ≤ hp s) (hw : 1 ≤ wp s) : waveOk waveStart s := by
  simp [waveOk, waveStart, hh, hw]

theorem isBuild_strategyStart (k : Strategy) (s : State) : isBuild (strategyStart k s) := by cases k <;> trivial

/-- The agents of a strategy start inside their ranges (40_build.md R117, R119, R122). -/
theorem cmdOk_strategyStart {k : Strategy} {s : State} (hc : firstFault (buildChecks k s) = none)
    (hv : s.satValid = false) : cmdOk (strategyStart k s) s := by
  obtain ⟨hh, hw, -⟩ := buildChecks_none hc
  cases k with
  | serial => exact ⟨hc, hv, Nat.le_refl 1, hh, Nat.le_refl 1, hw⟩
  | wavefront => exact ⟨hc, hv, waveOk_start hh hw⟩
  | barrier => exact ⟨hc, hv, barrierOk_pass1 hh⟩

/-! ### Sentinels and serial -/

theorem sentinelStep_move {k : Strategy} {z : Nat} {s t : State} (h : sentinelStep k z s = .next t) :
    BuildMove (Follows (.sentinels k z) s) s t := by
  refine buildStep_move h (fun _ => cellDone_of_satW) ?_
  split
  · rename_i hz
    exact ⟨trivial, fun ⟨hc, hv, _⟩ => ⟨hc, hv, hz⟩⟩
  · exact ⟨isBuild_strategyStart k s, fun ⟨hc, hv, _⟩ => cmdOk_strategyStart hc hv⟩

theorem serialStep_move {r c : Nat} {s t : State} (h : serialStep r c s = .next t) :
    BuildMove (Follows (.serial r c) s) s t := by
  unfold serialStep at h
  split at h
  · rename_i hin
    obtain ⟨hr, hcw⟩ := hin
    refine buildStep_move h (fun _ => cellDone_of_serialCell) ?_
    split
    · rename_i hlt
      exact ⟨trivial, fun ⟨hc, hv, h1, h2, h3, _⟩ => ⟨hc, hv, h1, h2, by omega, by omega⟩⟩
    · exact ⟨trivial, fun ⟨hc, hv, h1, _, h3, _⟩ => ⟨hc, hv, by omega, by omega, by omega, by omega⟩⟩
  · cases h; exact .completed

/-! ### Wavefront -/

/-- A step of the wavefront leads on to `w'` if `w'` keeps the facts of 40_build.md R121 in a grid that passed the
checks. -/
theorem follows_wave {w w' : Wave} {s : State} (h : 1 ≤ hp s → 1 ≤ wp s → waveOk w s → waveOk w' s) :
    Follows (.wave w) s (.wave w') :=
  ⟨trivial, fun ⟨hc, hv, hw⟩ =>
    have ⟨hh, hww, _⟩ := buildChecks_none hc
    ⟨hc, hv, h hh hww hw⟩⟩

theorem waveOk_producerCell {w : Wave} {s : State} (hlt : w.pc < wp s) (h : waveOk w s) :
    waveOk { w with pc := w.pc + 1 } s := by
  obtain ⟨hpr, hpc, hrest⟩ := h
  exact ⟨hpr, ⟨by simp, hlt⟩, hrest⟩

/-- Publication keeps (I1) and (I2): the counter rises to the row before the one just ended (40_build.md R119, R121). -/
theorem waveOk_producerRowEnd {w : Wave} {s : State} (batch : Nat) (hw : 1 ≤ wp s) (hd : w.pdone = false)
    (hlt : w.pr < hp s) (h : waveOk w s) : waveOk (producerRowEnd batch w) s := by
  obtain ⟨hpr, -, hcur, hcc, hI1, -, hdr, hwt⟩ := h
  have hI1 := hI1 hd
  have hge : w.safeRow ≤ (if w.pr % batch = 0 then w.pr - 1 else w.safeRow) := by split <;> omega
  have hle : (if w.pr % batch = 0 then w.pr - 1 else w.safeRow) ≤ w.pr - 1 := by split <;> omega
  refine ⟨⟨by simp [producerRowEnd], hlt⟩, ⟨Nat.le_refl 1, hw⟩, hcur, hcc, fun _ => ?_, fun hf => ?_, fun hm => ?_,
    fun hm => ?_⟩
  · simpa [producerRowEnd] using hle
  · simp [producerRowEnd, hd] at hf
  · exact ⟨(hdr hm).1, Nat.le_trans (hdr hm).2 hge⟩
  · exact Nat.le_trans (hwt hm) (Nat.add_le_add_right hge 1)

theorem waveOk_producerFinal {w : Wave} {s : State} (hd : w.pdone = false) (hge : hp s ≤ w.pr) (h : waveOk w s) :
    waveOk { w with safeRow := hp s - 1, pdone := true } s := by
  obtain ⟨hpr, hpc, hcur, hcc, hI1, -, hdr, hwt⟩ := h
  have hI1 := hI1 hd
  refine ⟨hpr, hpc, hcur, hcc, by simp, fun _ => ⟨rfl, by simp; omega⟩, fun hm => ?_, fun hm => ?_⟩
  · have := hdr hm
    simp only
    omega
  · have := hwt hm
    simp only
    omega

theorem waveOk_consumerWake {w : Wave} {s : State} (hw : 1 ≤ wp s) (hle : w.cur ≤ w.safeRow) (h : waveOk w s) :
    waveOk { w with limit := w.safeRow, mode := .draining, cc := 1 } s := by
  obtain ⟨hpr, hpc, hcur, -, hI1, hfin, -, -⟩ := h
  exact ⟨hpr, hpc, hcur, ⟨Nat.le_refl 1, hw⟩, hI1, hfin, fun _ => ⟨hle, Nat.le_refl _⟩, fun hm => by simp at hm⟩

theorem waveOk_consumerCell {w : Wave} {s : State} (hlt : w.cc < wp s) (h : waveOk w s) :
    waveOk { w with cc := w.cc + 1 } s := by
  obtain ⟨hpr, hpc, hcur, -, hrest⟩ := h
  exact ⟨hpr, hpc, hcur, ⟨by simp, hlt⟩, hrest⟩

theorem safeRow_lt_hp {w : Wave} {s : State} (hh : 1 ≤ hp s) (h : waveOk w s) : w.safeRow ≤ hp s - 1 := by
  obtain ⟨hpr, -, -, -, hI1, hfin, -, -⟩ := h
  cases hd : w.pdone
  · have := hI1 hd; omega
  · have := hfin hd; omega

theorem waveOk_consumerRowEnd {w : Wave} {s : State} (hh : 1 ≤ hp s) (hw : 1 ≤ wp s) (hm : w.mode = .draining)
    (h : waveOk w s) : waveOk (consumerRowEnd w) s := by
  have hsafe := safeRow_lt_hp hh h
  obtain ⟨hpr, hpc, hcur, -, hI1, hfin, hdr, -⟩ := h
  obtain ⟨hl, hls⟩ := hdr hm
  refine ⟨hpr, hpc, ⟨by simp [consumerRowEnd], ?_⟩, ⟨Nat.le_refl 1, hw⟩, hI1, hfin, fun hm' => ?_, fun _ => ?_⟩
  · simp only [consumerRowEnd]; omega
  · simp only [consumerRowEnd, ite_eq_left_iff, reduceCtorEq, imp_false, Decidable.not_not] at hm' ⊢
    exact ⟨hm', hls⟩
  · simp only [consumerRowEnd]; omega

theorem producerStep_move {w : Wave} {s t : State} (h : producerStep w s = .next t) :
    BuildMove (Follows (.wave w) s) s t := by
  unfold producerStep at h
  split at h
  · cases h
  · rename_i hd
    rw [Bool.not_eq_true] at hd
    split at h
    · rename_i hpr
      split at h
      · rename_i hpc
        exact buildStep_move h (fun _ => cellDone_of_colCell) (follows_wave fun _ _ => waveOk_producerCell hpc)
      · cases h
        exact .moved _ s (follows_wave fun _ hw => waveOk_producerRowEnd _ hw hd hpr) (.refl s)
    · rename_i hpr
      cases h
      exact .moved _ s (follows_wave fun _ _ => waveOk_producerFinal hd (Nat.le_of_not_lt hpr)) (.refl s)

theorem consumerStep_move {w : Wave} {s t : State} (h : consumerStep w s = .next t) :
    BuildMove (Follows (.wave w) s) s t := by
  unfold consumerStep at h
  split at h
  · split at h
    · rename_i hen
      cases h
      exact .moved _ s (follows_wave fun _ hw => waveOk_consumerWake hw hen.2) (.refl s)
    · cases h
  · rename_i hm
    split at h
    · rename_i hcc
      exact buildStep_move h (fun _ => cellDone_of_rowCell) (follows_wave fun _ _ => waveOk_consumerCell hcc)
    · cases h
      exact .moved _ s (follows_wave fun hh hw => waveOk_consumerRowEnd hh hw hm) (.refl s)

/-! ### Two-Pass-Barrier -/

theorem follows_barrier {b b' : Barrier} {s : State} (h : 1 ≤ wp s → barrierOk b s → barrierOk b' s) :
    Follows (.barrier b) s (.barrier b') :=
  ⟨trivial, fun ⟨hc, hv, hb⟩ =>
    have ⟨_, hw, _⟩ := buildChecks_none hc
    ⟨hc, hv, h hw hb⟩⟩

/-- Changing one worker keeps the barrier's facts if the new worker is in its range and the count follows its
arrival. -/
theorem barrierOk_set {b : Barrier} {s : State} {i n : Nat} {k k' : Worker} (hk : b.workers[i]? = some k)
    (hka : k.arrived = false) (hn : n = b.arrivedCount + k'.arrived.toNat)
    (hok : workerOk b.pass i k s → workerOk b.pass i k' s) (h : barrierOk b s) :
    barrierOk { b with arrivedCount := n, workers := b.workers.set i k' } s := by
  obtain ⟨hlen, hcount, hall⟩ := h
  obtain ⟨hi, hki⟩ := List.getElem?_eq_some_iff.mp hk
  refine ⟨by simpa using hlen, ?_, fun j hj => ?_⟩
  · rw [hn, List.countP_set hi, hki, hka, hcount]
    cases k'.arrived <;> simp
  · rw [List.length_set] at hj
    simp only [List.getElem_set]
    split
    · rename_i e
      subst e
      exact hok (hki ▸ hall _ hj)
    · exact hall j hj

theorem barrierOk_setWorker {b : Barrier} {s : State} {i : Nat} {k k' : Worker} (hk : b.workers[i]? = some k)
    (hka : k.arrived = false) (hk' : k'.arrived = false)
    (hok : workerOk b.pass i k s → workerOk b.pass i k' s) (h : barrierOk b s) : barrierOk (setWorker b i k') s :=
  barrierOk_set hk hka (by simp [hk']) hok h

theorem barrierOk_arrive {b : Barrier} {s : State} {i : Nat} {k : Worker} (hk : b.workers[i]? = some k)
    (hka : k.arrived = false) (h : barrierOk b s) : barrierOk (arrive b i k) s :=
  barrierOk_set (k' := { k with arrived := true }) hk hka rfl id h

theorem nextInPass1_arrived (k : Worker) : (nextInPass1 k).arrived = k.arrived := by
  unfold nextInPass1; split <;> rfl

theorem nextInPass2_arrived (w : Nat) (k : Worker) : (nextInPass2 w k).arrived = k.arrived := by
  unfold nextInPass2; split <;> rfl

theorem workerOk_nextInPass1 {i : Nat} {k : Worker} {s : State} (hr : k.r < hp s)
    (h : workerOk .one i k s) : workerOk .one i (nextInPass1 k) s := by
  obtain ⟨hlo, hhi, h1, h2, h3, h4⟩ := h
  unfold nextInPass1
  split
  · rename_i hlt
    exact ⟨hlo, hhi, h1, h2, Nat.le_succ_of_le h3, Nat.le_of_lt hlt⟩
  · exact ⟨hlo, hhi, Nat.le_succ_of_le h1, hr, Nat.le_refl _, Nat.le_trans h3 h4⟩

theorem workerOk_nextInPass2 {i : Nat} {k : Worker} {s : State} (hr : k.r < k.hi) (hw : 1 ≤ wp s)
    (h : workerOk .two i k s) : workerOk .two i (nextInPass2 (wp s) k) s := by
  obtain ⟨hlo, hhi, h1, h2, h3, h4⟩ := h
  unfold nextInPass2
  split
  · rename_i hlt
    exact ⟨hlo, hhi, h1, h2, Nat.le_succ_of_le h3, Nat.le_of_lt hlt⟩
  · exact ⟨hlo, hhi, Nat.le_succ_of_le h1, hr, Nat.le_refl 1, hw⟩

theorem workerStep_move {i : Nat} {b : Barrier} {s t : State} (h : workerStep i b s = .next t) :
    BuildMove (Follows (.barrier b) s) s t := by
  unfold workerStep at h
  split at h
  · cases h
  · rename_i k hk
    split at h
    · cases h
    · rename_i hka
      rw [Bool.not_eq_true] at hka
      have arrived : BuildMove (Follows (.barrier b) s) s (setCmd (.barrier (arrive b i k)) s) :=
        .moved _ s (follows_barrier fun _ => barrierOk_arrive hk hka) (.refl s)
      split at h
      · rename_i hp1
        split at h
        · rename_i hin
          refine buildStep_move h (fun _ => cellDone_of_colCell) (follows_barrier fun _ => ?_)
          refine barrierOk_setWorker hk hka (by rw [nextInPass1_arrived, hka]) ?_
          rw [hp1]
          exact workerOk_nextInPass1 hin.1
        · cases h; exact arrived
      · rename_i hp2
        split at h
        · rename_i hin
          refine buildStep_move h (fun _ => cellDone_of_rowCell) (follows_barrier fun hw => ?_)
          refine barrierOk_setWorker hk hka (by rw [nextInPass2_arrived, hka]) ?_
          rw [hp2]
          exact workerOk_nextInPass2 hin.1 hw
        · cases h; exact arrived

theorem barrierOpens_move {b : Barrier} {s t : State} (h : barrierOpens b s = .next t) :
    BuildMove (Follows (.barrier b) s) s t := by
  unfold barrierOpens at h
  split at h
  · cases h
    exact .moved _ s (follows_barrier fun hw _ => barrierOk_pass2 hw) (.refl s)
  · cases h; exact .completed

/-! ### The agents together -/

theorem isBuild_or_traverse (c : CmdState) : isBuild c ∨ ∃ ar ac acc old, c = .traverse ar ac acc old := by
  cases c with
  | traverse ar ac acc old => exact .inr ⟨ar, ac, acc, old, rfl⟩
  | sentinels | serial | wave | barrier => exact .inl trivial

/-- Everything a step of an agent of a build can do (40_build.md R130). -/
theorem agentStep_build {a : Agent} {c : CmdState} {s t : State} (hb : isBuild c) (h : agentStep a c s = .next t) :
    BuildMove (Follows c s) s t := by
  cases c with
  | sentinels k z =>
    cases a with
    | sequencer => exact sentinelStep_move h
    | producer | consumer | worker i => cases h
  | serial r k =>
    cases a with
    | sequencer => exact serialStep_move h
    | producer | consumer | worker i => cases h
  | wave w =>
    cases a with
    | producer => exact producerStep_move h
    | consumer => exact consumerStep_move h
    | sequencer =>
      simp only [agentStep] at h
      split at h
      · cases h; exact .completed
      · cases h
    | worker i => cases h
  | barrier b =>
    cases a with
    | worker i => exact workerStep_move h
    | sequencer =>
      simp only [agentStep] at h
      split at h
      · exact barrierOpens_move h
      · cases h
    | producer | consumer => cases h
  | traverse ar ac acc old => exact hb.elim

/-- Everything a step of a `QAPPLY` in flight can do (41_query.md R157). -/
inductive TraverseMove (ar ac : Nat) (old : Memory) (s : State) : State → Prop
  | pixel (ar' ac' : Nat) (acc : Bool) (u : State) (q : Quad Word) (pix : Word) (hw : dstW s ar ac pix = .ok u)
      (hin : (ar : Int) < imgH s ∧ (ac : Int) < imgW s)
      (hn : ar' = ar ∧ ac' = ac + 1 ∧ ((ac + 1 : Nat) : Int) < imgW s ∨ ar' = ar + 1 ∧ ac' = 0) :
      TraverseMove ar ac old s (setCmd (.traverse ar' ac' acc old) { u with qs := q, qpix := pix })
  | cut (info : Word) : TraverseMove ar ac old s (raiseFault .busError info (cutTraverse old s))
  | completed (acc : Bool) : TraverseMove ar ac old s (complete { s with qInexact := acc })

theorem agentStep_traverse {a : Agent} {ar ac : Nat} {acc : Bool} {old : Memory} {s t : State}
    (h : agentStep a (.traverse ar ac acc old) s = .next t) : TraverseMove ar ac old s t := by
  cases a with
  | producer | consumer | worker i => cases h
  | sequencer =>
    simp only [agentStep, traverseStep] at h
    split at h
    · rename_i hin
      split at h
      · obtain ⟨info, rfl⟩ := queryStop_next h; exact .cut _
      · split at h
        · obtain ⟨info, rfl⟩ := queryStop_next h; exact .cut _
        · rename_i hw
          cases h
          split
          · rename_i hlt
            exact .pixel _ _ _ _ _ _ hw hin (.inl ⟨rfl, rfl, hlt⟩)
          · exact .pixel _ _ _ _ _ _ hw hin (.inr ⟨rfl, rfl⟩)
    · cases h; exact .completed _

/-! ## The outcomes of a transaction of the host -/

/-- Everything a write of the register port can do (10_state.md R29, R30, R34, R40). -/
theorem regWrite_cases (idx : BitVec 6) (v : Word) (s : State) :
    (idx = 1#6 ∧ regWrite idx v s = ctrlWrite v s) ∨ regWrite idx v s = s ∨
      (isBusy s = false ∧ regWrite idx v s = setCp v s) ∨
      (isBusy s = false ∧ ∃ r, regWrite idx v s = setParam r v s) := by
  unfold regWrite
  split
  · rename_i h
    exact .inl ⟨BitVec.eq_of_toNat_eq h, rfl⟩
  · cases isBusy s with
    | true => exact .inr (.inl rfl)
    | false => exact .inr (.inr (.inl ⟨rfl, rfl⟩))
  · split
    · cases isBusy s with
      | true => exact .inr (.inl rfl)
      | false => exact .inr (.inr (.inr ⟨rfl, _, rfl⟩))
    · exact .inr (.inl rfl)

/-- Everything a transaction of the host can do when it has a meaning. -/
inductive HostMove (s : State) : HostOp → State → Prop
  | regRead (idx : BitVec 6) : HostMove s (.regRead idx) (answer (.word (regRead idx s)) (isBusy s) s)
  | regWrite (idx : BitVec 6) (v : Word) : HostMove s (.regWrite idx v) (regWrite idx v s)
  | memRead (addr : Word) (n : Nat) :
      HostMove s (.memRead addr n) (answer (.bytes ((List.range n).map (hostByte s addr.toNat))) (isBusy s) s)
  | memWrite (addr : Word) (bs : List Byte) (wrote : List Nat) :
      HostMove s (.memWrite addr bs) { s with mem := s.mem.writeBytes addr.toNat bs, hostWrote := wrote }
  | resetInput : HostMove s .resetInput (softReset s)

theorem hostStep_move {op : HostOp} {s t : State} (h : hostStep op s = .next t) : HostMove s op t := by
  cases op with
  | regRead idx => cases h; exact .regRead idx
  | regWrite idx v => cases h; exact .regWrite idx v
  | resetInput => cases h; exact .resetInput
  | memRead addr n =>
    simp only [hostStep] at h
    split at h
    · cases h; exact .memRead addr n
    · cases h
  | memWrite addr bs =>
    simp only [hostStep] at h
    split at h
    · split at h
      · split at h
        · cases h
        · cases h; exact .memWrite addr bs _
      · cases h; exact .memWrite addr bs s.hostWrote
    · cases h

/-! ## The outcomes of a turn -/

/-- Whose turn it is: a transaction of the host is due, or the engine moves. -/
theorem turn_cases (s : State) : (∃ op rest, s.env = .host op :: rest) ∨ ∃ s', engineMoves s s' := by
  cases h : s.env with
  | nil => exact .inr ⟨s, .inl ⟨h, rfl⟩⟩
  | cons x rest =>
    cases x with
    | host op => exact .inl ⟨op, rest, rfl⟩
    | engine k => exact .inr ⟨_, .inr ⟨k, rest, h, rfl⟩⟩

/-- The engine's turn changes the script alone before it moves. -/
theorem engineMoves_eq {s s' : State} (h : engineMoves s s') : s' = { s with env := s'.env } := by
  rcases h with ⟨-, rfl⟩ | ⟨k, rest, -, rfl⟩ <;> rfl

theorem engineMoves_not_host {s s' : State} (h : engineMoves s s') {op : HostOp} {rest : List Turn} :
    s.env ≠ .host op :: rest := by
  rcases h with ⟨h, -⟩ | ⟨k, r, h, -⟩ <;> simp [h]

/-- Everything the engine's turn can do; `s` is the state without that turn in the script. -/
inductive EngineTurn (s : State) : State → Prop
  | quiescent (he : isBusy s = false) : EngineTurn s s
  | fetchFault (code : FaultCode) (info : Word) (he : s.engine = .busy .fetch) :
      EngineTurn s (raiseFault code info s)
  | command (w : Word) (i : Instr) (t : State) (he : s.engine = .busy .fetch) (hw : fetchWord s = .ok w)
      (hd : decodeWord w = .ok i) (hx : ExecMove (noteFootprint (footprint i s) s) i t) : EngineTurn s t
  | agent (c : CmdState) (a : Agent) (u t : State) (he : s.engine = .busy (.exec c))
      (ha : a ∈ enabledAgents c s) (hu : u = s ∨ u = { s with draws := s.draws + 1 })
      (hx : agentStep a c u = .next t) : EngineTurn s t

theorem enginePlan_quiescent {pick : Option Nat} {s : State} (h : isBusy s = false) :
    enginePlan pick s = .outcome (.next s) := by
  unfold isBusy at h
  unfold enginePlan
  cases he : s.engine with
  | busy p => rw [he] at h; cases h
  | idle | done | faulted => rfl

theorem step_engine {s s' : State} (hm : engineMoves s s') :
    ∃ pick, plan s = enginePlan pick s' := by
  rcases hm with ⟨h, rfl⟩ | ⟨k, rest, h, rfl⟩
  · exact ⟨none, by simp only [plan, h]⟩
  · exact ⟨some k, by simp only [plan, h]⟩

theorem engineTurn_of_step {s s' t : State} (hm : engineMoves s s') (h : step s = .next t) : EngineTurn s' t := by
  obtain ⟨pick, hp⟩ := step_engine hm
  simp only [step, hp] at h
  cases he : s'.engine with
  | idle | done | faulted =>
    have hq : isBusy s' = false := by simp only [isBusy, he]
    rw [enginePlan_quiescent hq] at h
    cases h
    exact .quiescent hq
  | busy phase =>
    cases phase with
    | fetch =>
      simp only [enginePlan, he] at h
      rcases fetchPlan_cases s' with e | ⟨a, -, e⟩ | ⟨why, -, e⟩ | ⟨w, e', -, -, e⟩ | ⟨w, i, hw, hd, e⟩ <;>
        rw [e] at h
      · cases h
      · cases h; exact .fetchFault _ _ he
      · cases h
      · cases h; exact .fetchFault _ _ he
      · exact .command w i t he hw hd (exec_move h)
    | exec c =>
      simp only [enginePlan, he] at h
      rcases commandStep_cases pick c s' with ⟨-, e⟩ | ⟨a, u, ha, hu, e⟩ <;> rw [e] at h
      · cases h
      · exact .agent c a u t he ha hu h

end Sys2Proof.Machine
end

section
/-! PROOFS. The invariant of the machine: it holds at reset and every step keeps it. -/

namespace Sys2Proof.Machine

/-! ## The part of the invariant that speaks of no command -/

/-- What the invariant says of a state outside FAULTED, the hidden state of a command left aside. -/
def Sound (s : State) : Prop :=
  Memory.wf s.mem ∧ cpAligned s ∧ s.fault = FaultRecord.none ∧ tableOk s

theorem Inv.sound {s : State} (h : Inv s) (he : s.engine ≠ .faulted) : Sound s := by
  obtain ⟨hm, hc, hr, ht, -⟩ := h
  exact ⟨hm, hc, by simpa [recordOk, he] using hr, ht⟩

theorem Inv.cmdOk {s : State} {c : CmdState} (h : Inv s) (he : s.engine = .busy (.exec c)) : cmdOk c s := by
  obtain ⟨-, -, -, -, hk⟩ := h
  simpa only [engineOk, he] using hk

/-- Outside FAULTED and outside a command the invariant is its first part. -/
theorem Sound.inv {s : State} (h : Sound s) (hf : s.engine ≠ .faulted) (hk : engineOk s) : Inv s := by
  obtain ⟨hm, hc, hr, ht⟩ := h
  exact ⟨hm, hc, by simpa [recordOk, hf] using hr, ht, hk⟩

/-- A register that a build's table of checks reads clears `SATVALID` when it is written (10_state.md R21). -/
theorem tableOk_setParam {s : State} (r : PReg) (v : Word) (h : tableOk s) : tableOk (setParam r v s) := by
  intro hv
  rw [setParam_satValid, Bool.and_eq_true] at hv
  obtain ⟨hs, hr⟩ := hv
  have hc : buildChecks .serial (setParam r v s) = buildChecks .serial s := by
    cases r with
    | src | sat | rows | cols => simp [clearsSatValid] at hr
    | dst | ksize | nwork | batch | qrow | qcol => rfl
  rw [hc]
  exact h hs

theorem Sound.setParam {s : State} (h : Sound s) (r : PReg) (v : Word) : Sound (setParam r v s) := by
  obtain ⟨hm, hc, hr, ht⟩ := h
  exact ⟨hm, hc, hr, tableOk_setParam r v ht⟩

/-! ## How a command, a cut or a fault leaves the invariant -/

theorem inv_raiseFault {s : State} (code : FaultCode) (info : Word) (hm : Memory.wf s.mem) (hc : cpAligned s)
    (ht : tableOk s) : Inv (raiseFault code info s) := by
  refine ⟨hm, hc, ?_, ht, trivial⟩
  obtain ⟨h1, h9⟩ := faultNumber_bounds code
  simp only [recordOk, raiseFault_engine, if_true, raiseFault_fault]
  exact ⟨h1, h9, faultNumber_fatal code⟩

theorem Sound.inv_raiseFault {s : State} (h : Sound s) (code : FaultCode) (info : Word) :
    Inv (raiseFault code info s) := by
  obtain ⟨hm, hc, -, ht⟩ := h
  exact Machine.inv_raiseFault code info hm hc ht

theorem Sound.inv_fetching {s : State} (h : Sound s) (v : Word) : Inv { setCp v s with engine := .busy .fetch } := by
  obtain ⟨hm, -, hr, ht⟩ := h
  exact Sound.inv ⟨hm, aligned_toNat v, hr, ht⟩ (by simp) trivial

theorem Sound.inv_complete {s : State} (h : Sound s) : Inv (complete s) := h.inv_fetching _

theorem Sound.inv_setCmd {s : State} {c : CmdState} (h : Sound s) (hk : cmdOk c s) : Inv (setCmd c s) :=
  Sound.inv (s := setCmd c s) h (by simp) hk

/-- A completed build has the table whose checks it made (40_build.md R116). -/
theorem Sound.inv_completeBuild {s : State} (h : Sound s) (hc : firstFault (buildChecks .serial s) = none) :
    Inv (completeBuild s) := by
  obtain ⟨hm, -, hr, -⟩ := h
  exact Sound.inv ⟨hm, aligned_toNat _, hr, fun _ => hc⟩ (by simp) trivial

theorem cmdOk_buildChecks {c : CmdState} {s : State} (hb : isBuild c) (h : cmdOk c s) :
    firstFault (buildChecks .serial s) = none := by
  cases c with
  | sentinels k z => exact serialChecks_of h.1
  | serial r k => exact h.1
  | wave w => exact serialChecks_of h.1
  | barrier b => exact serialChecks_of h.1
  | traverse ar ac acc old => exact hb.elim

/-- The facts about a build's hidden state do not depend on memory or on `SATOVF`. -/
theorem cmdOk_cellDone {c : CmdState} {s u : State} (hu : CellDone s u) (h : cmdOk c s) : cmdOk c u := by
  obtain ⟨-, hu⟩ := hu
  rw [hu]
  exact h

theorem Sound.cellDone {s u : State} (h : Sound s) (hu : CellDone s u) : Sound u := by
  obtain ⟨hm, hc, hr, ht⟩ := h
  obtain ⟨hwf, hu⟩ := hu
  rw [hu]
  exact ⟨hwf hm, hc, hr, ht⟩

theorem Sound.inv_cutBuild {s : State} (h : Sound s) (info : Word) :
    Inv (raiseFault .busError info (cutBuild s)) := by
  obtain ⟨hm, hc, -, -⟩ := h
  exact Machine.inv_raiseFault _ _ (cutBuild_wf hm) hc fun hv => by simp at hv

/-! ## Each kind of step -/

/-- Every command keeps the invariant, whatever its outcome. -/
theorem ExecMove.keeps_inv {i : Instr} {s t : State} (hx : ExecMove s i t) (h : Sound s) : Inv t := by
  cases hx with
  | raised _ code info => exact h.inv_raiseFault code info
  | nop => exact h.inv_complete
  | halt =>
    obtain ⟨hm, -, hr, ht⟩ := h
    exact Sound.inv ⟨hm, aligned_toNat _, hr, ht⟩ (by simp) trivial
  | jmp off => exact h.inv_fetching _
  | setl | seth => exact (h.setParam _ _).inv_complete
  | build _ k _ hc =>
    obtain ⟨hm, ha, hr, -⟩ := h
    obtain ⟨hh, hw, -⟩ := buildChecks_none hc
    refine Sound.inv_setCmd ⟨hm, ha, hr, fun hv => by simp at hv⟩ ⟨hc, rfl, ?_⟩
    show 0 < hp s + wp s - 1
    omega
  | summed q inexact => exact Sound.inv_complete (s := { s with qs := q, qInexact := inexact }) h
  | blurred u pix q inexact hw =>
    obtain ⟨hm, ha, hr, ht⟩ := h
    have hwf := memWrite_wf hw hm
    obtain ⟨-, rfl⟩ := dstW_ok_iff.mp hw
    exact Sound.inv_complete ⟨hwf, ha, hr, ht⟩
  | blurCut info => exact Sound.inv_raiseFault (s := cutResults s) h _ info
  | applied hc =>
    obtain ⟨hH, hW, -⟩ := queryChecks_none hc
    exact h.inv_setCmd ⟨hc, Int.le_trans (by decide) hH, hW, h.1⟩
  | copied q => exact Sound.inv_complete (s := { s with qs := q }) h

theorem BuildMove.keeps_inv {c : CmdState} {s t : State} (hx : BuildMove (Follows c s) s t) (h : Sound s)
    (hb : isBuild c) (hk : cmdOk c s) : Inv t := by
  cases hx with
  | moved c' u hc hu => exact (h.cellDone hu).inv_setCmd (cmdOk_cellDone hu (hc.2 hk))
  | cut info => exact h.inv_cutBuild info
  | completed => exact h.inv_completeBuild (cmdOk_buildChecks hb hk)

theorem TraverseMove.keeps_inv {ar ac : Nat} {acc : Bool} {old : Memory} {s t : State}
    (hx : TraverseMove ar ac old s t) (h : Sound s) (hk : cmdOk (.traverse ar ac acc old) s) : Inv t := by
  obtain ⟨hm, ha, hr, ht⟩ := h
  obtain ⟨hc, hrow, -, ho⟩ := hk
  cases hx with
  | pixel ar' ac' acc' u q pix hw hin hn =>
    have hwf := memWrite_wf hw hm
    obtain ⟨-, rfl⟩ := dstW_ok_iff.mp hw
    obtain ⟨-, hW, -⟩ := queryChecks_none hc
    refine Sound.inv_setCmd ⟨hwf, ha, hr, ht⟩ ⟨hc, ?_, ?_, ho⟩
    · show (ar' : Int) ≤ imgH s
      omega
    · show (ac' : Int) < imgW s
      omega
  | cut info => exact inv_raiseFault _ _ (cutImage_wf ho hm _) ha ht
  | completed acc' => exact Sound.inv_complete ⟨hm, ha, hr, ht⟩

/-- A step of an agent keeps the invariant. -/
theorem agentStep_keeps_inv {a : Agent} {c : CmdState} {s t : State} (hx : agentStep a c s = .next t) (h : Sound s)
    (hk : cmdOk c s) : Inv t := by
  rcases isBuild_or_traverse c with hb | ⟨ar, ac, acc, old, rfl⟩
  · exact (agentStep_build hb hx).keeps_inv h hb hk
  · exact (agentStep_traverse hx).keeps_inv h hk

/-- The engine's turn keeps the invariant. -/
theorem EngineTurn.keeps_inv {s t : State} (hx : EngineTurn s t) (h : Inv s) : Inv t := by
  cases hx with
  | quiescent he => exact h
  | fetchFault code info he => exact (h.sound (by simp [he])).inv_raiseFault code info
  | command w i _ he hw hd hx =>
    exact hx.keeps_inv (s := noteFootprint (footprint i s) s) (h.sound (by simp [he]))
  | agent c a u _ he ha hu hx =>
    have hs : Sound s := h.sound (by simp [he])
    have hk : cmdOk c s := h.cmdOk he
    rcases hu with rfl | rfl
    · exact agentStep_keeps_inv hx hs hk
    · exact agentStep_keeps_inv (s := { s with draws := s.draws + 1 }) hx hs hk

/-! ## The host -/

theorem clrAction_keeps_inv {s : State} (h : Inv s) : Inv (clrAction s) := by
  rcases clrAction_cases s with ⟨he, e⟩ | ⟨he, -, e⟩ | e <;> rw [e]
  · exact Sound.inv (s := { s with engine := .idle }) (h.sound (by simp [he])) (by simp) trivial
  · obtain ⟨hm, hc, -, ht, -⟩ := h
    exact Sound.inv ⟨hm, hc, rfl, ht⟩ (by simp) trivial
  · exact h

theorem goAction_keeps_inv {s : State} (h : Inv s) : Inv (goAction s) := by
  rcases goAction_cases s with ⟨he, e⟩ | e <;> rw [e]
  · exact Sound.inv (h.sound (by simp [he]) : Sound s) (by simp) trivial
  · exact h

/-- The memory a `QAPPLY` in flight keeps is in canonical form. -/
theorem Inv.old_wf {s : State} (h : Inv s) (ar ac : Nat) (acc : Bool) (old : Memory)
    (he : s.engine = .busy (.exec (.traverse ar ac acc old))) : Memory.wf old := by
  obtain ⟨-, -, -, ho⟩ := h.cmdOk he
  exact ho

theorem resetRegs_inv {s : State} (hm : Memory.wf s.mem) : Inv (resetRegs s) :=
  Sound.inv ⟨hm, rfl, rfl, fun hv => by simp at hv⟩ (by simp) trivial

theorem softReset_keeps_inv {s : State} (h : Inv s) : Inv (softReset s) :=
  resetRegs_inv (cutRun_wf h.1 h.old_wf)

theorem ctrlWrite_keeps_inv {s : State} (v : Word) (h : Inv s) : Inv (ctrlWrite v s) := by
  unfold ctrlWrite
  split
  · exact softReset_keeps_inv h
  · have h1 : Inv { s with ieDone := v.getLsbD 8, ieFault := v.getLsbD 9 } := h
    have h2 : Inv (if v.getLsbD 1 then clrAction { s with ieDone := v.getLsbD 8, ieFault := v.getLsbD 9 }
        else { s with ieDone := v.getLsbD 8, ieFault := v.getLsbD 9 }) := by
      split
      · exact clrAction_keeps_inv h1
      · exact h1
    simp only
    split
    · exact goAction_keeps_inv h2
    · exact h2

theorem setCp_keeps_inv {s : State} (v : Word) (h : Inv s) : Inv (setCp v s) := by
  obtain ⟨hm, -, hr, ht, hk⟩ := h
  exact ⟨hm, aligned_toNat v, hr, ht, hk⟩

/-- While not BUSY there is no hidden state (10_state.md R44). -/
theorem engineOk_of_not_busy {s : State} (h : isBusy s = false) : engineOk s := by
  unfold isBusy at h
  unfold engineOk
  cases he : s.engine with
  | busy p => rw [he] at h; cases h
  | idle | done | faulted => trivial

theorem setParam_keeps_inv {s : State} (r : PReg) (v : Word) (hb : isBusy s = false) (h : Inv s) :
    Inv (setParam r v s) := by
  obtain ⟨hm, hc, hr, ht, -⟩ := h
  exact ⟨hm, hc, hr, tableOk_setParam r v ht, engineOk_of_not_busy (s := setParam r v s) hb⟩

theorem regWrite_keeps_inv {s : State} (idx : BitVec 6) (v : Word) (h : Inv s) : Inv (regWrite idx v s) := by
  rcases regWrite_cases idx v s with ⟨-, e⟩ | e | ⟨-, e⟩ | ⟨hb, r, e⟩ <;> rw [e]
  · exact ctrlWrite_keeps_inv v h
  · exact h
  · exact setCp_keeps_inv v h
  · exact setParam_keeps_inv r v hb h

/-- Every transaction of the host keeps the invariant. -/
theorem hostStep_keeps_inv {op : HostOp} {s t : State} (hx : hostStep op s = .next t) (h : Inv s) : Inv t := by
  have hwf : Memory.wf t.mem := hostStep_wf hx h.1 h.old_wf
  cases hostStep_move hx with
  | regRead | memRead => exact h
  | regWrite idx v => exact regWrite_keeps_inv idx v h
  | memWrite addr bs wrote =>
    obtain ⟨-, hc, hr, ht, hk⟩ := h
    exact ⟨hwf, hc, hr, ht, hk⟩
  | resetInput => exact softReset_keeps_inv h

/-- The invariant does not depend on the script. -/
theorem inv_engineMoves {s s' : State} (hm : engineMoves s s') (h : Inv s) : Inv s' := by
  rw [engineMoves_eq hm]
  exact h

/-- Settles O54: reset memory is in canonical form, and the registers are those `resetRegs` gives. -/
theorem invariantAtReset : Obligations.InvariantAtReset := resetRegs_inv (s := State.reset) reset_mem_wf

/-- Settles O55, by the host's transactions and the outcomes of the engine's turn. -/
theorem stepKeepsInvariant : Obligations.StepKeepsInvariant := by
  intro s t h hx
  rcases turn_cases s with ⟨op, rest, he⟩ | ⟨s', hm⟩
  · rw [step_host he] at hx
    exact hostStep_keeps_inv (s := { s with env := rest }) hx h
  · exact (engineTurn_of_step hm hx).keeps_inv (inv_engineMoves hm h)

end Sys2Proof.Machine
end

section
/-! PROOFS. Frames: what a step leaves alone, and who writes `STATE`, the parameter registers and `SATVALID`. -/

namespace Sys2Proof.Machine

/-! ## Commands -/

/-- The command is a `SETL` or a `SETH`. -/
def IsSetParam (i : Instr) : Prop := ∃ pd imm, i = .setl pd imm ∨ i = .seth pd imm

theorem ExecMove.platform {i : Instr} {s t : State} (hx : ExecMove s i t) : t.platform = s.platform := by
  cases hx with
  | blurred u pix q inexact hw =>
    obtain ⟨-, rfl⟩ := dstW_ok_iff.mp hw
    rfl
  | _ => rfl

/-- A command changes a parameter register only if it is a `SETL` or a `SETH` (10_state.md R21). -/
theorem ExecMove.p_or_isSetParam {i : Instr} {s t : State} (hx : ExecMove s i t) : t.p = s.p ∨ IsSetParam i := by
  cases hx with
  | setl pd imm r hr => exact .inr ⟨pd, imm, .inl rfl⟩
  | seth pd imm r hr => exact .inr ⟨pd, imm, .inr rfl⟩
  | blurred u pix q inexact hw =>
    obtain ⟨-, rfl⟩ := dstW_ok_iff.mp hw
    exact .inl rfl
  | _ => exact .inl rfl

/-- No command sets `SATVALID` in its first step. -/
theorem ExecMove.satValid {i : Instr} {s t : State} (hx : ExecMove s i t) (h : t.satValid = true) :
    s.satValid = true := by
  cases hx with
  | setl | seth =>
    rw [complete_satValid, setParam_satValid, Bool.and_eq_true] at h
    exact h.1
  | build => simp at h
  | blurred u pix q inexact hw =>
    obtain ⟨-, rfl⟩ := dstW_ok_iff.mp hw
    exact h
  | _ => exact h

/-- A command ends FAULTED, goes on BUSY, or is the `HALT` that ends the run (10_state.md R41). -/
theorem ExecMove.engine {i : Instr} {s t : State} (hx : ExecMove s i t) :
    t.engine = .faulted ∨ isBusy t = true ∨ (i = .halt ∧ t.engine = .done) := by
  cases hx with
  | raised | blurCut => exact .inl rfl
  | halt => exact .inr (.inr ⟨rfl, rfl⟩)
  | _ => exact .inr (.inl rfl)

/-- The setup a one-step query leaves alone, whatever its outcome (41_query.md section 5). -/
theorem ExecMove.query_setup {i : Instr} {s t : State} (hi : i = .qsum ∨ i = .qblur ∨ i = .rdcell)
    (hx : ExecMove s i t) :
    t.p = s.p ∧ t.satValid = s.satValid ∧ t.satOvf = s.satOvf ∧ t.ieDone = s.ieDone ∧ t.ieFault = s.ieFault ∧
      t.platform = s.platform ∧ (t.engine = .busy .fetch → t.fault = s.fault) := by
  cases hx with
  | raised | summed | blurCut | copied => simp
  | blurred u pix q inexact hw =>
    obtain ⟨-, rfl⟩ := dstW_ok_iff.mp hw
    simp
  | nop | halt | jmp | setl | seth | applied => simp at hi
  | build _ k hk => cases k <;> simp [hk, buildCommand] at hi

theorem ExecMove.query_results {i : Instr} {s t : State} (hi : i = .qsum ∨ i = .rdcell) (hx : ExecMove s i t) :
    t.qpix = s.qpix ∧ t.mem = s.mem := by
  cases hx with
  | raised | summed | copied => exact ⟨rfl, rfl⟩
  | nop | halt | jmp | setl | seth | applied | blurred | blurCut => simp at hi
  | build _ k hk => cases k <;> simp [hk, buildCommand] at hi

theorem ExecMove.rdcell_qInexact {s t : State} (hx : ExecMove s .rdcell t) : t.qInexact = s.qInexact := by
  cases hx with
  | raised | copied => rfl
  | build _ k hk => cases k <;> cases hk

/-- `QBLUR` writes no byte but those of its Pixel (20_memory.md R73). -/
theorem ExecMove.qblur_bytes {s t : State} (hx : ExecMove s .qblur t) :
    sameBytesOutside (inBytes (dstAddr s s.p.qrow.toNat s.p.qcol.toNat) 4) s t := by
  cases hx with
  | raised | blurCut => exact fun a _ => rfl
  | blurred u pix q inexact hw =>
    intro a ha
    exact memWrite_byteAt_outside (t := u) hw (by simp only [inBytes] at ha; omega)
  | build _ k hk => cases k <;> cases hk

/-! ## Agents -/

theorem BuildMove.frame {next : CmdState → Prop} {s t : State} (hx : BuildMove next s t) :
    t.p = s.p ∧ t.platform = s.platform := by
  cases hx with
  | moved c u hc hu =>
    rw [hu.2]
    exact ⟨rfl, rfl⟩
  | cut | completed => exact ⟨rfl, rfl⟩

theorem TraverseMove.frame {ar ac : Nat} {old : Memory} {s t : State} (hx : TraverseMove ar ac old s t) :
    t.p = s.p ∧ t.platform = s.platform ∧ t.satValid = s.satValid := by
  cases hx with
  | pixel ar' ac' acc u q pix hw hin hn =>
    obtain ⟨-, rfl⟩ := dstW_ok_iff.mp hw
    exact ⟨rfl, rfl, rfl⟩
  | cut | completed => exact ⟨rfl, rfl, rfl⟩

/-- A step of an agent changes neither a parameter register nor the platform. -/
theorem agentStep_frame {a : Agent} {c : CmdState} {s t : State} (hx : agentStep a c s = .next t) :
    t.p = s.p ∧ t.platform = s.platform := by
  rcases isBuild_or_traverse c with hb | ⟨ar, ac, acc, old, rfl⟩
  · exact (agentStep_build hb hx).frame
  · obtain ⟨hp, hpl, -⟩ := (agentStep_traverse hx).frame
    exact ⟨hp, hpl⟩

theorem agentStep_engine {a : Agent} {c : CmdState} {s t : State} (hx : agentStep a c s = .next t) :
    t.engine = .faulted ∨ isBusy t = true := by
  rcases isBuild_or_traverse c with hb | ⟨ar, ac, acc, old, rfl⟩
  · cases agentStep_build hb hx with
    | cut => exact .inl rfl
    | moved | completed => exact .inr rfl
  · cases agentStep_traverse hx with
    | cut => exact .inl rfl
    | pixel | completed => exact .inr rfl

/-- An agent that sets `SATVALID` completes a build (10_state.md R25). -/
theorem agentStep_satValid {a : Agent} {c : CmdState} {s t : State} (hx : agentStep a c s = .next t)
    (hs : s.satValid = false) (ht : t.satValid = true) : isBuild c ∧ t.engine = .busy .fetch := by
  rcases isBuild_or_traverse c with hb | ⟨ar, ac, acc, old, rfl⟩
  · refine ⟨hb, ?_⟩
    cases agentStep_build hb hx with
    | moved c' u hc hu =>
      rw [hu.2] at ht
      exact absurd (hs.symm.trans ht) (by decide)
    | cut info => simp at ht
    | completed => rfl
  · obtain ⟨-, -, hv⟩ := (agentStep_traverse hx).frame
    rw [hv, hs] at ht
    cases ht

/-! ## The host -/

/-- CLR changes `STATE` and the fault record alone (60_exceptions.md R215). -/
theorem clrAction_frame (s : State) :
    clrAction s = { s with engine := (clrAction s).engine, fault := (clrAction s).fault } := by
  rcases clrAction_cases s with ⟨-, e⟩ | ⟨-, -, e⟩ | e <;> rw [e]

theorem clrAction_enables (s : State) (d f : Bool) :
    clrAction { s with ieDone := d, ieFault := f } = { clrAction s with ieDone := d, ieFault := f } := by
  cases he : s.engine with
  | faulted => cases hf : s.fault.fatal <;> simp [clrAction, he, hf]
  | idle | busy | done => simp [clrAction, he]

/-- The state after the CLR of a `CTRL` write, if it asks for one. -/
def afterClr (v : Word) (s : State) : State := if v.getLsbD 1 then clrAction s else s

theorem afterClr_frame (v : Word) (s : State) :
    afterClr v s = { s with engine := (afterClr v s).engine, fault := (afterClr v s).fault } := by
  unfold afterClr
  split
  · exact clrAction_frame s
  · rfl

/-- The state after the enables and the CLR of a `CTRL` write. -/
def beforeGo (v : Word) (s : State) : State :=
  { afterClr v s with ieDone := v.getLsbD 8, ieFault := v.getLsbD 9 }

/-- A write of `CTRL` without SRST is the enables, then CLR, then GO (10_state.md R32). -/
theorem ctrlWrite_of_noReset {v : Word} (h : v.getLsbD 2 = false) (s : State) :
    ctrlWrite v s = if v.getLsbD 0 then goAction (beforeGo v s) else beforeGo v s := by
  have hu : (if v.getLsbD 1 then clrAction { s with ieDone := v.getLsbD 8, ieFault := v.getLsbD 9 }
      else { s with ieDone := v.getLsbD 8, ieFault := v.getLsbD 9 }) = beforeGo v s := by
    unfold beforeGo afterClr
    split
    · exact clrAction_enables s _ _
    · rfl
  simp only [ctrlWrite, h, Bool.false_eq_true, if_false, hu]

/-- GO launches exactly from IDLE (42_sequencer.md R187). -/
theorem goAction_eq (s : State) : goAction s =
    if s.engine = .idle then
      { s with engine := .busy .fetch, portOut := closeAnswer s, runFoot := Footprint.empty, hostWrote := [] }
    else s := by
  unfold goAction
  cases h : s.engine <;> simp

theorem ctrlWrite_reset {v : Word} (h : v.getLsbD 2 = true) (s : State) : ctrlWrite v s = softReset s := by
  simp only [ctrlWrite, h, if_true]

/-- What a write of `CTRL` without SRST leaves alone (10_state.md R32). -/
theorem ctrlWrite_frame {v : Word} (h : v.getLsbD 2 = false) (s : State) :
    ctrlWrite v s = { s with
      ieDone := (ctrlWrite v s).ieDone, ieFault := (ctrlWrite v s).ieFault, engine := (ctrlWrite v s).engine,
      fault := (ctrlWrite v s).fault, portOut := (ctrlWrite v s).portOut, runFoot := (ctrlWrite v s).runFoot,
      hostWrote := (ctrlWrite v s).hostWrote } := by
  have hb : beforeGo v s = { s with
      engine := (afterClr v s).engine, fault := (afterClr v s).fault, ieDone := v.getLsbD 8,
      ieFault := v.getLsbD 9 } := by
    unfold beforeGo
    rw [afterClr_frame]
  rw [ctrlWrite_of_noReset h, goAction_eq, hb]
  split
  · split <;> rfl
  · rfl

theorem cutRun_platform (s : State) : (cutRun s).platform = s.platform := by
  unfold cutRun
  split <;> rfl

theorem softReset_platform (s : State) : (softReset s).platform = s.platform := cutRun_platform s

/-- No write of `CTRL` changes the platform or sets `SATVALID`. -/
theorem ctrlWrite_platform_satValid (v : Word) (s : State) :
    (ctrlWrite v s).platform = s.platform ∧ ((ctrlWrite v s).satValid = true → s.satValid = true) := by
  cases h : v.getLsbD 2 with
  | true =>
    rw [ctrlWrite_reset h]
    exact ⟨softReset_platform s, fun hv => by cases hv⟩
  | false =>
    rw [ctrlWrite_frame h]
    exact ⟨rfl, id⟩

theorem HostMove.platform_satValid {op : HostOp} {s t : State} (hx : HostMove s op t) :
    t.platform = s.platform ∧ (t.satValid = true → s.satValid = true) := by
  cases hx with
  | regRead | memRead | memWrite => exact ⟨rfl, id⟩
  | resetInput => exact ⟨softReset_platform s, fun hv => by cases hv⟩
  | regWrite idx v =>
    rcases regWrite_cases idx v s with ⟨-, e⟩ | e | ⟨-, e⟩ | ⟨-, r, e⟩ <;> rw [e]
    · exact ctrlWrite_platform_satValid v s
    · exact ⟨rfl, id⟩
    · exact ⟨rfl, id⟩
    · exact ⟨rfl, fun hv => (Bool.and_eq_true_iff.mp hv).1⟩

/-- The host changes `STATE` by a write of `CTRL` or by the reset input alone (10_state.md R41). -/
theorem HostMove.engine {op : HostOp} {s t : State} (hx : HostMove s op t) :
    t.engine = s.engine ∨ (∃ v, op = .regWrite 1#6 v) ∨ op = .resetInput := by
  cases hx with
  | regRead | memRead | memWrite => exact .inl rfl
  | resetInput => exact .inr (.inr rfl)
  | regWrite idx v =>
    rcases regWrite_cases idx v s with ⟨rfl, -⟩ | e | ⟨-, e⟩ | ⟨-, r, e⟩
    · exact .inr (.inl ⟨v, rfl⟩)
    · exact .inl (by rw [e])
    · exact .inl (by rw [e]; rfl)
    · exact .inl (by rw [e]; rfl)

/-! ## Whole steps -/

theorem stateCode_of_busy {s : State} (h : isBusy s = true) : stateCode s = 1#2 := by
  unfold isBusy at h
  unfold stateCode
  cases he : s.engine with
  | busy p => rfl
  | idle | done | faulted => rw [he] at h; cases h

theorem stateCode_of_engine {s t : State} (h : t.engine = s.engine) : stateCode t = stateCode s := by
  simp only [stateCode, h]

theorem isBusy_of_engine {s : State} {p : Phase} (h : s.engine = .busy p) : isBusy s = true := by
  simp only [isBusy, h]

/-- The engine changes `STATE` only from BUSY, to FAULTED or, by a fetched `HALT`, to DONE (10_state.md R41). -/
theorem EngineTurn.stateCode_change {s t : State} (hx : EngineTurn s t) (hne : stateCode t ≠ stateCode s) :
    isBusy s = true ∧ (t.engine = .faulted ∨ (t.engine = .done ∧ s.engine = .busy .fetch ∧
      ∃ w, fetchWord s = .ok w ∧ decodeWord w = .ok .halt)) := by
  have not_both : isBusy s = true → ¬ isBusy t = true := fun hs ht =>
    hne ((stateCode_of_busy ht).trans (stateCode_of_busy hs).symm)
  cases hx with
  | quiescent => exact absurd rfl hne
  | fetchFault code info he => exact ⟨isBusy_of_engine he, .inl rfl⟩
  | command w i _ he hw hd hx =>
    have hs := isBusy_of_engine he
    rcases hx.engine with hf | hb | ⟨rfl, hdone⟩
    · exact ⟨hs, .inl hf⟩
    · exact absurd hb (not_both hs)
    · exact ⟨hs, .inr ⟨hdone, he, w, hw, hd⟩⟩
  | agent c a u _ he ha hu hx =>
    have hs := isBusy_of_engine he
    rcases agentStep_engine hx with hf | hb
    · exact ⟨hs, .inl hf⟩
    · exact absurd hb (not_both hs)

/-- The platform stays, and a parameter register changes by a fetched `SETL` or `SETH` alone (10_state.md R21). -/
theorem EngineTurn.platform_p {s t : State} (hx : EngineTurn s t) :
    t.platform = s.platform ∧ (t.p ≠ s.p → s.engine = .busy .fetch ∧
      ∃ w i, fetchWord s = .ok w ∧ decodeWord w = .ok i ∧ IsSetParam i) := by
  cases hx with
  | quiescent => exact ⟨rfl, fun h => absurd rfl h⟩
  | fetchFault => exact ⟨rfl, fun h => absurd rfl h⟩
  | command w i _ he hw hd hx =>
    refine ⟨hx.platform, fun hp => ⟨he, w, i, hw, hd, ?_⟩⟩
    exact hx.p_or_isSetParam.resolve_left hp
  | agent c a u _ he ha hu hx =>
    obtain ⟨hp, hpl⟩ := agentStep_frame hx
    rcases hu with rfl | rfl <;> exact ⟨hpl, fun h => absurd hp h⟩

theorem EngineTurn.satValid_set {s t : State} (hx : EngineTurn s t) (hs : s.satValid = false)
    (ht : t.satValid = true) : ∃ c, s.engine = .busy (.exec c) ∧ isBuild c ∧ t.engine = .busy .fetch := by
  have stays : (t.satValid = true → s.satValid = true) → False := fun h => by simp [h ht] at hs
  cases hx with
  | quiescent => exact (stays id).elim
  | fetchFault => exact (stays id).elim
  | command w i _ he hw hd hx => exact (stays hx.satValid).elim
  | agent c a u _ he ha hu hx =>
    have hus : u.satValid = false := by rcases hu with rfl | rfl <;> exact hs
    exact ⟨c, he, agentStep_satValid hx hus ht⟩

/-- Settles O43, by the outcomes of the three commands. -/
theorem oneStepQueriesFrame : Obligations.OneStepQueriesFrame := by
  intro s t i hi h
  have hx := exec_move h
  obtain ⟨hp, hv, ho, hd, hf, hpl, hr⟩ := hx.query_setup hi
  refine ⟨hp, hv, ho, hd, hf, hpl, hr, fun hne => ?_, fun e => ?_, fun e => ?_⟩
  · obtain ⟨hq, hm⟩ := hx.query_results (by tauto)
    exact ⟨hq, fun a => by rw [hm]⟩
  · subst e
    exact hx.rdcell_qInexact
  · subst e
    exact hx.qblur_bytes

/-- Settles O57: the engine's part from its outcomes, the host's from the register port. -/
theorem stateTransitions : Obligations.StateTransitions := by
  intro s t h hne
  rcases turn_cases s with ⟨op, rest, he⟩ | ⟨s', hm⟩
  · rw [step_host he] at h
    refine .inr ⟨op, rest, he, (hostStep_move h).engine.resolve_left fun e => hne ?_⟩
    exact stateCode_of_engine (s := s) e
  · have hx := engineTurn_of_step hm h
    have hs := engineMoves_eq hm
    have he : s'.engine = s.engine := by rw [hs]
    obtain ⟨hb, hc⟩ := hx.stateCode_change (by rwa [stateCode_of_engine he])
    rw [he] at hc
    exact .inl ⟨s', hm, by rwa [hs] at hb, hc⟩

/-- Settles O58, by the frames of the commands, the agents and the host. -/
theorem parameterWriters : Obligations.ParameterWriters := by
  intro s t h
  rcases turn_cases s with ⟨op, rest, he⟩ | ⟨s', hm⟩
  · rw [step_host he] at h
    exact ⟨(hostStep_move h).platform_satValid.1, fun s' hm => absurd he (engineMoves_not_host hm)⟩
  · have key : ∀ u, engineMoves s u → t.platform = s.platform ∧ (t.p ≠ s.p → s.engine = .busy .fetch ∧
        ∃ w i, fetchWord u = .ok w ∧ decodeWord w = .ok i ∧ IsSetParam i) := fun u hu => by
      have hx := (engineTurn_of_step hu h).platform_p
      have hs := engineMoves_eq hu
      have hp : u.p = s.p := by rw [hs]
      have hpl : u.platform = s.platform := by rw [hs]
      have he : u.engine = s.engine := by rw [hs]
      rwa [hp, hpl, he] at hx
    refine ⟨(key s' hm).1, fun u hu hp => ?_⟩
    obtain ⟨he, w, i, hw, hd, pd, imm, hi⟩ := (key u hu).2 hp
    refine ⟨he, w, pd, imm, hw, ?_⟩
    rcases hi with rfl | rfl
    · exact .inl hd
    · exact .inr hd

/-- Settles O59: of the engine's outcomes only the completion of a build sets the flag, and the host never does. -/
theorem satValidSetByCompletionAlone : Obligations.SatValidSetByCompletionAlone := by
  intro s t h hs ht
  rcases turn_cases s with ⟨op, rest, he⟩ | ⟨s', hm⟩
  · rw [step_host he] at h
    have hv : s.satValid = true := (hostStep_move h).platform_satValid.2 ht
    rw [hs] at hv
    cases hv
  · have heq := engineMoves_eq hm
    obtain ⟨c, he, hb, hf⟩ := (engineTurn_of_step hm h).satValid_set (by rw [heq]; exact hs) ht
    rw [heq] at he
    exact ⟨c, s', hm, he, hb, hf⟩

end Sys2Proof.Machine
end

section
/-! PROOFS. The register port, the shared memory and the reset input, as the host sees them. -/

namespace Sys2Proof.Machine

/-! ## Words built from fields -/

/-- A concatenation is its high part times the weight of its low part, and its low part. -/
theorem toNat_append_eq {m n : Nat} (x : BitVec m) (y : BitVec n) : (x ++ y).toNat = x.toNat * 2 ^ n + y.toNat := by
  rw [BitVec.toNat_append, Nat.shiftLeft_eq, Nat.mul_comm, ← Nat.two_pow_add_eq_or_of_lt y.isLt]

theorem statusWord_toNat (s : State) (v o q : Bool) :
    (statusWord s v o q).toNat =
      (stateCode s).toNat + 16 * v.toNat + 32 * o.toNat + 64 * q.toNat + 256 * (irq s).toNat := by
  simp only [statusWord, toNat_append_eq, BitVec.toNat_ofBool, BitVec.toNat_ofNat]
  omega

theorem ctrlWord_toNat (s : State) : (ctrlWord s).toNat = 256 * s.ieDone.toNat + 512 * s.ieFault.toNat := by
  simp only [ctrlWord, toNat_append_eq, BitVec.toNat_ofBool, BitVec.toNat_ofNat]
  omega

theorem causeWord_toNat (s : State) :
    (causeWord s).toNat = s.fault.code.toNat + 2 ^ 31 * s.fault.fatal.toNat := by
  simp only [causeWord, toNat_append_eq, BitVec.toNat_ofBool, BitVec.toNat_ofNat]
  omega

theorem stateCode_toNat (s : State) : (stateCode s).toNat = stateNumber s.engine := by
  unfold stateCode
  cases s.engine <;> rfl

/-- `irq` is high in DONE and in FAULTED, where the enable of that state is set (60_exceptions.md R214). -/
theorem irq_iff (s : State) :
    irq s = true ↔ (s.ieDone = true ∧ s.engine = .done) ∨ (s.ieFault = true ∧ s.engine = .faulted) := by
  unfold irq
  cases s.engine <;> simp

/-! ## Reads -/

theorem regRead_of_not_busy {s : State} (h : isBusy s = false) (idx : BitVec 6) : regRead idx s = regValue idx s := by
  simp [regRead, h]

/-- The words whose read is exact in every state (10_state.md R29). -/
theorem regRead_of_exact {idx : BitVec 6} (hu : unspecifiedWhileBusy idx = false) (h2 : idx ≠ 2#6) (s : State) :
    regRead idx s = regValue idx s := by
  simp [regRead, hu, h2]

theorem regRead_ctrl_toNat (s : State) :
    (regRead 1#6 s).toNat = 256 * s.ieDone.toNat + 512 * s.ieFault.toNat := by
  rw [regRead_of_exact (by decide) (by decide)]
  exact ctrlWord_toNat s

/-- `STATUS` is a status word in every state, with the flags exact while not BUSY (10_state.md R29, R33). -/
theorem regRead_status (s : State) : ∃ v o q, regRead 2#6 s = statusWord s v o q ∧
    (isBusy s = false → v = s.satValid ∧ o = s.satOvf ∧ q = s.qInexact) := by
  cases hb : isBusy s with
  | false => exact ⟨_, _, _, regRead_of_not_busy hb _, fun _ => ⟨rfl, rfl, rfl⟩⟩
  | true =>
    have hu : unspecifiedWhileBusy 2#6 = false := by decide
    refine ⟨Config.freeBit s.draws 0, Config.freeBit s.draws 1, Config.freeBit s.draws 2, ?_, fun h => by cases h⟩
    simp only [regRead, hb, hu, if_true, Bool.false_eq_true, if_false]

theorem regRead_status_mod4 (s : State) : (regRead 2#6 s).toNat % 4 = stateNumber s.engine := by
  obtain ⟨v, o, q, e, -⟩ := regRead_status s
  have hlt := (stateCode s).isLt
  rw [e, statusWord_toNat, ← stateCode_toNat]
  omega

theorem regRead_status_not_busy {s : State} (hb : isBusy s = false) :
    (regRead 2#6 s).toNat = stateNumber s.engine + 16 * s.satValid.toNat + 32 * s.satOvf.toNat +
      64 * s.qInexact.toNat + 256 * (irq s).toNat := by
  obtain ⟨v, o, q, e, h⟩ := regRead_status s
  obtain ⟨rfl, rfl, rfl⟩ := h hb
  rw [e, statusWord_toNat, stateCode_toNat]

theorem regRead_status_busy {s : State} (hb : isBusy s = true) :
    (regRead 2#6 s).toNat % 16 = 1 ∧ (regRead 2#6 s).toNat / 128 = 2 * (irq s).toNat := by
  obtain ⟨v, o, q, e, -⟩ := regRead_status s
  have hv := v.toNat_le
  have ho := o.toNat_le
  have hq := q.toNat_le
  have hi := (irq s).toNat_le
  rw [e, statusWord_toNat, stateCode_of_busy hb]
  simp only [BitVec.toNat_ofNat]
  omega

theorem regRead_cause_toNat (s : State) :
    (regRead 4#6 s).toNat = s.fault.code.toNat + 2 ^ 31 * s.fault.fatal.toNat := by
  rw [regRead_of_exact (by decide) (by decide)]
  exact causeWord_toNat s

theorem paramOfIdx_none {idx : BitVec 6} (h : idx.toNat < 16 ∨ 25 < idx.toNat) : paramOfIdx idx = none := by
  unfold paramOfIdx
  rw [if_neg (by omega)]

/-- Reserved words read 0 in every state (10_state.md R30). -/
theorem regRead_reserved {idx : BitVec 6}
    (h : idx.toNat = 7 ∨ (13 ≤ idx.toNat ∧ idx.toNat ≤ 15) ∨ 26 ≤ idx.toNat) (s : State) : regRead idx s = 0#32 := by
  have hn : paramOfIdx idx = none := paramOfIdx_none (by omega)
  have hu : unspecifiedWhileBusy idx = false := by
    simp only [unspecifiedWhileBusy, hn, Option.isSome_none, Bool.or_false, Bool.or_eq_false_iff,
      Bool.and_eq_false_iff, decide_eq_false_iff_not]
    omega
  rw [regRead_of_exact hu (by rintro rfl; revert h; decide)]
  unfold regValue
  split
  case h_13 => rw [hn]
  all_goals omega

theorem regValue_param (r : PReg) (s : State) : regValue (16#6 + (PReg.number r).zeroExtend 6) s = s.p.get r := by
  cases r <;> rfl

/-! ## Writes -/

theorem regWrite_param (r : PReg) (v : Word) {s : State} (hb : isBusy s = false) :
    regWrite (16#6 + (PReg.number r).zeroExtend 6) v s = setParam r v s := by
  cases r <;> simp [regWrite, PReg.number, paramOfIdx, pregOf, hb]

/-- Writes of `CP` and `P[i]` while BUSY, and of every other word but `CTRL`, are ignored (10_state.md R29, R30). -/
theorem regWrite_ignored {s : State} {idx : BitVec 6} (v : Word) (h1 : idx ≠ 1#6)
    (h : isBusy s = true ∨ (idx ≠ 3#6 ∧ (idx.toNat < 16 ∨ 25 < idx.toNat))) : regWrite idx v s = s := by
  unfold regWrite
  split
  · rename_i hi
    exact absurd (BitVec.eq_of_toNat_eq hi) h1
  · rename_i hi
    rcases h with hb | ⟨h3, -⟩
    · rw [if_pos hb]
    · exact absurd (BitVec.eq_of_toNat_eq hi) h3
  · rcases h with hb | ⟨-, hr⟩
    · simp only [hb, if_true]
      split <;> rfl
    · rw [paramOfIdx_none hr]

@[simp] theorem get_set_same (p : Params) (r : PReg) (v : Word) : (p.set r v).get r = v := by cases r <;> rfl

theorem get_set_other (p : Params) {r r' : PReg} (v : Word) (h : r' ≠ r) : (p.set r v).get r' = p.get r' := by
  cases r <;> cases r' <;> simp [Params.set, Params.get] at h ⊢

theorem clearsSatValid_eq (r : PReg) : (!clearsSatValid r) = decide (r ∉ [PReg.src, .sat, .rows, .cols]) := by
  cases r <;> rfl

/-- Dropping bits 1:0 rounds down to a multiple of 4 (10_state.md R23). -/
theorem aligned_toNat_eq (v : Word) : (v &&& 0xFFFFFFFC#32).toNat = v.toNat / 4 * 4 := by
  have h3 : (v &&& 0xFFFFFFFC#32) + (v &&& 3#32) = v := by
    rw [BitVec.add_eq_or_of_and_eq_zero, ← BitVec.and_or_distrib_left,
      show 0xFFFFFFFC#32 ||| 3#32 = BitVec.allOnes 32 by decide, BitVec.and_allOnes]
    rw [BitVec.and_assoc, BitVec.and_comm v 3#32, ← BitVec.and_assoc 0xFFFFFFFC#32,
      show 0xFFFFFFFC#32 &&& 3#32 = 0#32 by decide, BitVec.zero_and, BitVec.and_zero]
  have hl : (v &&& 3#32).toNat = v.toNat % 4 := by
    rw [BitVec.toNat_and, show (3#32 : BitVec 32).toNat = 2 ^ 2 - 1 from rfl, Nat.and_two_pow_sub_one_eq_mod]
  have ha := aligned_toNat v
  have hs := congrArg BitVec.toNat h3
  rw [BitVec.toNat_add, hl] at hs
  have hv := v.isLt
  have hw := (v &&& 0xFFFFFFFC#32).isLt
  omega

/-! ## `CTRL` -/

/-- GO launches a run: the engine is IDLE after the CLR of the same write (10_state.md R32). -/
abbrev Launches (v : Word) (s : State) : Prop := v.getLsbD 0 = true ∧ (afterClr v s).engine = .idle

/-- A write of `CTRL` without SRST, with GO said out (10_state.md R32). -/
theorem ctrlWrite_eq {v : Word} (h : v.getLsbD 2 = false) (s : State) :
    ctrlWrite v s =
      if Launches v s then
        { beforeGo v s with
          engine := .busy .fetch, portOut := closeAnswer s, runFoot := Footprint.empty, hostWrote := [] }
      else beforeGo v s := by
  have hp : closeAnswer (beforeGo v s) = closeAnswer s := by
    simp only [closeAnswer, beforeGo]
    rw [afterClr_frame]
  rw [ctrlWrite_of_noReset h, goAction_eq, hp, ← ite_and]
  rfl

theorem beforeGo_frame (v : Word) (s : State) :
    beforeGo v s = { s with
      ieDone := v.getLsbD 8, ieFault := v.getLsbD 9, engine := (afterClr v s).engine,
      fault := (afterClr v s).fault } := by
  unfold beforeGo
  rw [afterClr_frame]

/-- The fields a write of `CTRL` without SRST may change, one by one (10_state.md R32). -/
theorem ctrlWrite_fields {v : Word} (h : v.getLsbD 2 = false) (s : State) :
    (ctrlWrite v s).ieDone = v.getLsbD 8 ∧ (ctrlWrite v s).ieFault = v.getLsbD 9 ∧
      (ctrlWrite v s).engine = (if Launches v s then .busy .fetch else (afterClr v s).engine) ∧
      (ctrlWrite v s).fault = (afterClr v s).fault ∧
      (ctrlWrite v s).portOut = (if Launches v s then closeAnswer s else s.portOut) ∧
      (ctrlWrite v s).runFoot = (if Launches v s then Footprint.empty else s.runFoot) ∧
      (ctrlWrite v s).hostWrote = (if Launches v s then [] else s.hostWrote) := by
  rw [ctrlWrite_eq h, beforeGo_frame]
  by_cases hg : Launches v s
  · simp only [if_pos hg, and_self]
  · simp only [if_neg hg, and_self]

/-- Settling what the host has read keeps each byte at its value when the run is over (10_state.md R32; log 9). -/
theorem closeAnswer_bytes {s : State} {xs : List ReadByte} (h : s.portOut = some (.bytes xs)) :
    closeAnswer s = some (.bytes (xs.map ReadByte.close)) := by
  simp only [closeAnswer, h, Option.map_some, Answer.mapBytes]

theorem map_value_close (busy : Bool) (xs : List ReadByte) :
    (xs.map ReadByte.close).map (ReadByte.value busy) = xs.map (ReadByte.value false) := by
  simp only [List.map_map, List.map_inj_left, Function.comp_apply, value_close, implies_true]

/-! ## The shared memory -/

/-- The host's test for plain memory. -/
theorem plain_all {s : State} {a n : Nat} (h : plainBytes a n s) :
    ((List.range n).all fun i => s.platform.plain (a + i)) = true := by
  simp only [List.all_eq_true, List.mem_range]
  exact fun i hi => h _ ⟨Nat.le_add_right a i, Nat.add_lt_add_left hi a⟩

theorem hostStep_memRead {s : State} {addr : Word} {n : Nat} (h : plainBytes addr.toNat n s) :
    hostStep (.memRead addr n) s =
      .next (answer (.bytes ((List.range n).map (hostByte s addr.toNat))) (isBusy s) s) := by
  simp only [hostStep, plain_all h, if_true]

theorem hostStep_memWrite_not_busy {s : State} {addr : Word} {bs : List Byte} (hb : isBusy s = false)
    (h : plainBytes addr.toNat bs.length s) :
    hostStep (.memWrite addr bs) s = .next { s with mem := s.mem.writeBytes addr.toNat bs } := by
  simp only [hostStep, plain_all h, hb, if_true, Bool.false_eq_true, if_false]

/-- Some byte of the write lies in the footprint of the commands fetched so far (20_memory.md R77). -/
theorem touches_iff {s : State} {a n : Nat} :
    ((List.range n).any fun i => s.runFoot.spans.any (inSpan (a + i))) = true ↔
      ∃ i, i < n ∧ ∃ x ∈ s.runFoot.spans, inSpan (a + i) x = true := by
  simp only [List.any_eq_true, List.mem_range]

theorem hostStep_memWrite_refused {s : State} {addr : Word} {bs : List Byte} (hb : isBusy s = true)
    (h : plainBytes addr.toNat bs.length s)
    (ht : ∃ i, i < bs.length ∧ ∃ x ∈ s.runFoot.spans, inSpan (addr.toNat + i) x = true) :
    hostStep (.memWrite addr bs) s = .refused .hostWriteInFootprint := by
  simp only [hostStep, plain_all h, hb, if_true, touches_iff.mpr ht]

theorem hostStep_memWrite_beside {s : State} {addr : Word} {bs : List Byte} (hb : isBusy s = true)
    (h : plainBytes addr.toNat bs.length s)
    (ht : ∀ i, i < bs.length → ∀ x ∈ s.runFoot.spans, inSpan (addr.toNat + i) x = false) :
    hostStep (.memWrite addr bs) s = .next { s with
      mem := s.mem.writeBytes addr.toNat bs
      hostWrote := (List.range bs.length).map (fun i => addr.toNat + i) ++ s.hostWrote } := by
  have hn : ¬ ∃ i, i < bs.length ∧ ∃ x ∈ s.runFoot.spans, inSpan (addr.toNat + i) x = true := by
    rintro ⟨i, hi, x, hx, he⟩
    rw [ht i hi x hx] at he
    cases he
  rw [← touches_iff, Bool.not_eq_true] at hn
  simp only [hostStep, plain_all h, hb, if_true, hn, Bool.false_eq_true, if_false]

theorem mem_range_offset {a n x : Nat} : x ∈ (List.range n).map (fun i => a + i) ↔ inBytes a n x := by
  simp only [List.mem_map, List.mem_range, inBytes]
  constructor
  · rintro ⟨i, hi, rfl⟩
    omega
  · rintro ⟨h1, h2⟩
    exact ⟨x - a, by omega, by omega⟩

theorem byteAt_writeBytes_beside (m : Memory) (a : Nat) (bs : List Byte) {x : Nat} (h : ¬ inBytes a bs.length x) :
    Memory.byteAt (Memory.writeBytes m a bs) x = Memory.byteAt m x :=
  byteAt_writeBytes_outside _ _ _ _ (by simp only [inBytes] at h; omega)

/-- A byte of a read while BUSY that no fetched command writes is pending (20_memory.md R77; log 9). -/
theorem hostByte_pending {s : State} {addr i : Nat} {v : Byte} (hb : isBusy s = true)
    (hv : s.mem.byteAt (addr + i) = some v) (hw : ∀ x ∈ s.runFoot.writes, inSpan (addr + i) x = false) :
    hostByte s addr i = .pending (addr + i) v (Config.freeByte s.draws i) := by
  have hr : runWrites s (addr + i) = false := by simpa [runWrites] using hw
  simp only [hostByte, hb, hr, if_true, Bool.false_eq_true, if_false, storedByte_of_some hv]

theorem hostByte_not_busy {s : State} {addr i : Nat} (hb : isBusy s = false) :
    hostByte s addr i = .settled (storedByte s (addr + i)) := by
  simp only [hostByte, hb, Bool.false_eq_true, if_false]

/-- A pending byte at the next fetch: free if the command writes it, else pending still (20_memory.md R77). -/
theorem settle_pending (w : List Span) (a : Nat) (k f : Byte) :
    ((∃ y ∈ w, inSpan a y = true) → ReadByte.settle w (.pending a k f) = .settled f) ∧
      ((∀ y ∈ w, inSpan a y = false) → ReadByte.settle w (.pending a k f) = .pending a k f) :=
  ⟨fun h => settle_pending_written k f (by simpa using h), fun h => settle_pending_other k f (by simpa using h)⟩

/-! ## Reset -/

/-- A cut `QAPPLY` changes no byte beside the first `n` output Pixels (60_exceptions.md R211; log 14). -/
theorem cutImage_byteAt_outside (old : Memory) (s : State) {a : Nat} : ∀ n,
    (a < s.p.dst.toNat ∨ s.p.dst.toNat + 4 * n ≤ a) → (cutImage old s n).byteAt a = s.mem.byteAt a := by
  intro n
  induction n with
  | zero => exact fun _ => rfl
  | succ n ih =>
    intro h
    rw [← ih (by omega), cutImage]
    split
    · exact byteAt_writeLE_outside _ _ _ _ _ (by omega)
    · exact byteAt_restore_outside _ _ _ _ _ (by omega)

theorem cutRun_of_build {s : State} {c : CmdState} (he : s.engine = .busy (.exec c)) (hb : isBuild c) :
    cutRun s = cutBuild s := by
  unfold cutRun
  cases c with
  | traverse => exact hb.elim
  | sentinels | serial | wave | barrier => simp only [he]

theorem cutRun_of_traverse {s : State} {ar ac : Nat} {acc : Bool} {old : Memory}
    (he : s.engine = .busy (.exec (.traverse ar ac acc old))) : cutRun s = cutTraverse old s := by
  simp only [cutRun, he]

theorem cutRun_of_no_command {s : State} (h : ¬ inCommand s) : cutRun s = s := by
  cases he : s.engine with
  | idle | done | faulted => simp only [cutRun, he]
  | busy phase =>
    cases phase with
    | fetch => simp only [cutRun, he]
    | exec c => exact absurd ⟨c, he⟩ h

theorem cutBuild_bytes (s : State) : sameBytesOutside (inSatGrid s) s (cutBuild s) := fun a ha =>
  byteAt_havoc_outside _ _ _ _ _ _ (by simp only [inSatGrid] at ha; omega)

theorem cutTraverse_bytes (old : Memory) (s : State) : sameBytesOutside (inImage s) s (cutTraverse old s) :=
  fun a ha => cutImage_byteAt_outside old s _ (by simp only [inImage] at ha; omega)

theorem reset_get (r : PReg) :
    Params.reset.get r = if r = .nwork then 1#32 else if r = .batch then 32#32 else 0#32 := by
  cases r <;> rfl

/-! ## Terms without a word -/

theorem pregOf_none {pd : BitVec 4} (h : 9 < pd.toNat) : pregOf pd = none := by
  unfold pregOf
  split
  case h_11 => rfl
  all_goals omega

/-- The word of format I of a term, its fields at their places (30_encoding.md R92). -/
theorem formatI_toNat (op : BitVec 8) (pd : BitVec 4) (imm : BitVec 16) :
    (op ++ (pd ++ (0#4 ++ imm))).toNat = op.toNat * 2 ^ 24 + pd.toNat * 2 ^ 20 + imm.toNat := by
  simp only [toNat_append_eq, BitVec.toNat_ofNat]
  omega

/-- A word of format I that names a register above 9 is illegal (30_encoding.md R96, case (d)). -/
theorem illegalWord_of_missing {op : BitVec 8} {pd : BitVec 4} (imm : BitVec 16)
    (hop : op.toNat = 0x08 ∨ op.toNat = 0x09) (h : 9 < pd.toNat) : illegalWord (op ++ (pd ++ (0#4 ++ imm))) := by
  have ho : (op ++ (pd ++ (0#4 ++ imm))).extractLsb' 24 8 = op := Laws.OpcodeField.of_append _ _
  have hn := formatI_toNat op pd imm
  have hpd := pd.isLt
  have himm := imm.isLt
  refine .inr (.inr (.inr ⟨by simpa only [ho] using hop, ?_⟩))
  rw [hn]
  omega

theorem writeParam_missing {pd : BitVec 4} (h : 9 < pd.toNat) (word : Word) (f : Word → Word) (s : State) :
    writeParam pd word f s = .next (afterFault 3#8 word s) := by
  simp only [writeParam, pregOf_none h]
  rfl

/-! ## The obligations -/

/-- Settles O13: the number names no register, and its word is case (d) of R96. -/
theorem missingRegisterRaisesIllegal : Obligations.MissingRegisterRaisesIllegal := by
  intro s pd imm h
  refine ⟨?_, ?_, illegalWord_of_missing imm (.inl rfl) h, illegalWord_of_missing imm (.inr rfl) h⟩
  · simp only [exec, execSetl, writeParam_missing h]
  · simp only [exec, execSeth, writeParam_missing h]

/-- Settles O45: the registers by `resetRegs`, the bytes by what cutting the run leaves alone. -/
theorem resetSetsEveryRegister : Obligations.ResetSetsEveryRegister := by
  intro s
  have hcause : causeWord (softReset s) = 0#32 := by
    rw [causeWord, softReset, resetRegs_fault]
    decide
  refine ⟨softReset s, rfl, reset_get, rfl, rfl, rfl, rfl, rfl, rfl, rfl, rfl, hcause, rfl, rfl, rfl, rfl, rfl,
    fun h => ?_, fun c he hb => ?_, fun c he hb => ?_, fun a => rfl⟩
  · rw [softReset_mem, cutRun_of_no_command h]
  · intro a ha
    rw [softReset_mem, cutRun_of_build he hb]
    exact cutBuild_bytes s a ha
  · obtain ⟨ar, ac, acc, old, rfl⟩ := (isBuild_or_traverse c).resolve_left hb
    intro a ha
    rw [softReset_mem, cutRun_of_traverse he]
    exact cutTraverse_bytes old s a ha

/-- Settles O47, from the equation of a write of `CTRL` without SRST. -/
theorem ctrlWriteOrder : Obligations.CtrlWriteOrder := by
  intro s v
  refine ⟨fun h => ?_, fun h => ?_, fun xs h => ?_, fun x h => ?_, fun h => ?_, regRead_ctrl_toNat s⟩
  · exact congrArg Host.Outcome.next (ctrlWrite_reset h s)
  · obtain ⟨hd, hf, hfields⟩ := ctrlWrite_fields h s
    exact ⟨ctrlWrite v s, rfl, hd, hf, hfields, ctrlWrite_frame h s⟩
  · exact ⟨_, closeAnswer_bytes h, fun busy => map_value_close busy xs⟩
  · simp only [closeAnswer, h, Option.map_some, Answer.mapBytes]
  · simp only [closeAnswer, h, Option.map_none]

/-- Settles O48, from `STATUS` as a sum of its fields. -/
theorem irqAndStatusRead : Obligations.IrqAndStatusRead := by
  intro s
  have hm := regRead_status_mod4 s
  refine ⟨irq_iff s, fun he => ?_, fun hb => ?_, fun he => ?_, fun he => ?_, regRead_status_not_busy,
    regRead_status_busy⟩
  · rw [hm, he]; rfl
  · obtain ⟨h, -⟩ := regRead_status_busy hb
    omega
  · rw [hm, he]; rfl
  · rw [hm, he]; rfl

/-- Settles O49, word by word of the register map. -/
theorem registerMapReads : Obligations.RegisterMapReads := by
  intro s
  refine ⟨fun idx => rfl, regRead_of_exact (by decide) (by decide) s, regRead_ctrl_toNat s, regRead_status_not_busy,
    regRead_status_busy, regRead_cause_toNat s, regRead_of_exact (by decide) (by decide) s,
    regRead_of_exact (by decide) (by decide) s, fun idx h => regRead_reserved h s, fun hb => ?_⟩
  have hr := regRead_of_not_busy hb
  exact ⟨hr _, hr _, hr _, hr _, hr _, hr _, fun r => (hr _).trans (regValue_param r s)⟩

/-- Settles O50, from the two writes the register port makes while not BUSY. -/
theorem hostWritesWhenNotBusy : Obligations.HostWritesWhenNotBusy := by
  intro s v hb
  refine ⟨⟨setCp v s, ?_, aligned_toNat_eq v, rfl⟩, fun r => ⟨setParam r v s, ?_, get_set_same _ _ _, fun r' hr =>
    get_set_other _ _ hr, ?_, rfl⟩⟩
  · simp [hostStep, regWrite, hb]
  · simp only [hostStep, regWrite_param r v hb]
  · rw [setParam_satValid, clearsSatValid_eq]

/-- Settles O51, from the writes that the register port ignores. -/
theorem ignoredRegisterWrites : Obligations.IgnoredRegisterWrites := by
  intro s idx v h1 h
  exact congrArg Host.Outcome.next (regWrite_ignored v h1 h)

/-- Settles O52: each clause is one of the host's accesses, its bytes read off the memory laws. -/
theorem hostMemoryAccess : Obligations.HostMemoryAccess := by
  intro s addr bs hpl
  refine ⟨fun hb => ?_, fun hb => ?_, fun hb => ?_, fun hb ht => ?_, fun hb ht => hostStep_memWrite_refused hb hpl ht⟩
  · exact ⟨_, hostStep_memWrite_not_busy hb hpl, fun i hi => byteAt_writeBytes_inside _ _ _ _ hi,
      fun a ha => byteAt_writeBytes_beside _ _ _ ha, rfl⟩
  · refine ⟨_, _, hostStep_memRead hpl, ?_, by rw [hb]; rfl, by simp, fun i v hi hv => ?_⟩
    · have hb' : ∀ x, isBusy (answer x false s) = false := fun _ => hb
      rw [hb, hostStep_memRead (s := answer _ false s) hpl, hb']
      rfl
    · rw [List.getElem?_map, List.getElem?_range hi, Option.map_some, hostByte_not_busy hb, storedByte_of_some hv]
  · refine ⟨_, _, hostStep_memRead hpl, rfl, by simp, fun i v hi hv hw => ?_⟩
    have hx := hostByte_pending hb hv hw
    have hi' := congrArg (Option.map (hostByte s addr.toNat)) (List.getElem?_range hi)
    rw [← List.getElem?_map, Option.map_some, hx] at hi'
    refine ⟨_, Config.freeByte s.draws i, hi', rfl, rfl, fun f => ⟨_, rfl, ?_⟩⟩
    obtain ⟨hin, hout⟩ := settle_pending f.writes (addr.toNat + i) v (Config.freeByte s.draws i)
    rw [List.getElem?_map, hi', Option.map_some]
    exact ⟨fun h => by rw [hin h], fun h => by rw [hout h]⟩
  · refine ⟨_, hostStep_memWrite_beside hb hpl ht, fun i hi => byteAt_writeBytes_inside _ _ _ _ hi,
      fun a ha => byteAt_writeBytes_beside _ _ _ ha, rfl, fun a => ?_⟩
    rw [List.mem_append, mem_range_offset]
    exact or_comm

end Sys2Proof.Machine
end

section
/-! PROOFS. The fetch that the memory port rejects, and the safe-row counter of the wavefront. -/

namespace Sys2Proof.Machine

/-! ## The rejected fetch -/

theorem fetchWord_bus {s : State} {i : Nat} (hi : i < 4) (h : s.platform.backs (s.cp.toNat + i) = false) :
    fetchWord s = .error (.bus s.cp.toNat) := by
  have hr : memRead s s.cp.toNat 4 = .error (.bus s.cp.toNat) := memRead_bus_iff.mpr ⟨rfl, i, hi, h⟩
  simp only [fetchWord, hr]

/-- A rejected fetch is the BusError with the command pointer as its address (42_sequencer.md R180). -/
theorem fetchPlan_bus {s : State} (hc : contractBroken [fetchSpan s] s = false) {a : Nat}
    (h : fetchWord s = .error (.bus a)) :
    fetchPlan s = .outcome (.next (raiseFault .busError (BitVec.ofNat 32 a) s)) := by
  simp only [fetchPlan, hc, h, Bool.false_eq_true, if_false]

/-- In the fetch phase the engine's turn is the fetch. -/
theorem plan_fetch {s s' : State} (hm : engineMoves s s') (he : s'.engine = .busy .fetch) :
    plan s = fetchPlan s' := by
  obtain ⟨pick, hp⟩ := step_engine hm
  simp only [hp, enginePlan, he]

/-- Settles O44: the fetch is the first access of the turn, and the port rejects it. -/
theorem rejectedFetchRaisesBusError : Obligations.RejectedFetchRaisesBusError := by
  intro s s' i hm he hc hi hb
  have hs := engineMoves_eq hm
  have he' : s'.engine = .busy .fetch := by rw [hs]; exact he
  have hc' : contractBroken [fetchSpan s'] s' = false := by rw [hs]; exact hc
  have hf : fetchWord s' = .error (.bus s'.cp.toNat) := fetchWord_bus hi (by rw [hs]; exact hb)
  have hcp : s'.cp = s.cp := by rw [hs]
  simp only [step, plan_fetch hm he', fetchPlan_bus hc' hf, raiseFault, BitVec.ofNat_toNat, BitVec.setWidth_eq, hcp]
  rfl

/-! ## The safe-row counter -/

/-- A step of a build that makes accesses ends FAULTED or in the substate it moves on to. -/
theorem buildStep_engine {res : Except Stop State} {s t : State} {c : CmdState}
    (h : buildStep res s (setCmd c) = .next t) : t.engine = .faulted ∨ t.engine = .busy (.exec c) := by
  rcases buildStep_next h with ⟨u, -, rfl⟩ | ⟨a, -, rfl⟩
  · exact .inr rfl
  · exact .inl rfl

/-- `P-PUBLISH` and `P-FINAL` raise the counter, by (I1) of 40_build.md R121; `P-CELL` leaves it alone. -/
theorem producerStep_safeRow {w w' : Wave} {s t : State} (hw : waveOk w s) (h : producerStep w s = .next t)
    (ht : t.engine = .busy (.exec (.wave w'))) : w.safeRow ≤ w'.safeRow := by
  obtain ⟨⟨-, hpr⟩, -, -, -, hI1, -⟩ := hw
  unfold producerStep at h
  split at h
  · cases h
  · rename_i hd
    have hI1 := hI1 (by simpa using hd)
    split at h
    · split at h
      · rcases buildStep_engine h with e | e <;> rw [e] at ht <;> cases ht
        exact Nat.le_refl _
      · cases h
        cases ht
        simp only [producerRowEnd]
        split <;> omega
    · cases h
      cases ht
      simp only
      omega

/-- The consumer never writes the counter (40_build.md R120). -/
theorem consumerStep_safeRow {w w' : Wave} {s t : State} (h : consumerStep w s = .next t)
    (ht : t.engine = .busy (.exec (.wave w'))) : w'.safeRow = w.safeRow := by
  unfold consumerStep at h
  split at h
  · split at h
    · cases h; cases ht; rfl
    · cases h
  · split at h
    · rcases buildStep_engine h with e | e <;> rw [e] at ht <;> cases ht
      rfl
    · cases h; cases ht; rfl

theorem agentStep_safeRow {a : Agent} {w w' : Wave} {s t : State} (hw : waveOk w s)
    (h : agentStep a (.wave w) s = .next t) (ht : t.engine = .busy (.exec (.wave w'))) :
    w.safeRow ≤ w'.safeRow := by
  cases a with
  | producer => exact producerStep_safeRow hw h ht
  | consumer => exact Nat.le_of_eq (consumerStep_safeRow h ht).symm
  | sequencer =>
    simp only [agentStep] at h
    split at h
    · cases h; cases ht
    · cases h
  | worker i => cases h

theorem afterClr_inCommand {v : Word} {s : State} {c : CmdState} (h : (afterClr v s).engine = .busy (.exec c)) :
    s.engine = .busy (.exec c) := by
  unfold afterClr at h
  split at h
  · rcases clrAction_cases s with ⟨-, e⟩ | ⟨-, -, e⟩ | e <;> rw [e] at h
    · cases h
    · cases h
    · exact h
  · exact h

theorem ctrlWrite_inCommand {v : Word} {s : State} {c : CmdState} (h : (ctrlWrite v s).engine = .busy (.exec c)) :
    s.engine = .busy (.exec c) := by
  cases hr : v.getLsbD 2 with
  | true => rw [ctrlWrite_reset hr] at h; cases h
  | false =>
    obtain ⟨-, -, he, -⟩ := ctrlWrite_fields hr s
    rw [he] at h
    split at h
    · cases h
    · exact afterClr_inCommand h

/-- The host puts no command in flight and does not move one that is (10_state.md R29, R44). -/
theorem HostMove.inCommand {op : HostOp} {s t : State} {c : CmdState} (hx : HostMove s op t)
    (h : t.engine = .busy (.exec c)) : s.engine = .busy (.exec c) := by
  cases hx with
  | regRead | memRead | memWrite => exact h
  | resetInput => cases h
  | regWrite idx v =>
    rcases regWrite_cases idx v s with ⟨-, e⟩ | e | ⟨-, e⟩ | ⟨-, r, e⟩ <;> rw [e] at h
    · exact ctrlWrite_inCommand h
    · exact h
    · exact h
    · exact h

/-- Settles O33: the host leaves the command alone, and of the agents only the producer writes the counter. -/
theorem safeRowOnlyGrows : Obligations.SafeRowOnlyGrows := by
  intro s t w w' hi he h ht
  rcases turn_cases s with ⟨op, rest, henv⟩ | ⟨s', hm⟩
  · rw [step_host henv] at h
    have hw := (hostStep_move h).inCommand ht
    rw [he] at hw
    cases hw
    exact Nat.le_refl _
  · have he' : s'.engine = .busy (.exec (.wave w)) := by rw [engineMoves_eq hm]; exact he
    obtain ⟨-, -, hw⟩ := (inv_engineMoves hm hi).cmdOk he'
    cases engineTurn_of_step hm h with
    | quiescent hq => simp [isBusy, he'] at hq
    | fetchFault code info hf => rw [he'] at hf; cases hf
    | command x i _ hf => rw [he'] at hf; cases hf
    | agent c a u _ hc ha hu hx =>
      rw [he'] at hc
      cases hc
      have hwu : waveOk w u := by rcases hu with rfl | rfl <;> exact hw
      exact agentStep_safeRow hwu hx ht

end Sys2Proof.Machine
end

section
/-! PROOFS. The accesses of a step: the first one that is rejected raises BusError, and the last one is the only one that
writes. -/

namespace Sys2Proof.Machine

/-! ## A step and its accesses -/

/-- The step's accesses are those of `l`: its first rejected one raises BusError over the state `cut`, nothing else ends
FAULTED, and a step that goes on writes no byte outside the last access (20_memory.md R82, 60_exceptions.md R209). -/
structure Accesses (s : State) (l : List (Nat × Nat)) (cut : State) (o : Host.Outcome State Fault Refusal) : Prop where
  raises : ∀ b, firstRejected s l b → o = .next (raiseFault .busError (BitVec.ofNat 32 b) cut)
  faulted : ∀ t, o = .next t → t.engine = .faulted →
    ∃ b, firstRejected s l b ∧ t = raiseFault .busError (BitVec.ofNat 32 b) cut
  writes : ∀ t, o = .next t → t.engine ≠ .faulted →
    sameBytesOutside (fun a => ∃ y ∈ l.getLast?, inBytes y.1 y.2 a) s t

/-- A rejected access of a list, with the BusError it raises over `cut`. -/
theorem firstRejected_busErrorAt {s cut : State} {l : List (Nat × Nat)} {b : Nat} (h : firstRejected s l b)
    (hcut : cut.cp = s.cp ∧ cut.p = s.p ∧ cut.ieDone = s.ieDone ∧ cut.ieFault = s.ieFault ∧
      cut.platform = s.platform) :
    ∃ n, (b, n) ∈ l ∧ rejected s b n ∧ busErrorAt b s (raiseFault .busError (BitVec.ofNat 32 b) cut) := by
  obtain ⟨pre, n, post, rfl, -, hr⟩ := h
  obtain ⟨hcp, hp, hd, hf, hpl⟩ := hcut
  exact ⟨n, by simp, hr, by simp [hcp, FaultCode.number], rfl, hcp, hp, hd, hf, hpl⟩

/-- A step without an access does not end FAULTED and writes nothing. -/
theorem Accesses.none {s cut : State} {o : Host.Outcome State Fault Refusal}
    (h : ∀ t, o = .next t → t.engine ≠ .faulted ∧ t.mem = s.mem) : Accesses s [] cut o where
  raises b hb := (not_firstRejected_nil hb).elim
  faulted t ht he := absurd he (h t ht).1
  writes t ht _ a _ := by rw [(h t ht).2]

/-- A step of a build makes the accesses of its cell law. -/
theorem Accesses.buildStep {s : State} {l : List (Nat × Nat)} {res : Except Stop State} {c : CmdState}
    (hbus : ∀ b, res = .error (.bus b) ↔ firstRejected s l b)
    (hw : ∀ u, res = .ok u → sameBytesOutside (fun a => ∃ y ∈ l.getLast?, inBytes y.1 y.2 a) s u) :
    Accesses s l (cutBuild s) (buildStep res s (setCmd c)) where
  raises b hb := by rw [(hbus b).mpr hb]; rfl
  faulted t ht he := by
    rcases buildStep_next ht with ⟨u, -, rfl⟩ | ⟨b, hb, rfl⟩
    · cases he
    · exact ⟨b, (hbus b).mp hb, rfl⟩
  writes t ht he := by
    rcases buildStep_next ht with ⟨u, hu, rfl⟩ | ⟨b, -, rfl⟩
    · exact hw u hu
    · exact absurd rfl he

/-! ## The cells -/

/-- A write of cell `(r, c)` stays inside the last access of a list that ends with that cell. -/
theorem sameBytes_of_lastCell {s u : State} {l : List (Nat × Nat)} {r c : Nat}
    (hl : l.getLast? = some (satAddr s r c, 16)) (h : sameBytesOutside (inBytes (satAddr s r c) 16) s u) :
    sameBytesOutside (fun a => ∃ y ∈ l.getLast?, inBytes y.1 y.2 a) s u := by
  simpa only [hl, Option.mem_def, Option.some.injEq, exists_eq_left'] using h

theorem satW_bytes {s u : State} {r c : Nat} {q : Quad Word} (h : satW s r c q = .ok u) :
    sameBytesOutside (inBytes (satAddr s r c) 16) s u := fun a ha =>
  memWrite_byteAt_outside h (by simp only [inBytes] at ha; omega)

theorem cellUpdate_bytes {s u : State} {r c : Nat} {x : Quad Int} (h : cellUpdate s r c x = .ok u) :
    sameBytesOutside (inBytes (satAddr s r c) 16) s u := fun _ ha => cellUpdate_byteAt_outside h ha

theorem satW_bus_iff {s : State} {r c b : Nat} {q : Quad Word} :
    satW s r c q = .error (.bus b) ↔ firstRejected s [(satAddr s r c, 16)] b := by
  simp only [firstRejected_cons, not_firstRejected_nil, and_false, or_false]
  exact memWrite_bus_iff

theorem accesses_sentinel (s : State) (r c : Nat) (q : Quad Word) (k : CmdState) :
    Accesses s [(satAddr s r c, 16)] (cutBuild s) (buildStep (satW s r c q) s (setCmd k)) :=
  .buildStep (fun _ => satW_bus_iff) fun _ hu => sameBytes_of_lastCell rfl (satW_bytes hu)

theorem accesses_colCell (s : State) (r c : Nat) (k : CmdState) :
    Accesses s (colAccesses s r c) (cutBuild s) (buildStep (colCell s r c) s (setCmd k)) :=
  .buildStep (fun _ => colCell_bus_iff) fun _ hu => by
    obtain ⟨_, _, -, -, h⟩ := colCell_ok_iff.mp hu
    exact sameBytes_of_lastCell rfl (cellUpdate_bytes h)

theorem accesses_rowCell (s : State) (r c : Nat) (k : CmdState) :
    Accesses s (rowAccesses s r c) (cutBuild s) (buildStep (rowCell s r c) s (setCmd k)) :=
  .buildStep (fun _ => rowCell_bus_iff) fun _ hu => by
    obtain ⟨_, _, -, -, h⟩ := rowCell_ok_iff.mp hu
    exact sameBytes_of_lastCell rfl (cellUpdate_bytes h)

theorem accesses_serialCell (s : State) (r c : Nat) (k : CmdState) :
    Accesses s (serialAccesses s r c) (cutBuild s) (buildStep (serialCell s r c) s (setCmd k)) :=
  .buildStep (fun _ => serialCell_bus_iff) fun _ hu => by
    obtain ⟨_, _, _, _, -, -, -, -, h⟩ := serialCell_ok_iff.mp hu
    exact sameBytes_of_lastCell rfl (cellUpdate_bytes h)

/-! ## The agents of a build -/

/-- A step that moves a cursor alone makes no access. -/
theorem accesses_setCmd (s cut : State) (k : CmdState) : Accesses s [] cut (.next (setCmd k s)) :=
  .none fun t ht => by cases ht; exact ⟨by simp, rfl⟩

theorem accesses_completeBuild (s cut : State) : Accesses s [] cut (.next (completeBuild s)) :=
  .none fun t ht => by cases ht; exact ⟨by simp, rfl⟩

/-- An agent that has no step there makes no access. -/
theorem accesses_fault (s cut : State) (f : Fault) : Accesses s [] cut (.fault f) :=
  .none fun t ht => by cases ht

theorem accesses_serialStep (s : State) (r c : Nat) :
    Accesses s (if r < hp s ∧ c < wp s then serialAccesses s r c else []) (cutBuild s) (serialStep r c s) := by
  unfold serialStep
  split
  · exact accesses_serialCell s r c _
  · exact accesses_completeBuild s _

theorem accesses_producerStep (s : State) (w : Wave) :
    Accesses s (if w.pdone = false ∧ w.pr < hp s ∧ w.pc < wp s then colAccesses s w.pr w.pc else []) (cutBuild s)
      (producerStep w s) := by
  unfold producerStep
  cases hd : w.pdone with
  | true => simpa using accesses_fault s _ _
  | false =>
    by_cases hr : w.pr < hp s
    · by_cases hc : w.pc < wp s
      · simpa [hr, hc] using accesses_colCell s w.pr w.pc _
      · simpa [hr, hc] using accesses_setCmd s _ _
    · simpa [hr] using accesses_setCmd s _ _

theorem accesses_consumerStep (s : State) (w : Wave) :
    Accesses s (if w.mode = .draining ∧ w.cc < wp s then rowAccesses s w.cur w.cc else []) (cutBuild s)
      (consumerStep w s) := by
  unfold consumerStep
  cases hm : w.mode with
  | waiting =>
    by_cases hen : w.cur < hp s ∧ w.cur ≤ w.safeRow
    · simpa [hen] using accesses_setCmd s _ _
    · simpa only [hen, if_false, reduceCtorEq, false_and] using accesses_fault s _ _
  | draining =>
    by_cases hc : w.cc < wp s
    · simpa [hc] using accesses_rowCell s w.cur w.cc _
    · simpa [hc] using accesses_setCmd s _ _

theorem accesses_workerStep (s : State) (i : Nat) (b : Barrier) :
    Accesses s (agentAccesses (.worker i) (.barrier b) s) (cutBuild s) (workerStep i b s) := by
  unfold workerStep
  simp only [agentAccesses]
  cases b.workers[i]? with
  | none => exact accesses_fault s _ _
  | some k =>
    simp only
    cases k.arrived with
    | true => exact accesses_fault s _ _
    | false =>
      simp only [Bool.false_eq_true, if_false, workerAccesses]
      cases b.pass with
      | one =>
        simp only
        split
        · exact accesses_colCell s k.r k.c _
        · exact accesses_setCmd s _ _
      | two =>
        simp only
        split
        · exact accesses_rowCell s k.r k.c _
        · exact accesses_setCmd s _ _

theorem accesses_barrierOpens (s cut : State) (b : Barrier) : Accesses s [] cut (barrierOpens b s) := by
  unfold barrierOpens
  cases b.pass with
  | one => exact accesses_setCmd s cut _
  | two => exact accesses_completeBuild s cut

/-- The accesses of every step of every agent of a build. -/
theorem accesses_of_build {c : CmdState} (hb : isBuild c) (a : Agent) (s : State) :
    Accesses s (agentAccesses a c s) (cutBuild s) (agentStep a c s) := by
  cases c with
  | sentinels k z =>
    cases a with
    | sequencer => exact accesses_sentinel s _ _ _ _
    | producer | consumer | worker i => exact accesses_fault s _ _
  | serial r k =>
    cases a with
    | sequencer => exact accesses_serialStep s r k
    | producer | consumer | worker i => exact accesses_fault s _ _
  | wave w =>
    cases a with
    | producer => exact accesses_producerStep s w
    | consumer => exact accesses_consumerStep s w
    | sequencer =>
      simp only [agentStep, agentAccesses]
      split
      · exact accesses_completeBuild s _
      · exact accesses_fault s _ _
    | worker i => exact accesses_fault s _ _
  | barrier b =>
    cases a with
    | worker i => exact accesses_workerStep s i b
    | sequencer =>
      simp only [agentStep, agentAccesses]
      split
      · exact accesses_barrierOpens s _ b
      · exact accesses_fault s _ _
    | producer | consumer => exact accesses_fault s _ _
  | traverse ar ac acc old => exact hb.elim

/-! ## The window and its Pixel -/

/-- The accesses of `QBLUR` and of `A-PIXEL`: the four reads of the window, then the write of the Pixel. -/
def pixelAccesses (s : State) (r c : Nat) : List (Nat × Nat) := windowAccesses s r c ++ [(dstAddr s r c, 4)]

/-- What `QBLUR` and `A-PIXEL` share (41_query.md R156, R157): write the average of a window and go on by `k`, or stop
over `cut`. -/
def paintPixel (s cut : State) (r c : Nat) (k : Quad Int → Bool → State → State) :
    Host.Outcome State Fault Refusal :=
  match winSum s r c with
  | .error e => queryStop e cut
  | .ok (x, inexact) =>
    match dstW s r c (averagePixel s x) with
    | .error e => queryStop e cut
    | .ok t => .next (k x inexact t)

theorem execQblur_eq_paintPixel {s : State} (h : firstFault (queryChecks .blur s) = none) :
    execQblur s = paintPixel s (cutResults s) s.p.qrow.toNat s.p.qcol.toNat fun x inexact t =>
      complete { t with qs := Quad.map sat32 x, qInexact := inexact, qpix := averagePixel s x } := by
  unfold execQblur
  rw [h]
  rfl

theorem traverseStep_eq_paintPixel {ar ac : Nat} {acc : Bool} {old : Memory} {s : State}
    (h : (ar : Int) < imgH s ∧ (ac : Int) < imgW s) :
    traverseStep ar ac acc old s = paintPixel s (cutTraverse old s) ar ac fun x inexact t =>
      setCmd
        (if ((ac + 1 : Nat) : Int) < imgW s then .traverse ar (ac + 1) (acc || inexact) old
          else .traverse (ar + 1) 0 (acc || inexact) old)
        { t with qs := Quad.map sat32 x, qpix := averagePixel s x } := by
  unfold traverseStep
  rw [if_pos h]
  rfl

theorem firstRejected_pixelAccesses {s : State} {r c b : Nat} : firstRejected s (pixelAccesses s r c) b ↔
    winSum s r c = .error (.bus b) ∨
      (∃ x i, winSum s r c = .ok (x, i)) ∧ b = dstAddr s r c ∧ rejected s (dstAddr s r c) 4 := by
  rw [pixelAccesses, firstRejected_concat, ← winSum_bus_iff, winSum_readable_iff]

theorem queryStop_bus {e : Stop} {u t : State} (h : queryStop e u = .next t) :
    ∃ b, e = .bus b ∧ t = raiseFault .busError (BitVec.ofNat 32 b) u := by
  cases e with
  | bus b => exact ⟨b, rfl, by simpa [queryStop] using h.symm⟩
  | refuse why => simp [queryStop] at h

/-- Everything painting a Pixel can do: go on with the Pixel written, or take the BusError of its first rejected
access. -/
theorem paintPixel_next {s cut t : State} {r c : Nat} {k : Quad Int → Bool → State → State}
    (h : paintPixel s cut r c k = .next t) :
    (∃ x i pix u, dstW s r c pix = .ok u ∧ t = k x i u) ∨
      ∃ b, firstRejected s (pixelAccesses s r c) b ∧ t = raiseFault .busError (BitVec.ofNat 32 b) cut := by
  unfold paintPixel at h
  split at h
  · rename_i e hw
    obtain ⟨b, rfl, rfl⟩ := queryStop_bus h
    exact .inr ⟨b, firstRejected_pixelAccesses.mpr (.inl hw), rfl⟩
  · rename_i x i hw
    split at h
    · rename_i e hd
      obtain ⟨b, rfl, rfl⟩ := queryStop_bus h
      exact .inr ⟨b, firstRejected_pixelAccesses.mpr (.inr ⟨⟨x, i, hw⟩, dstW_bus_iff.mp hd⟩), rfl⟩
    · rename_i u hd
      cases h
      exact .inl ⟨x, i, _, u, hd, rfl⟩

theorem paintPixel_raises {s cut : State} {r c b : Nat} {k : Quad Int → Bool → State → State}
    (h : firstRejected s (pixelAccesses s r c) b) :
    paintPixel s cut r c k = .next (raiseFault .busError (BitVec.ofNat 32 b) cut) := by
  unfold paintPixel
  rcases firstRejected_pixelAccesses.mp h with hw | ⟨⟨x, i, hw⟩, hd⟩
  · rw [hw]
    rfl
  · rw [hw]
    simp only [dstW_bus_iff.mpr hd]
    rfl

theorem dstW_bytes {s u : State} {r c : Nat} {pix : Word} (h : dstW s r c pix = .ok u) :
    sameBytesOutside (inBytes (dstAddr s r c) 4) s u := fun a ha =>
  memWrite_byteAt_outside h (by simp only [inBytes] at ha; omega)

theorem accesses_paintPixel {s cut : State} {r c : Nat} {k : Quad Int → Bool → State → State}
    (hk : ∀ x i u, (k x i u).engine ≠ .faulted ∧ (k x i u).mem = u.mem) :
    Accesses s (pixelAccesses s r c) cut (paintPixel s cut r c k) where
  raises _ hb := paintPixel_raises hb
  faulted t ht he := by
    rcases paintPixel_next ht with ⟨x, i, pix, u, -, rfl⟩ | hb
    · exact absurd he (hk x i u).1
    · exact hb
  writes t ht he a ha := by
    rcases paintPixel_next ht with ⟨x, i, pix, u, hu, rfl⟩ | ⟨b, -, rfl⟩
    · rw [(hk x i u).2]
      exact dstW_bytes hu a fun hin => ha ⟨(dstAddr s r c, 4), by simp [pixelAccesses], hin⟩
    · exact absurd rfl he

/-- The accesses of a step of `QAPPLY`. -/
theorem accesses_of_traverse (a : Agent) (ar ac : Nat) (acc : Bool) (old : Memory) (s : State) :
    Accesses s (agentAccesses a (.traverse ar ac acc old) s) (cutTraverse old s)
      (agentStep a (.traverse ar ac acc old) s) := by
  cases a with
  | producer | consumer | worker i => exact accesses_fault s _ _
  | sequencer =>
    simp only [agentStep, agentAccesses]
    by_cases h : (ar : Int) < imgH s ∧ (ac : Int) < imgW s
    · rw [if_pos h, traverseStep_eq_paintPixel h]
      exact accesses_paintPixel fun x i u => ⟨by simp, rfl⟩
    · rw [if_neg h, traverseStep, if_neg h]
      exact .none fun t ht => by cases ht; exact ⟨by simp, rfl⟩

/-! ## The checks of a query -/

/-- The code and `EINFO` a check list reports. -/
def reported (l : List (Bool × FaultCode × Word)) : Option (BitVec 8 × Word) :=
  (firstFault l).map fun x => (x.1.number, x.2)

@[simp] theorem reported_nil : reported [] = none := rfl

theorem reported_cons (b : Bool) (c : FaultCode) (i : Word) (l : List (Bool × FaultCode × Word)) :
    reported ((b, c, i) :: l) = if b = true then some (c.number, i) else reported l := by
  cases b <;> simp [reported, firstFault]

theorem writesImage_eq (k : QueryKind) : k.writesImage = decide (k ≠ .sum) := by cases k <;> rfl

theorem takesPosition_eq (k : QueryKind) : k.takesPosition = decide (k ≠ .apply) := by cases k <;> rfl

/-- The list the model checks is the table of 41_query.md R151. -/
theorem queryFaultOf_eq (k : QueryKind) (s : State) : queryFaultOf k s = reported (queryChecks k s) := by
  have harea (b : Int) : b + 4 * imgH s * imgW s = b + 4 * (imgH s * imgW s) := by ring
  have hgrid (a b : Nat) : (a : Int) < b + 16 * (hp s) * (wp s) ↔ a < b + 16 * (hp s * wp s) := by
    rw [← mul_assoc]
    exact_mod_cast Iff.rfl
  have hodd : 2 ∣ s.p.ksize.toNat ↔ kSize s % 2 = 0 := Nat.dvd_iff_mod_eq_zero
  have hspace : (2 : Int) ^ 32 = Config.addrSpace := rfl
  simp only [queryFaultOf, queryChecks, reported_cons, harea, hgrid, hspace, writesImage_eq, takesPosition_eq,
    Bool.or_eq_true, Bool.and_eq_true, decide_eq_true_eq, Bool.not_eq_true', hodd, Nat.dvd_iff_mod_eq_zero, ge_iff_le,
    gt_iff_lt, ne_eq, and_assoc, FaultCode.number, reported_nil]

theorem queryChecks_of_queryFaultOf {k : QueryKind} {s : State} (h : queryFaultOf k s = none) :
    firstFault (queryChecks k s) = none := by
  rw [queryFaultOf_eq, reported, Option.map_eq_none_iff] at h
  exact h

/-! ## The obligation -/

theorem execQsum_raises {s : State} {b : Nat} (hc : firstFault (queryChecks .sum s) = none)
    (h : firstRejected s (windowAccesses s s.p.qrow.toNat s.p.qcol.toNat) b) :
    execQsum s = .next (raiseFault .busError (BitVec.ofNat 32 b) s) := by
  unfold execQsum
  rw [hc, winSum_bus_iff.mpr h]
  rfl

/-- The accesses of an agent's step, and the state over which a rejected one raises BusError. -/
theorem accesses_agentStep (a : Agent) (c : CmdState) (s : State) :
    ∃ cut, Accesses s (agentAccesses a c s) cut (agentStep a c s) ∧
      (cut.cp = s.cp ∧ cut.p = s.p ∧ cut.ieDone = s.ieDone ∧ cut.ieFault = s.ieFault ∧ cut.platform = s.platform) ∧
      (isBuild c → cut.satValid = false ∧ cut.qs = s.qs ∧ cut.qpix = s.qpix ∧ cut.qInexact = s.qInexact ∧
        sameBytesOutside (inSatGrid s) s cut) ∧
      (¬ isBuild c → cut.satValid = s.satValid ∧ cut.satOvf = s.satOvf ∧ sameBytesOutside (inImage s) s cut) := by
  rcases isBuild_or_traverse c with hb | ⟨ar, ac, acc, old, rfl⟩
  · exact ⟨cutBuild s, accesses_of_build hb a s, ⟨rfl, rfl, rfl, rfl, rfl⟩,
      fun _ => ⟨rfl, rfl, rfl, rfl, cutBuild_bytes s⟩, fun h => absurd hb h⟩
  · exact ⟨cutTraverse old s, accesses_of_traverse a ar ac acc old s, ⟨rfl, rfl, rfl, rfl, rfl⟩,
      fun h => h.elim, fun _ => ⟨rfl, rfl, cutTraverse_bytes old s⟩⟩

/-- Settles O26, from the accesses of an agent's step, of `QSUM` and of `QBLUR`. -/
theorem rejectedAccessIsFatal : Obligations.RejectedAccessIsFatal := by
  intro s
  refine ⟨fun a c t h ht => ?_, fun a c pre post x n hl ha hr => ?_, fun pre post x n hq hl ha hr => ?_,
    fun pre post x n hq hl ha hr => ?_⟩
  · obtain ⟨cut, hacc, hcut, hbuild, happly⟩ := accesses_agentStep a c s
    obtain ⟨b, hb, rfl⟩ := hacc.faulted t h ht
    obtain ⟨n, hmem, hrej, herr⟩ := firstRejected_busErrorAt hb hcut
    exact ⟨⟨b, n, hmem, hrej, herr⟩, hbuild, happly⟩
  · obtain ⟨cut, hacc, hcut, -⟩ := accesses_agentStep a c s
    have hb : firstRejected s (agentAccesses a c s) x := ⟨pre, n, post, hl, ha, hr⟩
    obtain ⟨-, -, -, herr⟩ := firstRejected_busErrorAt hb hcut
    exact ⟨_, hacc.raises x hb, herr⟩
  · have hb : firstRejected s (windowAccesses s s.p.qrow.toNat s.p.qcol.toNat) x := ⟨pre, n, post, hl, ha, hr⟩
    obtain ⟨-, -, -, herr⟩ := firstRejected_busErrorAt (cut := s) hb ⟨rfl, rfl, rfl, rfl, rfl⟩
    exact ⟨_, execQsum_raises (queryChecks_of_queryFaultOf hq) hb, herr, rfl, rfl, rfl⟩
  · have hb : firstRejected s (pixelAccesses s s.p.qrow.toNat s.p.qcol.toNat) x := ⟨pre, n, post, hl, ha, hr⟩
    obtain ⟨-, -, -, herr⟩ := firstRejected_busErrorAt (cut := cutResults s) hb ⟨rfl, rfl, rfl, rfl, rfl⟩
    refine ⟨_, ?_, herr, rfl, rfl, rfl⟩
    exact (execQblur_eq_paintPixel (queryChecks_of_queryFaultOf hq)).trans (paintPixel_raises hb)

end Sys2Proof.Machine
end

section
/-! PROOFS. The engine writes the SAT grid and the output image alone. -/

namespace Sys2Proof.Machine

theorem sameBytesOutside_mono {q q' : Nat → Prop} {s t : State} (h : ∀ a, q a → q' a) (hs : sameBytesOutside q s t) :
    sameBytesOutside q' s t := fun a ha => hs a fun hq => ha (h a hq)

/-- A step changes bytes only where its last access or the cut does. -/
theorem Accesses.bytes {s cut t : State} {l : List (Nat × Nat)} {o : Host.Outcome State Fault Refusal} {q : Nat → Prop}
    (hacc : Accesses s l cut o) (hcut : sameBytesOutside q s cut)
    (hlast : ∀ y ∈ l.getLast?, ∀ a, inBytes y.1 y.2 a → q a) (h : o = .next t) : sameBytesOutside q s t := by
  by_cases he : t.engine = .faulted
  · obtain ⟨b, -, rfl⟩ := hacc.faulted t h he
    exact hcut
  · exact sameBytesOutside_mono (fun a ⟨y, hy, ha⟩ => hlast y hy a ha) (hacc.writes t h he)

/-! ## Where the accesses that write lie -/

theorem inSatGrid_of_cell {s : State} {r c a : Nat} (hr : r < hp s) (hc : c < wp s)
    (ha : inBytes (satAddr s r c) 16 a) : inSatGrid s a := by
  have hin := gridAddr_inside (base := s.p.sat.toNat) (es := 16) hr hc
  simp only [inBytes, satAddr] at ha
  simp only [inSatGrid]
  omega

theorem inImage_of_pixel {s : State} {r c a : Nat} (hr : (r : Int) < imgH s) (hc : (c : Int) < imgW s)
    (ha : inBytes (dstAddr s r c) 4 a) : inImage s a := by
  have hin := gridAddr_inside (base := s.p.dst.toNat) (es := 4) (rows := (imgH s).toNat) (cols := (imgW s).toNat)
    (r := r) (c := c) (by omega) (by omega)
  simp only [inBytes, dstAddr] at ha
  simp only [inImage]
  omega

/-- The access is that of a cell of the SAT grid. -/
def IsCell (s : State) (y : Nat × Nat) : Prop := ∃ r c, r < hp s ∧ c < wp s ∧ y = (satAddr s r c, 16)

theorem sentinelCell_inside {s : State} {z : Nat} (hh : 1 ≤ hp s) (hw : 1 ≤ wp s) (hz : z < hp s + wp s - 1) :
    (sentinelCell (wp s) z).1 < hp s ∧ (sentinelCell (wp s) z).2 < wp s := by
  unfold sentinelCell
  split <;> simp only <;> omega

/-- A running worker's cell lies in the grid (40_build.md R123). -/
theorem lastAccess_worker {pass : Pass} {i : Nat} {k : Worker} {s : State} {y : Nat × Nat} (hh : 1 ≤ hp s)
    (hw : 1 ≤ wp s) (hi : i < s.p.nwork.toNat) (hk : workerOk pass i k s)
    (hy : y ∈ (workerAccesses pass k s).getLast?) : IsCell s y := by
  cases pass with
  | one =>
    obtain ⟨-, hhi, -, -, -, -⟩ := hk
    simp only [workerAccesses] at hy
    split at hy
    · rename_i hin
      cases hy
      have := spanHi_le hw hi
      exact ⟨k.r, k.c, hin.1, by omega, rfl⟩
    · cases hy
  | two =>
    obtain ⟨-, hhi, -, -, -, -⟩ := hk
    simp only [workerAccesses] at hy
    split at hy
    · rename_i hin
      cases hy
      have := spanHi_le hh hi
      exact ⟨k.r, k.c, by omega, hin.2, rfl⟩
    · cases hy

/-- The last access of a step of a build is a cell of the grid. -/
theorem lastAccess_of_build {a : Agent} {c : CmdState} {s : State} {y : Nat × Nat} (hb : isBuild c) (hk : cmdOk c s)
    (hy : y ∈ (agentAccesses a c s).getLast?) : IsCell s y := by
  obtain ⟨hh, hw, -⟩ := buildChecks_none (cmdOk_buildChecks hb hk)
  cases c with
  | sentinels k z =>
    obtain ⟨-, -, hz⟩ := hk
    cases a with
    | sequencer =>
      cases hy
      obtain ⟨hr, hc⟩ := sentinelCell_inside hh hw hz
      exact ⟨_, _, hr, hc, rfl⟩
    | producer | consumer | worker i => cases hy
  | serial r k =>
    cases a with
    | sequencer =>
      simp only [agentAccesses] at hy
      split at hy
      · rename_i hin
        cases hy
        exact ⟨r, k, hin.1, hin.2, rfl⟩
      · cases hy
    | producer | consumer | worker i => cases hy
  | wave w =>
    obtain ⟨-, -, hwave⟩ := hk
    cases a with
    | producer =>
      simp only [agentAccesses] at hy
      split at hy
      · rename_i hin
        cases hy
        exact ⟨w.pr, w.pc, hin.2.1, hin.2.2, rfl⟩
      · cases hy
    | consumer =>
      simp only [agentAccesses] at hy
      split at hy
      · rename_i hin
        cases hy
        have hsafe := safeRow_lt_hp hh hwave
        obtain ⟨-, -, -, -, -, -, hdr, -⟩ := hwave
        have hcur := hdr hin.1
        exact ⟨w.cur, w.cc, by omega, hin.2, rfl⟩
      · cases hy
    | sequencer | worker i => cases hy
  | barrier b =>
    obtain ⟨-, -, hlen, -, hall⟩ := hk
    cases a with
    | worker i =>
      simp only [agentAccesses] at hy
      split at hy
      · rename_i k hki
        obtain ⟨hi, rfl⟩ := List.getElem?_eq_some_iff.mp hki
        split at hy
        · cases hy
        · exact lastAccess_worker hh hw (hlen ▸ hi) (hall i hi) hy
      · cases hy
    | sequencer | producer | consumer => cases hy
  | traverse ar ac acc old => exact hb.elim

/-- The last access of a step of `QAPPLY` is a Pixel of the image. -/
theorem lastAccess_of_traverse {a : Agent} {ar ac : Nat} {acc : Bool} {old : Memory} {s : State} {y : Nat × Nat}
    (hy : y ∈ (agentAccesses a (.traverse ar ac acc old) s).getLast?) :
    (ar : Int) < imgH s ∧ (ac : Int) < imgW s ∧ y = (dstAddr s ar ac, 4) := by
  cases a with
  | sequencer =>
    simp only [agentAccesses] at hy
    split at hy
    · rename_i hin
      cases hy
      exact ⟨hin.1, hin.2, rfl⟩
    · cases hy
  | producer | consumer | worker i => cases hy

/-! ## Agents, commands, the turn -/

/-- A step of an agent writes the grid of its command alone (20_memory.md R73). -/
theorem agentStep_bytes {a : Agent} {c : CmdState} {s t : State} (hk : cmdOk c s) (h : agentStep a c s = .next t) :
    sameBytesOutside (fun x => inSatGrid s x ∨ inImage s x) s t := by
  rcases isBuild_or_traverse c with hb | ⟨ar, ac, acc, old, rfl⟩
  · refine sameBytesOutside_mono (fun x => Or.inl) ((accesses_of_build hb a s).bytes (cutBuild_bytes s) ?_ h)
    intro y hy x hx
    obtain ⟨r, k, hr, hc, rfl⟩ := lastAccess_of_build hb hk hy
    exact inSatGrid_of_cell hr hc hx
  · refine sameBytesOutside_mono (fun x => Or.inr)
      ((accesses_of_traverse a ar ac acc old s).bytes (cutTraverse_bytes old s) ?_ h)
    intro y hy x hx
    obtain ⟨hr, hc, rfl⟩ := lastAccess_of_traverse hy
    exact inImage_of_pixel hr hc hx

/-- No command but `QBLUR` writes a byte in its first step (20_memory.md R73). -/
theorem ExecMove.mem_of_ne_qblur {i : Instr} {s t : State} (hx : ExecMove s i t) (hi : i ≠ .qblur) :
    t.mem = s.mem := by
  cases hx with
  | blurred | blurCut => exact absurd rfl hi
  | _ => rfl

/-- Passing the checks of a command that takes a position: it lies in the image (41_query.md R151). -/
theorem queryChecks_position {k : QueryKind} {s : State} (hk : k.takesPosition = true)
    (h : firstFault (queryChecks k s) = none) : (s.p.qrow.toNat : Int) < imgH s ∧ (s.p.qcol.toNat : Int) < imgW s := by
  rw [firstFault_eq_none] at h
  simp only [queryChecks, List.mem_cons, List.not_mem_nil, or_false, forall_eq_or_imp, forall_eq, hk, Bool.true_and,
    decide_eq_false_iff_not, not_le] at h
  obtain ⟨-, -, -, -, -, hr, hc, -⟩ := h
  exact ⟨hr, hc⟩

/-- `QBLUR` has checked that its Pixel lies in the image before it writes it (41_query.md R151). -/
theorem execQblur_bytes {s t : State} (h : execQblur s = .next t) : sameBytesOutside (inImage s) s t := by
  cases hc : firstFault (queryChecks .blur s) with
  | some x =>
    simp only [execQblur, hc] at h
    cases h
    exact fun a _ => rfl
  | none =>
    obtain ⟨hr, hcol⟩ := queryChecks_position rfl hc
    exact sameBytesOutside_mono (fun a => inImage_of_pixel hr hcol) (exec_move (i := .qblur) h).qblur_bytes

theorem exec_bytes {i : Instr} {s t : State} (h : exec i s = .next t) : sameBytesOutside (inImage s) s t := by
  by_cases hi : i = .qblur
  · subst hi
    exact execQblur_bytes h
  · intro a _
    rw [(exec_move h).mem_of_ne_qblur hi]

/-- The turn of a fetch raises a fault or runs the command that was fetched. -/
theorem fetchTurn_of_step {s s' t : State} (hm : engineMoves s s') (he : s'.engine = .busy .fetch)
    (h : step s = .next t) :
    (∃ code info, t = raiseFault code info s') ∨ ∃ i, exec i (noteFootprint (footprint i s') s') = .next t := by
  simp only [step, plan_fetch hm he] at h
  rcases fetchPlan_cases s' with e | ⟨a, -, e⟩ | ⟨why, -, e⟩ | ⟨w, e', -, -, e⟩ | ⟨w, i, -, -, e⟩ <;> rw [e] at h
  · cases h
  · cases h; exact .inl ⟨_, _, rfl⟩
  · cases h
  · cases h; exact .inl ⟨_, _, rfl⟩
  · exact .inr ⟨i, h⟩

/-- Settles O60: a command in its first step, an agent in every other one. -/
theorem engineWritesOnlyItsGrids : Obligations.EngineWritesOnlyItsGrids := by
  intro s t s' hi hm h
  have hs := engineMoves_eq hm
  have key : sameBytesOutside (fun a => inSatGrid s' a ∨ inImage s' a) s' t := by
    cases engineTurn_of_step hm h with
    | quiescent | fetchFault => exact fun a _ => rfl
    | command w i _ he hw hd hx =>
      rcases fetchTurn_of_step hm he h with ⟨code, info, rfl⟩ | ⟨j, hj⟩
      · exact fun a _ => rfl
      · exact sameBytesOutside_mono (fun a => Or.inr) (exec_bytes (s := noteFootprint (footprint j s') s') hj)
    | agent c a u _ he ha hu hx =>
      have hk : cmdOk c s' := (inv_engineMoves hm hi).cmdOk he
      rcases hu with rfl | rfl
      · exact agentStep_bytes hk hx
      · exact agentStep_bytes (s := { s' with draws := s'.draws + 1 }) hk hx
  rw [hs] at key
  exact key

end Sys2Proof.Machine
end

section
/-! PROOFS. The words of the commands: the decoder, the opcode map and the illegal list all speak of one set of words,
the encodings of the well-formed commands; and the two words of `SET`. -/

namespace Sys2Proof.Machine

/-! ## The fields of a word -/

/-- A word is its opcode and its operand field (30_encoding.md R90). -/
theorem word_eq_opcode_operands (w : Word) : w.extractLsb' 24 8 ++ w.extractLsb' 0 24 = w :=
  BitVec.extractLsb'_append_extractLsb'

/-- The operand field of format I is `pd`, bits 19:16 and `imm16` (30_encoding.md R92). -/
theorem operands_eq_formatI (w : Word) :
    w.extractLsb' 20 4 ++ (w.extractLsb' 16 4 ++ w.extractLsb' 0 16) = w.extractLsb' 0 24 := by
  rw [BitVec.extractLsb'_append_extractLsb'_eq_extractLsb' (start₂ := 16) rfl]
  exact BitVec.extractLsb'_append_extractLsb'_eq_extractLsb' rfl

section
variable (op : BitVec 8) (pd z : BitVec 4) (imm : BitVec 16)

@[simp] theorem formatI_pd : (op ++ (pd ++ (z ++ imm))).extractLsb' 20 4 = pd := by
  rw [BitVec.extractLsb'_append_eq_of_add_le (by decide)]
  exact BitVec.extractLsb'_append_eq_left

@[simp] theorem formatI_mustBeZero : (op ++ (pd ++ (z ++ imm))).extractLsb' 16 4 = z := by
  rw [BitVec.extractLsb'_append_eq_of_add_le (by decide), BitVec.extractLsb'_append_eq_of_add_le (by decide)]
  exact BitVec.extractLsb'_append_eq_left

@[simp] theorem formatI_imm : (op ++ (pd ++ (z ++ imm))).extractLsb' 0 16 = imm := by
  rw [BitVec.extractLsb'_append_eq_of_add_le (by decide), BitVec.extractLsb'_append_eq_of_add_le (by decide)]
  exact BitVec.extractLsb'_append_eq_right

end

@[simp] theorem encode_opcode (i : Instr) : (encode i).extractLsb' 24 8 = i.opcode :=
  BitVec.extractLsb'_append_eq_left

@[simp] theorem encode_operands (i : Instr) : (encode i).extractLsb' 0 24 = i.operandField :=
  BitVec.extractLsb'_append_eq_right

theorem encode_eq_of_fields {w : Word} {i : Instr} (ho : w.extractLsb' 24 8 = i.opcode)
    (hf : w.extractLsb' 0 24 = i.operandField) : encode i = w := by
  rw [← word_eq_opcode_operands w, ho, hf, encode]

theorem operands_of_mustBeZero {w : Word} (h : w.extractLsb' 16 4 = 0#4) :
    w.extractLsb' 0 24 = w.extractLsb' 20 4 ++ (0#4 ++ w.extractLsb' 0 16) := by
  rw [← operands_eq_formatI, h]

/-! ## The decoder -/

/-- The decoder's answer is right: a command with this word, or the word is on the list of illegal words
(30_encoding.md R96, R101). -/
def answersWord (w : Word) : Except DecodeError Instr → Prop
  | .ok i => encode i = w ∧ i.wellFormed = true
  | .error _ => illegalWord w

theorem decodeZ_answersWord {w : Word} {i : Instr} (ho : w.extractLsb' 24 8 = i.opcode) (hf : i.operandField = 0#24)
    (hi : i.wellFormed = true)
    (hz : i.opcode ∈ [0x01#8, 0x02#8, 0x10#8, 0x11#8, 0x12#8, 0x20#8, 0x21#8, 0x22#8, 0x23#8]) :
    answersWord w (decodeZ w i) := by
  unfold decodeZ
  split
  case isTrue h0 => exact ⟨encode_eq_of_fields ho (h0.trans hf.symm), hi⟩
  case isFalse h0 =>
    refine .inr (.inl ⟨?_, fun h => h0 (BitVec.eq_of_toNat_eq (by simpa using h))⟩)
    rw [ho]
    simpa [← BitVec.toNat_inj] using hz

theorem decodeI_answersWord {w : Word} {mk : BitVec 4 → BitVec 16 → Instr}
    (hmk : (mk = .setl ∧ w.extractLsb' 24 8 = 0x08#8) ∨ (mk = .seth ∧ w.extractLsb' 24 8 = 0x09#8)) :
    answersWord w (decodeI w mk) := by
  have hop : (w.extractLsb' 24 8).toNat = 0x08 ∨ (w.extractLsb' 24 8).toNat = 0x09 :=
    hmk.imp (fun h => congrArg BitVec.toNat h.2) (fun h => congrArg BitVec.toNat h.2)
  have hpd : (w.extractLsb' 20 4).toNat = w.toNat / 2 ^ 20 % 16 := by
    simp [BitVec.extractLsb'_toNat, Nat.shiftRight_eq_div_pow]
  unfold decodeI
  split
  case isTrue h0 =>
    split
    case isTrue h9 =>
      rcases hmk with ⟨rfl, ho⟩ | ⟨rfl, ho⟩ <;>
        exact ⟨encode_eq_of_fields ho (operands_of_mustBeZero h0), decide_eq_true h9⟩
    case isFalse h9 => exact .inr (.inr (.inr ⟨hop, by omega⟩))
  case isFalse h0 =>
    refine .inr (.inr (.inl ⟨hop, fun h => h0 (BitVec.eq_of_toNat_eq ?_)⟩))
    simpa [BitVec.extractLsb'_toNat, Nat.shiftRight_eq_div_pow] using h

/-- Branch by branch, in the order of the opcodes. -/
theorem decodeWord_answersWord (w : Word) : answersWord w (decodeWord w) := by
  unfold decodeWord
  refine iteInduction (fun h => decodeZ_answersWord h rfl rfl (by decide)) fun h1 => ?_
  refine iteInduction (fun h => decodeZ_answersWord h rfl rfl (by decide)) fun h2 => ?_
  refine iteInduction (fun h => ⟨encode_eq_of_fields h rfl, rfl⟩) fun h3 => ?_
  refine iteInduction (fun h => decodeI_answersWord (.inl ⟨rfl, h⟩)) fun h8 => ?_
  refine iteInduction (fun h => decodeI_answersWord (.inr ⟨rfl, h⟩)) fun h9 => ?_
  refine iteInduction (fun h => decodeZ_answersWord h rfl rfl (by decide)) fun h10 => ?_
  refine iteInduction (fun h => decodeZ_answersWord h rfl rfl (by decide)) fun h11 => ?_
  refine iteInduction (fun h => decodeZ_answersWord h rfl rfl (by decide)) fun h12 => ?_
  refine iteInduction (fun h => decodeZ_answersWord h rfl rfl (by decide)) fun h20 => ?_
  refine iteInduction (fun h => decodeZ_answersWord h rfl rfl (by decide)) fun h21 => ?_
  refine iteInduction (fun h => decodeZ_answersWord h rfl rfl (by decide)) fun h22 => ?_
  refine iteInduction (fun h => decodeZ_answersWord h rfl rfl (by decide)) fun h23 => ?_
  -- no opcode is left: case (a) of R96
  refine .inl ?_
  simp only [← BitVec.toNat_inj, BitVec.toNat_ofNat] at *
  omega

theorem decodeI_formatI (op : BitVec 8) {pd : BitVec 4} (imm : BitVec 16) (h : pd.toNat ≤ 9)
    (mk : BitVec 4 → BitVec 16 → Instr) : decodeI (op ++ (pd ++ (0#4 ++ imm))) mk = .ok (mk pd imm) := by
  simp only [decodeI, formatI_mustBeZero, formatI_pd, formatI_imm, h, if_true]

theorem decodeWord_encode {i : Instr} (h : i.wellFormed = true) : decodeWord (encode i) = .ok i := by
  cases i
  case jmp off => rw [decodeWord, encode_opcode, encode_operands]; rfl
  case setl pd imm => rw [decodeWord, encode_opcode]; exact decodeI_formatI _ _ (of_decide_eq_true h) _
  case seth pd imm => rw [decodeWord, encode_opcode]; exact decodeI_formatI _ _ (of_decide_eq_true h) _
  all_goals rfl

theorem decodeWord_ok_iff {w : Word} {i : Instr} :
    decodeWord w = .ok i ↔ encode i = w ∧ i.wellFormed = true := by
  constructor
  · intro h
    have ha := decodeWord_answersWord w
    rwa [h] at ha
  · rintro ⟨rfl, hi⟩
    exact decodeWord_encode hi

theorem illegalWord_of_decode_error {w : Word} {e : DecodeError} (h : decodeWord w = .error e) : illegalWord w := by
  have ha := decodeWord_answersWord w
  rwa [h] at ha

/-- A word of format I with bits 19:16 zero that names a register is not illegal (30_encoding.md R96). -/
theorem not_illegalWord_formatI {op : BitVec 8} {pd : BitVec 4} (imm : BitVec 16)
    (hop : op.toNat = 0x08 ∨ op.toNat = 0x09) (h : pd.toNat ≤ 9) : ¬ illegalWord (op ++ (pd ++ (0#4 ++ imm))) := by
  have hn := formatI_toNat op pd imm
  have himm := imm.isLt
  have ho : (op ++ (pd ++ (0#4 ++ imm))).extractLsb' 24 8 = op := BitVec.extractLsb'_append_eq_left
  simp only [illegalWord, ho, hn]
  omega

theorem not_illegalWord_encode {i : Instr} (h : i.wellFormed = true) : ¬ illegalWord (encode i) := by
  cases i
  case jmp off => simp [illegalWord, Instr.opcode]
  case setl pd imm => exact not_illegalWord_formatI imm (.inl rfl) (of_decide_eq_true h)
  case seth pd imm => exact not_illegalWord_formatI imm (.inr rfl) (of_decide_eq_true h)
  all_goals simp [illegalWord, encode, Instr.opcode, Instr.operandField]

/-- The illegal list is complete: it holds every word that decodes to no command, and no other. -/
theorem illegalWord_iff {w : Word} : illegalWord w ↔ ¬ ∃ i, decodeWord w = .ok i := by
  cases hd : decodeWord w with
  | error e => simpa using illegalWord_of_decode_error hd
  | ok i =>
    obtain ⟨rfl, hi⟩ := decodeWord_ok_iff.mp hd
    simpa using not_illegalWord_encode hi

/-- The fetch of an illegal word raises IllegalCommand with the word (60_exceptions.md R203). -/
theorem fetchPlan_illegal {s : State} {w : Word} (hc : contractBroken [fetchSpan s] s = false)
    (hw : fetchWord s = .ok w) (hill : illegalWord w) :
    fetchPlan s = .outcome (.next (raiseFault .illegalCommand w s)) := by
  cases hd : decodeWord w with
  | error e => simp only [fetchPlan, hc, hw, hd, Bool.false_eq_true, if_false]
  | ok i => exact absurd ⟨i, hd⟩ (illegalWord_iff.mp hill)

/-! ## The opcode map -/

theorem append_eq_append_iff {m n : Nat} {x x' : BitVec m} {y y' : BitVec n} :
    x ++ y = x' ++ y' ↔ x = x' ∧ y = y' := by
  refine ⟨fun h => ⟨?_, ?_⟩, fun ⟨hx, hy⟩ => hx ▸ hy ▸ rfl⟩
  · simpa only [BitVec.extractLsb'_append_eq_left] using congrArg (BitVec.extractLsb' n m) h
  · simpa only [BitVec.extractLsb'_append_eq_right] using congrArg (BitVec.extractLsb' 0 n) h

/-- Every mask keeps the opcode, and asks that the operand bits it keeps be 0 (30_encoding.md R95). -/
theorem masked_eq_iff {w : Word} {op : BitVec 8} {m : BitVec 24} :
    w &&& (0xFF#8 ++ m) = op ++ 0#24 ↔ w.extractLsb' 24 8 = op ∧ w.extractLsb' 0 24 &&& m = 0#24 := by
  have hop : w.extractLsb' 24 8 &&& 0xFF#8 = w.extractLsb' 24 8 := BitVec.and_allOnes
  conv_lhs => rw [← word_eq_opcode_operands w, BitVec.and_append, append_eq_append_iff, hop]

/-- A row of format Z (30_encoding.md R91). -/
theorem matchesRow_formatZ {w : Word} {op : BitVec 8} :
    matchesRow w (op, op ++ 0#24, 0xFFFFFFFF#32, false) ↔ w.extractLsb' 24 8 = op ∧ w.extractLsb' 0 24 = 0#24 := by
  have hlow : w.extractLsb' 0 24 &&& 0xFFFFFF#24 = w.extractLsb' 0 24 := BitVec.and_allOnes
  have hm := masked_eq_iff (w := w) (op := op) (m := 0xFFFFFF#24)
  rw [hlow] at hm
  exact ⟨fun h => hm.mp h.1, fun h => ⟨hm.mpr h, nofun⟩⟩

/-- A row of format J (30_encoding.md R93). -/
theorem matchesRow_formatJ {w : Word} {op : BitVec 8} :
    matchesRow w (op, op ++ 0#24, 0xFF000000#32, false) ↔ w.extractLsb' 24 8 = op :=
  have hm := masked_eq_iff (w := w) (op := op) (m := 0#24)
  ⟨fun h => (hm.mp h.1).1, fun h => ⟨hm.mpr ⟨h, BitVec.and_zero⟩, nofun⟩⟩

/-- A row of format I (30_encoding.md R92). -/
theorem matchesRow_formatI {w : Word} {op : BitVec 8} :
    matchesRow w (op, op ++ 0#24, 0xFF0F0000#32, true) ↔
      w.extractLsb' 24 8 = op ∧ w.extractLsb' 16 4 = 0#4 ∧ (w.extractLsb' 20 4).toNat ≤ 9 := by
  have hz : w.extractLsb' 0 24 &&& (0#4 ++ (0xF#4 ++ 0#16)) = 0#24 ↔ w.extractLsb' 16 4 = 0#4 := by
    have hF : w.extractLsb' 16 4 &&& 0xF#4 = w.extractLsb' 16 4 := BitVec.and_allOnes
    rw [← operands_eq_formatI, BitVec.and_append, BitVec.and_append, hF, BitVec.and_zero, BitVec.and_zero,
      show (0#24 : BitVec 24) = 0#4 ++ (0#4 ++ 0#16) from rfl, append_eq_append_iff, append_eq_append_iff]
    simp
  have hm := masked_eq_iff (w := w) (op := op) (m := 0#4 ++ (0xF#4 ++ 0#16))
  rw [hz] at hm
  exact ⟨fun h => ⟨(hm.mp h.1).1, (hm.mp h.1).2, h.2 rfl⟩, fun ⟨ho, h0, h9⟩ => ⟨hm.mpr ⟨ho, h0⟩, fun _ => h9⟩⟩

/-- The row of a command: its opcode, and the mask of its format (30_encoding.md R95). -/
def rowOf (i : Instr) : BitVec 8 × Word × Word × Bool :=
  match i with
  | .jmp _ => (i.opcode, i.opcode ++ 0#24, 0xFF000000#32, false)
  | .setl _ _ | .seth _ _ => (i.opcode, i.opcode ++ 0#24, 0xFF0F0000#32, true)
  | _ => (i.opcode, i.opcode ++ 0#24, 0xFFFFFFFF#32, false)

theorem rowOf_opcode (i : Instr) : (rowOf i).1 = i.opcode := by cases i <;> rfl

/-- A command for each row of the opcode map, in the order of the map. -/
def rowCommands : List Instr :=
  [.nop, .halt, .jmp 0#24, .setl 0#4 0#16, .seth 0#4 0#16, .buildS, .buildW, .buildB, .qsum, .qblur, .qapply, .rdcell]

theorem opcodeRows_eq : opcodeRows = rowCommands.map rowOf := by decide

theorem rowOf_mem (i : Instr) : rowOf i ∈ opcodeRows := by
  rw [opcodeRows_eq]
  cases i
  case jmp off => exact List.mem_map.mpr ⟨.jmp 0#24, by simp [rowCommands], rfl⟩
  case setl pd imm => exact List.mem_map.mpr ⟨.setl 0#4 0#16, by simp [rowCommands], rfl⟩
  case seth pd imm => exact List.mem_map.mpr ⟨.seth 0#4 0#16, by simp [rowCommands], rfl⟩
  all_goals exact List.mem_map_of_mem (by simp [rowCommands])

theorem exists_rowOf_of_mem {row : BitVec 8 × Word × Word × Bool} (h : row ∈ opcodeRows) : ∃ i, row = rowOf i := by
  rw [opcodeRows_eq] at h
  obtain ⟨i, -, hi⟩ := List.mem_map.mp h
  exact ⟨i, hi.symm⟩

/-- Rows differ in their opcodes. -/
theorem row_eq_of_opcode {x y : BitVec 8 × Word × Word × Bool} (hx : x ∈ opcodeRows) (hy : y ∈ opcodeRows)
    (h : x.1 = y.1) : x = y :=
  have hn : (opcodeRows.map Prod.fst).Nodup := by decide
  List.inj_on_of_nodup_map hn hx hy h

theorem matchesRow_formatI_word {op : BitVec 8} {pd : BitVec 4} (imm : BitVec 16) (h : pd.toNat ≤ 9) :
    matchesRow (op ++ (pd ++ (0#4 ++ imm))) (op, op ++ 0#24, 0xFF0F0000#32, true) := by
  rw [matchesRow_formatI, formatI_pd, formatI_mustBeZero]
  exact ⟨BitVec.extractLsb'_append_eq_left, rfl, h⟩

theorem matchesRow_rowOf {i : Instr} (h : i.wellFormed = true) : matchesRow (encode i) (rowOf i) := by
  cases i
  case jmp off => exact matchesRow_formatJ.mpr (encode_opcode _)
  case setl pd imm => exact matchesRow_formatI_word imm (of_decide_eq_true h)
  case seth pd imm => exact matchesRow_formatI_word imm (of_decide_eq_true h)
  all_goals exact matchesRow_formatZ.mpr ⟨encode_opcode _, encode_operands _⟩

/-- A word that matches a row is that of a command with the row's opcode. -/
theorem exists_command_of_matchesRow {w : Word} {i : Instr} (h : matchesRow w (rowOf i)) :
    ∃ j, decodeWord w = .ok j ∧ j.opcode = i.opcode := by
  suffices ∃ j, encode j = w ∧ j.wellFormed = true ∧ j.opcode = i.opcode by
    obtain ⟨j, he, hj, ho⟩ := this
    exact ⟨j, decodeWord_ok_iff.mpr ⟨he, hj⟩, ho⟩
  cases i
  case jmp off => exact ⟨.jmp (w.extractLsb' 0 24), encode_eq_of_fields (matchesRow_formatJ.mp h) rfl, rfl, rfl⟩
  case setl pd imm =>
    obtain ⟨ho, h0, h9⟩ := matchesRow_formatI.mp h
    exact ⟨.setl (w.extractLsb' 20 4) (w.extractLsb' 0 16), encode_eq_of_fields ho (operands_of_mustBeZero h0),
      decide_eq_true h9, rfl⟩
  case seth pd imm =>
    obtain ⟨ho, h0, h9⟩ := matchesRow_formatI.mp h
    exact ⟨.seth (w.extractLsb' 20 4) (w.extractLsb' 0 16), encode_eq_of_fields ho (operands_of_mustBeZero h0),
      decide_eq_true h9, rfl⟩
  all_goals
    obtain ⟨ho, h0⟩ := matchesRow_formatZ.mp h
    exact ⟨_, encode_eq_of_fields ho h0, rfl, rfl⟩

/-- A word decodes to a command exactly when it matches a row (30_encoding.md R95). -/
theorem exists_decode_iff {w : Word} : (∃ i, decodeWord w = .ok i) ↔ ∃ row ∈ opcodeRows, matchesRow w row := by
  constructor
  · rintro ⟨i, hd⟩
    obtain ⟨rfl, hi⟩ := decodeWord_ok_iff.mp hd
    exact ⟨rowOf i, rowOf_mem i, matchesRow_rowOf hi⟩
  · rintro ⟨row, hr, hm⟩
    obtain ⟨i, rfl⟩ := exists_rowOf_of_mem hr
    obtain ⟨j, hd, -⟩ := exists_command_of_matchesRow hm
    exact ⟨j, hd⟩

/-! ## The two words of `SET` -/

@[simp] theorem pregOf_number (r : PReg) : pregOf (PReg.number r) = some r := by cases r <;> rfl

/-- `SETL` of an existing register writes it and completes (42_sequencer.md R185). -/
theorem exec_setl_number (r : PReg) (imm : BitVec 16) (s : State) :
    exec (.setl (PReg.number r) imm) s = .next (complete (setParam r (imm.zeroExtend 32) s)) := by
  simp only [exec, execSetl, writeParam, pregOf_number]

/-- `SETH` of an existing register keeps its low half and completes (42_sequencer.md R186). -/
theorem exec_seth_number (r : PReg) (imm : BitVec 16) (s : State) :
    exec (.seth (PReg.number r) imm) s =
      .next (complete (setParam r (imm ++ (s.p.get r).extractLsb' 0 16) s)) := by
  simp only [exec, execSeth, writeParam, pregOf_number]

/-- The high half over the zero-extended low half is the constant (30_encoding.md R100). -/
theorem high_append_low (v : Word) :
    v.extractLsb' 16 16 ++ ((v.extractLsb' 0 16).zeroExtend 32).extractLsb' 0 16 = v := by
  rw [BitVec.zeroExtend, BitVec.extractLsb'_setWidth_of_le (by decide), BitVec.extractLsb'_eq_self]
  exact BitVec.extractLsb'_append_extractLsb'

/-! ## The obligations -/

/-- Settles O1: the decoder answers `i` exactly on the word of a well-formed `i`. -/
theorem decodeEncodeWellFormed : Obligations.DecodeEncodeWellFormed := by
  intro i
  simp only [decodeWord_ok_iff, true_and]

/-- Settles O2: the same characterisation of the decoder, read from left to right. -/
theorem encodeDecodeLegalWord : Obligations.EncodeDecodeLegalWord := fun _ _ => decodeWord_ok_iff.mp

/-- Settles O3: the row of a decoded command is `rowOf`, and two rows of one word have the opcode of its command. -/
theorem legalWordsMatchOneRow : Obligations.LegalWordsMatchOneRow := by
  refine ⟨fun w => exists_decode_iff, fun w i hd => ?_, fun w x hx y hy hwx hwy => ?_⟩
  · obtain ⟨rfl, hi⟩ := decodeWord_ok_iff.mp hd
    exact ⟨rowOf i, rowOf_mem i, matchesRow_rowOf hi, rowOf_opcode i⟩
  · obtain ⟨i, rfl⟩ := exists_rowOf_of_mem hx
    obtain ⟨j, rfl⟩ := exists_rowOf_of_mem hy
    obtain ⟨k, hk, hki⟩ := exists_command_of_matchesRow hwx
    obtain ⟨k', hk', hkj⟩ := exists_command_of_matchesRow hwy
    obtain rfl : k = k' := Except.ok.inj (hk.symm.trans hk')
    exact row_eq_of_opcode hx hy (by rw [rowOf_opcode, rowOf_opcode, ← hki, hkj])

/-- Settles O4: the illegal words are those without a command, and the fetch of one is the fault. -/
theorem illegalWordRaisesIllegalCommand : Obligations.IllegalWordRaisesIllegalCommand := by
  refine ⟨fun w => ?_, fun s s' w hm he hc hw hill => ?_⟩
  · simp only [illegalWord_iff, exists_decode_iff, not_exists, not_and]
  · have hs := engineMoves_eq hm
    have he' : s'.engine = .busy .fetch := by rw [hs]; exact he
    have hc' : contractBroken [fetchSpan s'] s' = false := by rw [hs]; exact hc
    simp only [step, plan_fetch hm he', fetchPlan_illegal hc' hw hill]
    rfl

/-- Settles O6: `SETL` leaves the low half and `SETH` puts the high half over it. -/
theorem setPseudoLoadsConstant : Obligations.SetPseudoLoadsConstant := by
  intro s r v
  refine ⟨_, _, _, _, rfl, exec_setl_number _ _ _, exec_seth_number _ _ _, ?_, fun r' hr => ?_⟩
  · simp only [complete_p, setParam_p, get_set_same, high_append_low]
  · simp only [complete_p, setParam_p, get_set_other _ _ hr]

end Sys2Proof.Machine
end

section
/-! PROOFS. How a build starts and how it completes: the check table, the partition of the workers, the completion. -/

namespace Sys2Proof.Machine

/-! ## The checks of a build -/

/-- The list the model checks is the table of 40_build.md R113. -/
theorem buildFaultOf_eq (k : Strategy) (s : State) : buildFaultOf k s = reported (buildChecks k s) := by
  have hzero (w : Word) : w = 0#32 ↔ w.toNat = 0 := BitVec.toNat_eq
  have hspace : (2 : Nat) ^ 32 = Config.addrSpace := rfl
  simp only [buildFaultOf, buildChecks, reported_cons, hzero, hspace, Bool.or_eq_true, Bool.and_eq_true,
    decide_eq_true_eq, Nat.dvd_iff_mod_eq_zero, gt_iff_lt, ne_eq, FaultCode.number, reported_nil]

theorem buildFaultOf_eq_none {k : Strategy} {s : State} :
    buildFaultOf k s = none ↔ firstFault (buildChecks k s) = none := by
  rw [buildFaultOf_eq, reported, Option.map_eq_none_iff]

/-- No check of a build reports BusError, so its faults are precise (60_exceptions.md R211). -/
theorem buildChecks_not_busError {k : Strategy} {s : State} {code : FaultCode} {info : Word}
    (h : firstFault (buildChecks k s) = some (code, info)) : code ≠ .busError := by
  have hm := firstFault_some_mem h
  simp only [buildChecks, List.mem_cons, List.not_mem_nil, or_false, Prod.mk.injEq] at hm
  rintro rfl
  simp at hm

theorem raiseFault_eq_afterFault {code : FaultCode} (h : code ≠ .busError) (info : Word) (s : State) :
    raiseFault code info s = afterFault code.number info s := by
  simp only [raiseFault, afterFault, h, decide_false]

theorem exec_buildCommand (k : Strategy) (s : State) : exec (buildCommand k) s = startBuild k s := by
  cases k <;> rfl

/-- A build whose checks pass starts with the first sentinel (40_build.md R114, R115). -/
theorem startBuild_of_checks {k : Strategy} {s : State} (h : firstFault (buildChecks k s) = none) :
    startBuild k s = .next (setCmd (.sentinels k 0) { s with satValid := false, satOvf := false }) := by
  simp only [startBuild, h]

/-- Settles O15: the list is the table, and none of its faults is the fatal one. -/
theorem buildRaisesFirstFault : Obligations.BuildRaisesFirstFault := by
  intro k s
  rw [exec_buildCommand]
  refine ⟨fun code info h => ?_, fun h => ⟨_, startBuild_of_checks (buildFaultOf_eq_none.mp h), by simp⟩⟩
  rw [buildFaultOf_eq, reported, Option.map_eq_some_iff] at h
  obtain ⟨⟨c, i⟩, hf, he⟩ := h
  cases he
  simp only [startBuild, hf, raiseFault_eq_afterFault (buildChecks_not_busError hf)]

/-- Settles O16. -/
theorem buildStartsWhenChecksPass : Obligations.BuildStartsWhenChecksPass := by
  intro k s h
  rw [exec_buildCommand, startBuild_of_checks (buildFaultOf_eq_none.mp h)]
  rfl

/-! ## Completion -/

/-- An aligned `cp` advances to an aligned `cp` (10_state.md R23, R24). -/
theorem cpAligned_add {s : State} (h : cpAligned s) : (s.cp + 4#32) &&& 0xFFFFFFFC#32 = s.cp + 4#32 := by
  refine aligned_eq_self ?_
  simp only [BitVec.toNat_add, BitVec.toNat_ofNat]
  have h : s.cp.toNat % 4 = 0 := h
  omega

theorem completeBuild_of_aligned {s : State} (h : cpAligned s) :
    completeBuild s = { s with satValid := true, cp := s.cp + 4#32, engine := .busy .fetch } := by
  simp only [completeBuild, complete, setCp, cpAligned_add h]

/-- Settles O24: in each strategy the finished agents leave the sequencer the completion alone. -/
theorem buildCompletion : Obligations.BuildCompletion := by
  intro s c ha h
  rw [← completeBuild_of_aligned ha]
  rcases h with ⟨r, k, rfl, hout⟩ | ⟨w, rfl, hd, hm, hc⟩ | ⟨b, rfl, hp2, hn⟩
  · have : ¬ (r < hp s ∧ k < wp s) := by omega
    simp only [agentStep, serialStep, this, if_false]
  · have hj : waveJoined w s = true := by simp [waveJoined, hd, hm, hc]
    simp only [agentStep, hj, if_true]
  · have hall : allArrived b = true := by simp [allArrived, hn]
    simp only [agentStep, hall, if_true, barrierOpens, hp2]

/-! ## The partition -/

theorem spanLo_mono (l n : Nat) : Monotone (spanLo l n) := monotone_nat_of_le_succ (spanLo_le_spanHi l n)

theorem spanLo_self {l n : Nat} (hl : 1 ≤ l) (hn : 1 ≤ n) : spanLo l n n = l := by
  rw [spanLo, Nat.mul_div_cancel_left _ hn]
  omega

/-- An index below the start of span `m` is in one of the spans before it (40_build.md R123). -/
theorem exists_span {l n i : Nat} (hi : 1 ≤ i) :
    ∀ m, i < spanLo l n m → ∃ w, w < m ∧ spanLo l n w ≤ i ∧ i < spanHi l n w := by
  intro m
  induction m with
  | zero => intro h; rw [spanLo_zero] at h; omega
  | succ m ih =>
    intro h
    by_cases hm : i < spanLo l n m
    · obtain ⟨w, hw, hin⟩ := ih hm
      exact ⟨w, by omega, hin⟩
    · exact ⟨m, by omega, by omega, h⟩

/-- Every index of a pass is in the span of a worker. -/
theorem exists_worker_span {l n i : Nat} (hn : 1 ≤ n) (hi : 1 ≤ i) (hl : i < l) :
    ∃ w, w < n ∧ spanLo l n w ≤ i ∧ i < spanHi l n w :=
  exists_span hi n (by rwa [spanLo_self (by omega) hn])

/-- Two spans that share an index are one span. -/
theorem span_unique {l n i v w : Nat} (hv : spanLo l n v ≤ i ∧ i < spanHi l n v)
    (hw : spanLo l n w ≤ i ∧ i < spanHi l n w) : v = w := by
  rcases Nat.lt_trichotomy v w with h | h | h
  · have := spanLo_mono l n (show v + 1 ≤ w from h)
    rw [← spanHi_eq_spanLo] at this
    omega
  · exact h
  · have := spanLo_mono l n (show w + 1 ≤ v from h)
    rw [← spanHi_eq_spanLo] at this
    omega

theorem one_le_spanLo (l n w : Nat) : 1 ≤ spanLo l n w := Nat.le_add_right _ _

/-- Settles O25: the starts of the spans rise from 1 to `l`. -/
theorem partitionCoversOnce : Obligations.PartitionCoversOnce := by
  intro l n hl hn
  refine ⟨fun w => ⟨rfl, rfl⟩, fun w i hw hlo hhi => ?_, fun i hi hil => ?_⟩
  · have := one_le_spanLo l n w
    have := spanHi_le hl hw
    omega
  · obtain ⟨w, hw, hin⟩ := exists_worker_span hn hi hil
    exact ⟨w, hw, hin.1, hin.2, fun v _ h1 h2 => span_unique ⟨h1, h2⟩ hin⟩

end Sys2Proof.Machine
end

section
/-! PROOFS. The channels of a cell law, and the steps of the agents of a build: one cell each, or a cursor. -/

namespace Sys2Proof.Machine

/-! ## Channels -/

theorem quad_ext {α : Type} {x y : Quad α} (h : ∀ ch, chan x ch = chan y ch) : x = y := by
  obtain ⟨r, g, b, a⟩ := x
  obtain ⟨r', g', b', a'⟩ := y
  have hr : r = r' := h .r
  have hg : g = g' := h .g
  have hb : b = b' := h .b
  have ha : a = a' := h .a
  rw [hr, hg, hb, ha]

@[simp] theorem chan_map {α β : Type} (f : α → β) (q : Quad α) (ch : Channel) :
    chan (Quad.map f q) ch = f (chan q ch) := by cases ch <;> rfl

@[simp] theorem chan_zip {α β γ : Type} (f : α → β → γ) (x : Quad α) (y : Quad β) (ch : Channel) :
    chan (Quad.zip f x y) ch = f (chan x ch) (chan y ch) := by cases ch <;> rfl

@[simp] theorem chan_perChannel {α : Type} (f : (Nat → Nat → Nat) → α) (px : Nat → Nat → Quad Byte) (ch : Channel) :
    chan (perChannel f px) ch = f fun r c => (chan (px r c) ch).toNat := by cases ch <;> rfl

theorem quad_any_iff {α : Type} (f : α → Bool) (q : Quad α) :
    Quad.any f q = true ↔ ∃ ch, f (chan q ch) = true := by
  simp only [Quad.any, Bool.or_eq_true]
  constructor
  · rintro (((h | h) | h) | h)
    · exact ⟨.r, h⟩
    · exact ⟨.g, h⟩
    · exact ⟨.b, h⟩
    · exact ⟨.a, h⟩
  · rintro ⟨ch, h⟩
    cases ch with
    | r => exact .inl (.inl (.inl h))
    | g => exact .inl (.inl (.inr h))
    | b => exact .inl (.inr h)
    | a => exact .inr h

theorem chan_colExact (px : Quad Byte) (up : Quad Word) (ch : Channel) :
    chan (colExact px up) ch = ((chan px ch).toNat : Int) + (chan up ch).toNat := by
  simp only [colExact, chan_zip, byteInt, wordInt]

theorem chan_rowExact (cur left : Quad Word) (ch : Channel) :
    chan (rowExact cur left) ch = ((chan cur ch).toNat : Int) + (chan left ch).toNat := by
  simp only [rowExact, chan_zip, wordInt]

theorem chan_serialExact (px : Quad Byte) (up left diag : Quad Word) (ch : Channel) :
    chan (serialExact px up left diag) ch =
      ((chan px ch).toNat : Int) + (chan up ch).toNat + (chan left ch).toNat - (chan diag ch).toNat := by
  simp only [serialExact, chan_zip, chan_map, chan_colExact, wordInt]

theorem exceeds_iff (v : Int) : exceeds v = true ↔ (2 : Int) ^ 32 ≤ v := by
  have hm : (maxSum : Int) = 2 ^ 32 - 1 := by decide
  rw [exceeds, decide_eq_true_eq, hm]
  omega

/-- The one clamp of a law, at both ends (00_scope.md R7). -/
theorem sat32_toInt (v : Int) : ((sat32 v).toNat : Int) = max 0 (min (2 ^ 32 - 1) v) := by
  have hm : maxSum = 2 ^ 32 - 1 := by decide
  rcases Int.lt_or_le v 0 with h | h
  · rw [sat32_of_neg h, BitVec.toNat_ofNat]
    omega
  · rw [sat32_toNat_of_nonneg h]
    omega

theorem sat32_toNat (n : Nat) : (sat32 n).toNat = min (2 ^ 32 - 1) n := sat32_toNat_of_nonneg (Int.natCast_nonneg n)

/-- Settles O17: each law is its whole expression in each channel, and the clamp and the test see that value. -/
theorem cellLawsClampOnce : Obligations.CellLawsClampOnce := by
  intro px up left diag ch
  simp only [chan_colExact, chan_rowExact, chan_serialExact, exceeds_iff]
  refine ⟨by exact_mod_cast sat32_toNat _, by exact_mod_cast sat32_toNat _, sat32_toInt _, ?_, ?_, ?_⟩ <;> omega

/-! ## A step that updates a cell -/

/-- What a step writes in a cell: zero, or one of the three laws of 40_build.md R112. -/
inductive Law where
  | zero | col | row | serial

/-- The accesses of a cell step. -/
def Law.cell (law : Law) (s : State) (r c : Nat) : Except Stop State :=
  match law with
  | .zero => satW s r c ⟨0#32, 0#32, 0#32, 0#32⟩
  | .col => colCell s r c
  | .row => rowCell s r c
  | .serial => serialCell s r c

theorem satW_zero_eq_cellUpdate (s : State) (r c : Nat) :
    satW s r c ⟨0#32, 0#32, 0#32, 0#32⟩ = cellUpdate s r c ⟨0, 0, 0, 0⟩ := by
  have hz : Quad.map sat32 ⟨0, 0, 0, 0⟩ = ⟨0#32, 0#32, 0#32, 0#32⟩ := by decide
  have he : Quad.any exceeds ⟨0, 0, 0, 0⟩ = false := by decide
  simp only [cellUpdate, hz, he, Bool.or_false]
  cases h : satW s r c ⟨0#32, 0#32, 0#32, 0#32⟩ with
  | error e => rfl
  | ok t =>
    obtain ⟨-, rfl⟩ := satW_ok_iff.mp h
    rfl

/-- A cell does not depend on the cursor of the command. -/
theorem satR_setCmd (k : CmdState) (s : State) (r c : Nat) : satR (setCmd k s) r c = satR s r c :=
  satR_congr rfl rfl fun _ _ _ => rfl

/-- What a cell step leaves: the clamped value in its cell, the flag, the cursor, and everything else as it was. -/
structure CellStepped (s : State) (r c : Nat) (x : Quad Int) (k : CmdState) (t : State) : Prop where
  wrote : wroteCell r c (Quad.map sat32 x) s t
  only : onlyCellChanged s t
  ovf : t.satOvf = (s.satOvf || Quad.any exceeds x)
  engine : t.engine = .busy (.exec k)

/-- A cell step whose cell is plain memory goes on (40_build.md R112, R130). -/
theorem buildStep_cellUpdate {s : State} {r c : Nat} (x : Quad Int) (k : CmdState)
    (hpl : plainBytes (satAddr s r c) 16 s) :
    ∃ t, buildStep (cellUpdate s r c x) s (setCmd k) = .next t ∧ CellStepped s r c x k t := by
  obtain ⟨u, hu⟩ : ∃ u, cellUpdate s r c x = .ok u :=
    ⟨_, cellUpdate_ok_iff.mpr ⟨fun i hi => hpl _ ⟨Nat.le_add_right _ i, by omega⟩, rfl⟩⟩
  obtain ⟨-, he⟩ := cellUpdate_ok_iff.mp hu
  have hbytes := cellUpdate_bytes hu
  refine ⟨setCmd k u, by rw [hu]; rfl, ⟨(satR_setCmd k u r c).trans (satR_cellUpdate_same hu), hbytes⟩, ?_, ?_, rfl⟩
  · rw [he]; rfl
  · rw [he]; rfl

/-- A cell that can be read is plain memory. -/
theorem plainBytes_of_satR {s : State} {r c : Nat} {q : Quad Word} (h : satR s r c = .ok q) :
    plainBytes (satAddr s r c) 16 s := by
  obtain ⟨v, hv⟩ := satR_readable_iff.mpr ⟨q, h⟩
  have hpl := portCheck_ok_iff.mp (memRead_ok_iff.mp hv).1
  rintro a ⟨h1, h2⟩
  have := hpl (a - satAddr s r c) (by omega)
  rwa [Nat.add_sub_cancel' h1] at this

theorem colCell_of_reads {s : State} {r c : Nat} {px : Quad Byte} {up : Quad Word} (hpx : readPx s r c = .ok px)
    (hup : satR s (r - 1) c = .ok up) : colCell s r c = cellUpdate s r c (colExact px up) := by
  simp only [colCell, hpx, hup]

theorem rowCell_of_reads {s : State} {r c : Nat} {x left : Quad Word} (hx : satR s r c = .ok x)
    (hl : satR s r (c - 1) = .ok left) : rowCell s r c = cellUpdate s r c (rowExact x left) := by
  simp only [rowCell, hx, hl]

theorem serialCell_of_reads {s : State} {r c : Nat} {px : Quad Byte} {up left diag : Quad Word}
    (hpx : readPx s r c = .ok px) (hup : satR s (r - 1) c = .ok up) (hl : satR s r (c - 1) = .ok left)
    (hd : satR s (r - 1) (c - 1) = .ok diag) :
    serialCell s r c = cellUpdate s r c (serialExact px up left diag) := by
  simp only [serialCell, hpx, hup, hl, hd]

/-! ## Sentinels and serial -/

theorem pass1_workers (s : State) {w : Nat} (hw : w < s.p.nwork.toNat) :
    (pass1 s).workers[w]? = some (pass1Worker s w) := by
  simp [pass1, hw]

theorem pass2_workers (s : State) {w : Nat} (hw : w < s.p.nwork.toNat) :
    (pass2 s).workers[w]? = some (pass2Worker s w) := by
  simp [pass2, hw]

/-- Settles O18: the step is a cell update with zero, and the strategy's start is what the rules tabulate. -/
theorem sentinelStepZeroesOneCell : Obligations.SentinelStepZeroesOneCell := by
  intro s k z r c hz hcell hpl
  have hrc : sentinelCell (wp s) z = (r, c) := hcell.symm
  obtain ⟨t, ht, hs⟩ := buildStep_cellUpdate ⟨0, 0, 0, 0⟩
    (if z + 1 < hp s + wp s - 1 then .sentinels k (z + 1) else strategyStart k s) hpl
  refine ⟨t, ?_, hs.wrote, hs.only, ?_, fun h => ?_, fun h => ?_⟩
  · rw [← ht, ← satW_zero_eq_cellUpdate]
    simp only [agentStep, sentinelStep, hrc]
  · rw [hs.ovf]
    exact Bool.or_false _
  · rw [hs.engine, if_pos h]
  · have he : t.engine = .busy (.exec (strategyStart k s)) := by rw [hs.engine, if_neg (by omega)]
    refine ⟨?_, ?_, ?_⟩ <;> rintro rfl
    · exact he
    · exact he
    · exact ⟨pass1 s, he, rfl, rfl, by simp [pass1], fun w hw => ⟨_, rfl, pass1_workers s hw⟩⟩

/-- Settles O19. -/
theorem serialCellStep : Obligations.SerialCellStep := by
  intro s r c px up left diag hr hc hpx hup hl hd hpl
  obtain ⟨t, ht, hs⟩ := buildStep_cellUpdate (serialExact px up left diag)
    (if c + 1 < wp s then .serial r (c + 1) else .serial (r + 1) 1) hpl
  refine ⟨t, ?_, hs.wrote, hs.only, hs.ovf, hs.engine⟩
  rw [← ht, ← serialCell_of_reads hpx hup hl hd]
  simp only [agentStep, serialStep, hr, hc, and_self, if_true]

/-! ## Wavefront -/

theorem producerStep_cell {s : State} {w : Wave} (hd : w.pdone = false) (hr : w.pr < hp s) (hc : w.pc < wp s) :
    producerStep w s = buildStep (colCell s w.pr w.pc) s (setCmd (.wave { w with pc := w.pc + 1 })) := by
  simp only [producerStep, hd, hr, hc, Bool.false_eq_true, if_false, if_true]

theorem producerStep_rowEnd {s : State} {w : Wave} (hd : w.pdone = false) (hr : w.pr < hp s) (hc : wp s ≤ w.pc) :
    producerStep w s = .next (setCmd (.wave (producerRowEnd s.p.batch.toNat w)) s) := by
  simp only [producerStep, hd, hr, Nat.not_lt.mpr hc, Bool.false_eq_true, if_false, if_true]

theorem producerStep_final {s : State} {w : Wave} (hd : w.pdone = false) (hr : hp s ≤ w.pr) :
    producerStep w s = .next (setCmd (.wave { w with safeRow := hp s - 1, pdone := true }) s) := by
  simp only [producerStep, hd, Nat.not_lt.mpr hr, Bool.false_eq_true, if_false]

theorem consumerStep_wake {s : State} {w : Wave} (hm : w.mode = .waiting) (hc : w.cur < hp s) (hs : w.cur ≤ w.safeRow) :
    consumerStep w s = .next (setCmd (.wave { w with limit := w.safeRow, mode := .draining, cc := 1 }) s) := by
  simp only [consumerStep, hm, hc, hs, and_self, if_true]

theorem consumerStep_cell {s : State} {w : Wave} (hm : w.mode = .draining) (hc : w.cc < wp s) :
    consumerStep w s = buildStep (rowCell s w.cur w.cc) s (setCmd (.wave { w with cc := w.cc + 1 })) := by
  simp only [consumerStep, hm, hc, if_true]

theorem consumerStep_rowEnd {s : State} {w : Wave} (hm : w.mode = .draining) (hc : wp s ≤ w.cc) :
    consumerStep w s = .next (setCmd (.wave (consumerRowEnd w)) s) := by
  simp only [consumerStep, hm, Nat.not_lt.mpr hc, if_false]

/-- Settles O20, by the producer's four steps. -/
theorem producerSteps : Obligations.ProducerSteps := by
  intro s w hd
  refine ⟨fun px up hr hc hpx hup hpl => ?_, fun hr hc hb => ?_, fun hr hc hb => ?_, fun hr => ?_⟩
  · obtain ⟨t, ht, hs⟩ := buildStep_cellUpdate (colExact px up) (.wave { w with pc := w.pc + 1 }) hpl
    refine ⟨t, ?_, hs.wrote, hs.only, hs.ovf, hs.engine⟩
    rw [← ht, ← colCell_of_reads hpx hup]
    exact producerStep_cell hd hr hc
  · simp only [agentStep, producerStep_rowEnd hd hr hc, producerRowEnd, hb, if_true]
    rfl
  · simp only [agentStep, producerStep_rowEnd hd hr hc, producerRowEnd, hb, if_false]
    rfl
  · exact producerStep_final hd hr

/-- The agents of the wavefront that have a step (40_build.md R118 to R120). -/
theorem mem_enabledAgents_wave {a : Agent} {w : Wave} {s : State} : a ∈ enabledAgents (.wave w) s ↔
    (a = .producer ∧ w.pdone = false) ∨ (a = .consumer ∧ consumerEnabled w s = true) ∨
      (a = .sequencer ∧ waveJoined w s = true) := by
  simp only [enabledAgents, List.mem_append]
  cases w.pdone <;> cases consumerEnabled w s <;> cases waveJoined w s <;> simp [or_assoc]

theorem consumerEnabled_waiting {w : Wave} (s : State) (hm : w.mode = .waiting) :
    consumerEnabled w s = true ↔ w.cur < hp s ∧ w.cur ≤ w.safeRow := by
  simp only [consumerEnabled, hm, Bool.and_eq_true, decide_eq_true_eq]

/-- Settles O21, by the consumer's hold and its three steps. -/
theorem consumerSteps : Obligations.ConsumerSteps := by
  intro s w
  refine ⟨fun hm => by simp [mem_enabledAgents_wave, consumerEnabled_waiting s hm], fun hm hc hs => ?_,
    fun x left hm hc hx hl => ?_, fun hm hc => ⟨_, rfl, ?_⟩⟩
  · exact consumerStep_wake hm hc hs
  · obtain ⟨t, ht, hs⟩ := buildStep_cellUpdate (rowExact x left) (.wave { w with cc := w.cc + 1 })
      (plainBytes_of_satR hx)
    refine ⟨t, ?_, hs.wrote, hs.only, hs.ovf, hs.engine⟩
    rw [← ht, ← rowCell_of_reads hx hl]
    exact consumerStep_cell hm hc
  · exact consumerStep_rowEnd hm hc

/-! ## Two-Pass-Barrier -/

/-- The worker still has a cell to compute in its pass (40_build.md R124, R126). -/
def Worker.hasCell (pass : Pass) (k : Worker) (s : State) : Prop :=
  match pass with
  | .one => k.r < hp s ∧ k.c < k.hi
  | .two => k.r < k.hi ∧ k.c < wp s

/-- The cell law of a pass. -/
def passLaw : Pass → Law
  | .one => .col
  | .two => .row

/-- The worker after a cell of its pass. -/
def Worker.next (pass : Pass) (s : State) (k : Worker) : Worker :=
  match pass with
  | .one => nextInPass1 k
  | .two => nextInPass2 (wp s) k

section
variable {s : State} {b : Barrier} {i : Nat} {k : Worker}

theorem workerStep_cell (hk : b.workers[i]? = some k) (ha : k.arrived = false) (hin : k.hasCell b.pass s) :
    workerStep i b s =
      buildStep ((passLaw b.pass).cell s k.r k.c) s (setCmd (.barrier (setWorker b i (k.next b.pass s)))) := by
  simp only [workerStep, hk, ha]
  cases hpass : b.pass <;> rw [hpass] at hin <;> exact if_pos hin

theorem workerStep_arrive (hk : b.workers[i]? = some k) (ha : k.arrived = false) (hout : ¬ k.hasCell b.pass s) :
    workerStep i b s = .next (setCmd (.barrier (arrive b i k)) s) := by
  simp only [workerStep, hk, ha]
  cases hpass : b.pass <;> rw [hpass] at hout <;> exact if_neg hout

end

/-- Settles O22: a cell of the worker's pass, or its arrival. -/
theorem workerSteps : Obligations.WorkerSteps := by
  intro s b i k hk ha
  refine ⟨fun px up hp1 hr hc hpx hup hpl => ?_, fun x left hp2 hr hc hx hl => ?_, fun hout => ⟨_, rfl, ?_⟩⟩
  · obtain ⟨t, ht, hs⟩ := buildStep_cellUpdate (colExact px up) (.barrier (setWorker b i (nextInPass1 k))) hpl
    refine ⟨t, _, ?_, hs.wrote, hs.only, hs.ovf, rfl, hs.engine⟩
    rw [← ht, ← colCell_of_reads hpx hup]
    exact (workerStep_cell hk ha (by rw [hp1]; exact ⟨hr, hc⟩)).trans (by rw [hp1]; rfl)
  · obtain ⟨t, ht, hs⟩ := buildStep_cellUpdate (rowExact x left) (.barrier (setWorker b i (nextInPass2 (wp s) k)))
      (plainBytes_of_satR hx)
    refine ⟨t, _, ?_, hs.wrote, hs.only, hs.ovf, rfl, hs.engine⟩
    rw [← ht, ← rowCell_of_reads hx hl]
    exact (workerStep_cell hk ha (by rw [hp2]; exact ⟨hr, hc⟩)).trans (by rw [hp2]; rfl)
  · refine workerStep_arrive hk ha ?_
    rcases hout with ⟨hp1, hout⟩ | ⟨hp2, hout⟩
    · rw [hp1]; exact hout
    · rw [hp2]; exact hout

theorem mem_runningWorkers {a : Agent} {b : Barrier} : a ∈ runningWorkers b ↔
    ∃ i k, a = .worker i ∧ b.workers[i]? = some k ∧ k.arrived = false := by
  simp only [runningWorkers, List.mem_map, List.mem_filter, List.mem_range]
  constructor
  · rintro ⟨i, ⟨hi, ha⟩, rfl⟩
    rw [List.getElem?_eq_getElem hi] at ha
    exact ⟨i, _, rfl, List.getElem?_eq_getElem hi, by simpa using ha⟩
  · rintro ⟨i, k, rfl, hk, ha⟩
    obtain ⟨hi, -⟩ := List.getElem?_eq_some_iff.mp hk
    exact ⟨i, ⟨hi, by simp [hk, ha]⟩, rfl⟩

/-- The agents of `BUILD.B` that have a step (40_build.md R122, R125). -/
theorem mem_enabledAgents_barrier {a : Agent} {b : Barrier} {s : State} : a ∈ enabledAgents (.barrier b) s ↔
    (∃ i k, a = .worker i ∧ b.workers[i]? = some k ∧ k.arrived = false) ∨
      (a = .sequencer ∧ b.arrivedCount = b.workers.length) := by
  simp only [enabledAgents, List.mem_append, mem_runningWorkers, allArrived, decide_eq_true_eq]
  split <;> simp_all

/-- A worker's step stays in its pass. -/
theorem workerStep_pass {i : Nat} {b b' : Barrier} {s t : State} (h : workerStep i b s = .next t)
    (ht : t.engine = .busy (.exec (.barrier b'))) : b'.pass = b.pass := by
  cases hk : b.workers[i]? with
  | none => simp only [workerStep, hk] at h; cases h
  | some k =>
    cases ha : k.arrived with
    | true => simp only [workerStep, hk, ha, if_true] at h; cases h
    | false =>
      by_cases hin : k.hasCell b.pass s
      · rw [workerStep_cell hk ha hin] at h
        rcases buildStep_engine h with e | e <;> rw [e] at ht <;> cases ht
        rfl
      · rw [workerStep_arrive hk ha hin] at h
        cases h
        cases ht
        rfl

/-- Settles O23: the release is the sequencer's alone, and a worker stays in its pass. -/
theorem barrierOpensWhenAllArrived : Obligations.BarrierOpensWhenAllArrived := by
  intro s b
  refine ⟨by simp [mem_enabledAgents_barrier], fun hn hp1 => ?_, fun a t b' h hp1 ht hp2 => ?_⟩
  · refine ⟨(pass2 s).workers, by simp [pass2], fun w hw => ⟨_, rfl, pass2_workers s hw⟩, ?_⟩
    simp only [agentStep, allArrived, hn, decide_true, if_true, barrierOpens, hp1]
    rfl
  · cases a with
    | sequencer =>
      simp only [agentStep] at h
      split at h
      · rename_i hall
        exact ⟨rfl, by simpa [allArrived] using hall⟩
      · cases h
    | producer | consumer => cases h
    | worker i =>
      have := workerStep_pass (h : workerStep i b s = .next t) ht
      rw [hp1, hp2] at this
      cases this

end Sys2Proof.Machine
end

section
/-! PROOFS. Producer and consumer of the wavefront never touch each other's cells (40_build.md R121, I3). -/

namespace Sys2Proof.Machine

/-- Two cells of the SAT grid that share a byte are one cell (20_memory.md R63). -/
theorem cell_unique {s : State} {r c r' c' a : Nat} (hc : c < wp s) (hc' : c' < wp s)
    (h : inBytes (satAddr s r c) 16 a) (h' : inBytes (satAddr s r' c') 16 a) : r = r' ∧ c = c' := by
  by_contra hne
  have hne : (r, c) ≠ (r', c') := fun e => hne (Prod.mk.inj e)
  have := gridAddr_apart (base := s.p.sat.toNat) (es := 16) hc hc' hne
  simp only [inBytes, satAddr] at h h'
  omega

/-- No byte of a Pixel that a build reads lies in the SAT grid: the checks rule the overlap out (40_build.md R113). -/
theorem pixel_not_inSatGrid {k : Strategy} {s : State} {r c a : Nat} (hk : firstFault (buildChecks k s) = none)
    (hr : r < hp s) (hc : c < wp s) (ha : inBytes (pxAddr s r c) 4 a) : ¬ inSatGrid s a := by
  obtain ⟨-, -, -, -, -, -, hov⟩ := buildChecks_none hk
  have hin := gridAddr_inside (base := s.p.src.toNat) (es := 4) hr hc
  simp only [inBytes, pxAddr] at ha
  simp only [inSatGrid]
  omega

section
variable {s : State} {w : Wave}

/-- The cell a step of the producer writes, if it writes one. -/
theorem producer_lastAccess {y : Nat × Nat} (hy : y ∈ (agentAccesses .producer (.wave w) s).getLast?) :
    w.pr < hp s ∧ w.pc < wp s ∧ y = (satAddr s w.pr w.pc, 16) := by
  simp only [agentAccesses] at hy
  split at hy
  · rename_i hin
    cases hy
    exact ⟨hin.2.1, hin.2.2, rfl⟩
  · cases hy

/-- The cell a step of the consumer writes, if it writes one. -/
theorem consumer_lastAccess {y : Nat × Nat} (hy : y ∈ (agentAccesses .consumer (.wave w) s).getLast?) :
    w.mode = .draining ∧ w.cc < wp s ∧ y = (satAddr s w.cur w.cc, 16) := by
  simp only [agentAccesses] at hy
  split at hy
  · rename_i hin
    cases hy
    exact ⟨hin.1, hin.2, rfl⟩
  · cases hy

/-- The cells a step of the consumer accesses are of its row. -/
theorem consumer_access {x n : Nat} (h : (x, n) ∈ agentAccesses .consumer (.wave w) s) :
    w.mode = .draining ∧ ∃ c, c < wp s ∧ x = satAddr s w.cur c ∧ n = 16 := by
  simp only [agentAccesses] at h
  split at h
  · rename_i hin
    simp only [rowAccesses, List.mem_cons, Prod.mk.injEq, List.not_mem_nil, or_false] at h
    refine ⟨hin.1, ?_⟩
    rcases h with ⟨hx, hn⟩ | ⟨hx, hn⟩ | ⟨hx, hn⟩
    · exact ⟨w.cc, hin.2, hx, hn⟩
    · exact ⟨w.cc - 1, by omega, hx, hn⟩
    · exact ⟨w.cc, hin.2, hx, hn⟩
  · cases h

/-- A step of the producer accesses its Pixel and cells of its row and of the row above. -/
theorem producer_access {x n : Nat} (h : (x, n) ∈ agentAccesses .producer (.wave w) s) :
    w.pr < hp s ∧ w.pc < wp s ∧
      ((x = pxAddr s w.pr w.pc ∧ n = 4) ∨ ∃ r, (r = w.pr - 1 ∨ r = w.pr) ∧ x = satAddr s r w.pc ∧ n = 16) := by
  simp only [agentAccesses] at h
  split at h
  · rename_i hin
    simp only [colAccesses, List.mem_cons, Prod.mk.injEq, List.not_mem_nil, or_false] at h
    refine ⟨hin.2.1, hin.2.2, ?_⟩
    rcases h with h | ⟨hx, hn⟩ | ⟨hx, hn⟩
    · exact .inl h
    · exact .inr ⟨w.pr - 1, .inl rfl, hx, hn⟩
    · exact .inr ⟨w.pr, .inr rfl, hx, hn⟩
  · cases h

/-- While the producer has a step, the certified rows lie above its row and the row it reads (I1, I2). -/
theorem drained_above_producer (hw : waveOk w s) (hd : w.pdone = false) {r : Nat} (h1 : w.cur ≤ r)
    (h2 : r ≤ w.safeRow) : r + 1 < w.pr := by
  obtain ⟨-, -, hcur, -, hI1, -⟩ := hw
  have := hI1 hd
  omega

end

/-- Settles O32: the producer writes a row below every row the consumer may access, and the Pixels lie apart from the
grid. -/
theorem wavefrontRowsApart : Obligations.WavefrontRowsApart := by
  intro s t w hi he hp hc ht
  obtain ⟨hk, -, hw⟩ := hi.cmdOk he
  have hd : w.pdone = false := by simpa [mem_enabledAgents_wave] using hp
  have hdrain : w.mode = .draining → w.cur ≤ w.safeRow := fun hm => by
    obtain ⟨-, -, -, -, -, -, hdr, -⟩ := hw
    exact Nat.le_trans (hdr hm).1 (hdr hm).2
  refine ⟨fun h => ?_, fun h x n a hx ha => ?_⟩
  · have key : ∀ r c a, w.cur ≤ r → r ≤ w.safeRow → c < wp s → inBytes (satAddr s r c) 16 a →
        t.mem.byteAt a = s.mem.byteAt a := fun r c a h1 h2 hcw ha => by
      refine (accesses_of_build (c := .wave w) trivial _ s).writes t h ht a fun ⟨y, hy, hay⟩ => ?_
      obtain ⟨-, hpc, rfl⟩ := producer_lastAccess hy
      have := drained_above_producer hw hd h1 h2
      have := cell_unique hcw hpc ha hay
      omega
    refine ⟨fun x n a hx ha => ?_, key⟩
    obtain ⟨hm, c, hcw, rfl, rfl⟩ := consumer_access hx
    exact key w.cur c a (Nat.le_refl _) (hdrain hm) hcw ha
  · refine (accesses_of_build (c := .wave w) trivial _ s).writes t h ht a fun ⟨y, hy, hay⟩ => ?_
    obtain ⟨hm, hcc, rfl⟩ := consumer_lastAccess hy
    have habove := drained_above_producer hw hd (Nat.le_refl _) (hdrain hm)
    obtain ⟨hpr, hpc, hpx | ⟨r, hr, hcell⟩⟩ := producer_access hx
    · obtain ⟨rfl, rfl⟩ := hpx
      exact pixel_not_inSatGrid hk hpr hpc ha (inSatGrid_of_cell (by omega) hcc hay)
    · obtain ⟨rfl, rfl⟩ := hcell
      have := cell_unique hpc hcc ha hay
      omega

end Sys2Proof.Machine
end

section
/-! PROOFS. Every command in flight ends: what an enabled agent of a build does, as data; how many steps are left; the
run by the engine alone. -/

namespace Sys2Proof.Machine

/-! ## What an enabled agent does -/

/-- A step of an agent of a build: a cell update, a move of the cursors alone, or the completion. -/
inductive Action where
  | cell (law : Law) (r c : Nat) (next : CmdState)
  | move (next : CmdState)
  | complete

/-- The step that the action is. -/
def Action.run (s : State) : Action → Host.Outcome State Fault Refusal
  | .cell law r c next => buildStep (law.cell s r c) s (setCmd next)
  | .move next => .next (setCmd next s)
  | .complete => .next (completeBuild s)

/-- The substate the action leads to; none after the completion. -/
def Action.next : Action → Option CmdState
  | .cell _ _ _ next => some next
  | .move next => some next
  | .complete => none

/-- The actions an enabled agent can take inside a build (40_build.md R115 to R126). -/
inductive Acts (s : State) : CmdState → Action → Prop
  | zCell (k : Strategy) (z : Nat) :
      Acts s (.sentinels k z) (.cell .zero (sentinelCell (wp s) z).1 (sentinelCell (wp s) z).2
        (if z + 1 < hp s + wp s - 1 then .sentinels k (z + 1) else strategyStart k s))
  | sCell (r c : Nat) (hin : r < hp s ∧ c < wp s) :
      Acts s (.serial r c)
        (.cell .serial r c (if c + 1 < wp s then .serial r (c + 1) else .serial (r + 1) 1))
  | scanned (r c : Nat) (hout : ¬ (r < hp s ∧ c < wp s)) : Acts s (.serial r c) .complete
  | pCell (w : Wave) (hd : w.pdone = false) (hr : w.pr < hp s) (hc : w.pc < wp s) :
      Acts s (.wave w) (.cell .col w.pr w.pc (.wave { w with pc := w.pc + 1 }))
  | pRowEnd (w : Wave) (hd : w.pdone = false) (hr : w.pr < hp s) (hc : wp s ≤ w.pc) :
      Acts s (.wave w) (.move (.wave (producerRowEnd s.p.batch.toNat w)))
  | pFinal (w : Wave) (hd : w.pdone = false) (hr : hp s ≤ w.pr) :
      Acts s (.wave w) (.move (.wave { w with safeRow := hp s - 1, pdone := true }))
  | cWake (w : Wave) (hm : w.mode = .waiting) (hr : w.cur < hp s) (hs : w.cur ≤ w.safeRow) :
      Acts s (.wave w) (.move (.wave { w with limit := w.safeRow, mode := .draining, cc := 1 }))
  | cCell (w : Wave) (hm : w.mode = .draining) (hc : w.cc < wp s) :
      Acts s (.wave w) (.cell .row w.cur w.cc (.wave { w with cc := w.cc + 1 }))
  | cRowEnd (w : Wave) (hm : w.mode = .draining) (hc : wp s ≤ w.cc) :
      Acts s (.wave w) (.move (.wave (consumerRowEnd w)))
  | joined (w : Wave) (hd : w.pdone = true) (hm : w.mode = .waiting) (hr : hp s ≤ w.cur) : Acts s (.wave w) .complete
  | wCell (b : Barrier) (i : Nat) (k : Worker) (hk : b.workers[i]? = some k) (ha : k.arrived = false)
      (hin : k.hasCell b.pass s) :
      Acts s (.barrier b) (.cell (passLaw b.pass) k.r k.c (.barrier (setWorker b i (k.next b.pass s))))
  | arrived (b : Barrier) (i : Nat) (k : Worker) (hk : b.workers[i]? = some k) (ha : k.arrived = false)
      (hout : ¬ k.hasCell b.pass s) : Acts s (.barrier b) (.move (.barrier (arrive b i k)))
  | released (b : Barrier) (hpass : b.pass = .one) (hn : b.arrivedCount = b.workers.length) :
      Acts s (.barrier b) (.move (.barrier (pass2 s)))
  | opened (b : Barrier) (hpass : b.pass = .two) (hn : b.arrivedCount = b.workers.length) :
      Acts s (.barrier b) .complete

theorem acts_of_producer {w : Wave} {s : State} (hd : w.pdone = false) :
    ∃ x, Acts s (.wave w) x ∧ producerStep w s = x.run s := by
  by_cases hr : w.pr < hp s
  · by_cases hc : w.pc < wp s
    · exact ⟨_, .pCell w hd hr hc, producerStep_cell hd hr hc⟩
    · exact ⟨_, .pRowEnd w hd hr (Nat.le_of_not_lt hc), producerStep_rowEnd hd hr (Nat.le_of_not_lt hc)⟩
  · exact ⟨_, .pFinal w hd (Nat.le_of_not_lt hr), producerStep_final hd (Nat.le_of_not_lt hr)⟩

theorem acts_of_consumer {w : Wave} {s : State} (he : consumerEnabled w s = true) :
    ∃ x, Acts s (.wave w) x ∧ consumerStep w s = x.run s := by
  cases hm : w.mode with
  | waiting =>
    obtain ⟨hr, hs⟩ := (consumerEnabled_waiting s hm).mp he
    exact ⟨_, .cWake w hm hr hs, consumerStep_wake hm hr hs⟩
  | draining =>
    by_cases hc : w.cc < wp s
    · exact ⟨_, .cCell w hm hc, consumerStep_cell hm hc⟩
    · exact ⟨_, .cRowEnd w hm (Nat.le_of_not_lt hc), consumerStep_rowEnd hm (Nat.le_of_not_lt hc)⟩

theorem acts_of_worker {b : Barrier} {i : Nat} {k : Worker} {s : State} (hk : b.workers[i]? = some k)
    (ha : k.arrived = false) : ∃ x, Acts s (.barrier b) x ∧ workerStep i b s = x.run s := by
  by_cases hin : k.hasCell b.pass s
  · exact ⟨_, .wCell b i k hk ha hin, workerStep_cell hk ha hin⟩
  · exact ⟨_, .arrived b i k hk ha hin, workerStep_arrive hk ha hin⟩

theorem acts_of_sequencer {b : Barrier} {s : State} (hn : b.arrivedCount = b.workers.length) :
    ∃ x, Acts s (.barrier b) x ∧ barrierOpens b s = x.run s := by
  cases hpass : b.pass with
  | one => exact ⟨_, .released b hpass hn, by simp only [barrierOpens, hpass]; rfl⟩
  | two => exact ⟨_, .opened b hpass hn, by simp only [barrierOpens, hpass]; rfl⟩

/-- Every step of an enabled agent of a build is one of the actions. -/
theorem acts_of_enabled {a : Agent} {c : CmdState} {s : State} (hb : isBuild c) (ha : a ∈ enabledAgents c s) :
    ∃ x, Acts s c x ∧ agentStep a c s = x.run s := by
  cases c with
  | sentinels k z =>
    obtain rfl : a = .sequencer := by simpa [enabledAgents] using ha
    exact ⟨_, .zCell k z, rfl⟩
  | serial r c =>
    obtain rfl : a = .sequencer := by simpa [enabledAgents] using ha
    by_cases hin : r < hp s ∧ c < wp s
    · exact ⟨_, .sCell r c hin, if_pos hin⟩
    · exact ⟨_, .scanned r c hin, if_neg hin⟩
  | wave w =>
    rcases mem_enabledAgents_wave.mp ha with ⟨rfl, hd⟩ | ⟨rfl, he⟩ | ⟨rfl, hj⟩
    · exact acts_of_producer hd
    · exact acts_of_consumer he
    · have hj' := hj
      simp only [waveJoined, Bool.and_eq_true, decide_eq_true_eq] at hj'
      obtain ⟨⟨hd, hm⟩, hr⟩ := hj'
      exact ⟨_, .joined w hd hm hr, if_pos hj⟩
  | barrier b =>
    rcases mem_enabledAgents_barrier.mp ha with ⟨i, k, rfl, hk, hka⟩ | ⟨rfl, hn⟩
    · exact acts_of_worker hk hka
    · obtain ⟨x, hx, he⟩ := acts_of_sequencer (s := s) hn
      exact ⟨x, hx, (if_pos (decide_eq_true hn)).trans he⟩
  | traverse ar ac acc old => exact hb.elim

/-! ## How many steps are left -/

/-- The steps left of two nested loops whose cursor is `(r, c)`: one per cell of the rows `r .. rend - 1` and the
columns `cbeg .. cend - 1`, and one to leave them. -/
def loopLeft (r rend c cbeg cend : Nat) : Nat :=
  if r < rend ∧ c < cend then (rend - r) * (cend - cbeg) - (c - cbeg) + 1 else 1

theorem loopLeft_of_out {r rend c cbeg cend : Nat} (h : ¬ (r < rend ∧ c < cend)) : loopLeft r rend c cbeg cend = 1 :=
  if_neg h

theorem loopLeft_start (r rend cbeg cend : Nat) :
    loopLeft r rend cbeg cbeg cend = (rend - r) * (cend - cbeg) + 1 := by
  unfold loopLeft
  split
  · rw [Nat.sub_self, Nat.sub_zero]
  · rename_i h
    rcases Nat.lt_or_ge r rend with hr | hr
    · rw [Nat.sub_eq_zero_of_le (show cend ≤ cbeg by omega), Nat.mul_zero]
    · rw [Nat.sub_eq_zero_of_le hr, Nat.zero_mul]

theorem loopLeft_next_col {r rend c cbeg cend : Nat} (hr : r < rend) (hb : cbeg ≤ c) (hc : c + 1 < cend) :
    loopLeft r rend (c + 1) cbeg cend + 1 = loopLeft r rend c cbeg cend := by
  have h := Nat.le_mul_of_pos_left (cend - cbeg) (show 0 < rend - r by omega)
  rw [loopLeft, loopLeft, if_pos ⟨hr, hc⟩, if_pos ⟨hr, by omega⟩]
  omega

theorem mul_sub_succ {h r : Nat} (n : Nat) (hr : r < h) : (h - r) * n = (h - (r + 1)) * n + n := by
  rw [← Nat.succ_mul, show (h - (r + 1)).succ = h - r by omega]

theorem loopLeft_next_row {r rend c cbeg cend : Nat} (hr : r < rend) (hb : cbeg ≤ c) (hc : c < cend)
    (he : cend ≤ c + 1) : loopLeft (r + 1) rend cbeg cbeg cend + 1 = loopLeft r rend c cbeg cend := by
  have h := mul_sub_succ (cend - cbeg) hr
  rw [loopLeft_start, loopLeft, if_pos ⟨hr, hc⟩]
  omega

theorem loopLeft_next_row_lt {r rend c cbeg cend : Nat} (hr : r < rend) (hb : cbeg ≤ c) (hc : c < cend) :
    loopLeft (r + 1) rend cbeg cbeg cend < loopLeft r rend c cbeg cend := by
  have h := mul_sub_succ (cend - cbeg) hr
  rw [loopLeft_start, loopLeft, if_pos ⟨hr, hc⟩]
  omega

/-- The steps left of the producer: the cells and the end of each row, and `P-FINAL`. -/
def producerLeft (w : Wave) (s : State) : Nat :=
  if w.pdone then 0 else (hp s - w.pr) * wp s - (w.pc - 1) + 1

/-- A bound on the steps left of the consumer: in each row a wake-up, its cells and its end. -/
def consumerLeft (w : Wave) (s : State) : Nat :=
  (hp s - w.cur) * (wp s + 1) - (if w.mode = .draining then w.cc else 0)

/-- The steps left of a worker in its pass, its arrival included. -/
def Worker.left (pass : Pass) (s : State) (k : Worker) : Nat :=
  if k.arrived then 0
  else
    match pass with
    | .one => loopLeft k.r (hp s) k.c k.lo k.hi
    | .two => loopLeft k.r k.hi k.c 1 (wp s)

/-- The steps left of the workers of a pass. -/
def workersLeft (pass : Pass) (s : State) (ks : List Worker) : Nat := (ks.map (Worker.left pass s)).sum

/-- The steps left of `BUILD.B`: of the workers of this pass, the release with the whole of pass 2, the completion. -/
def barrierLeft (b : Barrier) (s : State) : Nat :=
  match b.pass with
  | .one => workersLeft .one s b.workers + 1 + workersLeft .two s (pass2 s).workers + 1
  | .two => workersLeft .two s b.workers + 1

/-- The steps left of the agents of a command after the sentinels. -/
def agentsLeft (c : CmdState) (s : State) : Nat :=
  match c with
  | .sentinels _ _ => 0
  | .serial r k => loopLeft r (hp s) k 1 (wp s)
  | .wave w => producerLeft w s + consumerLeft w s + 1
  | .barrier b => barrierLeft b s
  | .traverse ar ac _ _ => loopLeft ar (imgH s).toNat ac 0 (imgW s).toNat

/-- The steps left of a command in flight; for the wavefront a bound. -/
def remaining (c : CmdState) (s : State) : Nat :=
  match c with
  | .sentinels k z => (hp s + wp s - 1 - z) + agentsLeft (strategyStart k s) s
  | _ => agentsLeft c s

theorem remaining_of_not_sentinels {c : CmdState} (h : ∀ k z, c ≠ .sentinels k z) (s : State) :
    remaining c s = agentsLeft c s := by
  cases c with
  | sentinels k z => exact absurd rfl (h k z)
  | serial | wave | barrier | traverse => rfl

/-- The steps left after an action. -/
def Action.left (s : State) (x : Action) : Nat :=
  match x.next with
  | some next => remaining next s
  | none => 0

theorem workersLeft_set {pass : Pass} {s : State} {ks : List Worker} {i : Nat} {k k' : Worker} (hk : ks[i]? = some k)
    (h : k'.left pass s + 1 = k.left pass s) :
    workersLeft pass s (ks.set i k') + 1 = workersLeft pass s ks := by
  induction ks generalizing i with
  | nil => cases hk
  | cons y ks ih =>
    cases i with
    | zero =>
      cases hk
      simp only [workersLeft, List.set_cons_zero, List.map_cons, List.sum_cons]
      omega
    | succ i =>
      have := ih (i := i) hk
      simp only [workersLeft, List.set_cons_succ, List.map_cons, List.sum_cons] at this ⊢
      omega

/-- A cell is one step of its worker. -/
theorem Worker.left_next {pass : Pass} {i : Nat} {k : Worker} {s : State} (ha : k.arrived = false)
    (hin : k.hasCell pass s) (hok : workerOk pass i k s) : (k.next pass s).left pass s + 1 = k.left pass s := by
  cases pass with
  | one =>
    obtain ⟨hr, hc⟩ := hin
    obtain ⟨-, -, -, -, hlo, -⟩ := hok
    simp only [Worker.left, Worker.next, ha, Bool.false_eq_true, if_false, nextInPass1]
    split
    · rename_i h
      exact loopLeft_next_col hr hlo h
    · rename_i h
      exact loopLeft_next_row hr hlo hc (Nat.le_of_not_lt h)
  | two =>
    obtain ⟨hr, hc⟩ := hin
    obtain ⟨-, -, -, -, hlo, -⟩ := hok
    simp only [Worker.left, Worker.next, ha, Bool.false_eq_true, if_false, nextInPass2]
    split
    · rename_i h
      exact loopLeft_next_col hr hlo h
    · rename_i h
      exact loopLeft_next_row hr hlo hc (Nat.le_of_not_lt h)

theorem Worker.left_arrived {pass : Pass} {k : Worker} {s : State} (h : k.arrived = true) : k.left pass s = 0 :=
  if_pos h

/-- Without a cell the arrival is the one step left. -/
theorem Worker.left_of_no_cell {pass : Pass} {k : Worker} {s : State} (ha : k.arrived = false)
    (hout : ¬ k.hasCell pass s) : k.left pass s = 1 := by
  cases pass <;> simp only [Worker.left, ha, Bool.false_eq_true, if_false] <;> exact loopLeft_of_out hout

/-- The barrier's count is full exactly when every worker has arrived (40_build.md R125). -/
theorem arrived_of_count {b : Barrier} {s : State} (hok : barrierOk b s) (hn : b.arrivedCount = b.workers.length) :
    ∀ k ∈ b.workers, k.arrived = true := by
  obtain ⟨-, hcount, -⟩ := hok
  exact List.countP_eq_length.mp (hcount.symm.trans hn)

theorem workersLeft_of_arrived {pass : Pass} {s : State} {ks : List Worker} (h : ∀ k ∈ ks, k.arrived = true) :
    workersLeft pass s ks = 0 := by
  refine List.sum_eq_zero fun n hn => ?_
  obtain ⟨k, hk, rfl⟩ := List.mem_map.mp hn
  exact Worker.left_arrived (h k hk)

/-- A change of one worker by one step is one step of the command. -/
theorem barrierLeft_set {b : Barrier} {s : State} {i n : Nat} {k k' : Worker} (hk : b.workers[i]? = some k)
    (h : k'.left b.pass s + 1 = k.left b.pass s) :
    barrierLeft { b with arrivedCount := n, workers := b.workers.set i k' } s + 1 = barrierLeft b s := by
  have hset := workersLeft_set hk h
  unfold barrierLeft
  cases hpass : b.pass <;> rw [hpass] at hset <;> simp only <;> omega

/-- In `BUILD.B` an action is one step of those left. -/
theorem Acts.left_barrier {b : Barrier} {s : State} {x : Action} (h : Acts s (.barrier b) x) (hok : barrierOk b s) :
    x.left s + 1 = barrierLeft b s := by
  cases h with
  | wCell _ i k hk ha hin =>
    obtain ⟨-, -, hall⟩ := hok
    obtain ⟨hi, rfl⟩ := List.getElem?_eq_some_iff.mp hk
    exact barrierLeft_set (n := b.arrivedCount) hk (Worker.left_next ha hin (hall i hi))
  | arrived _ i k hk ha hout =>
    refine barrierLeft_set hk ?_
    rw [Worker.left_arrived rfl, Worker.left_of_no_cell ha hout]
  | released _ hpass hn =>
    have hz := workersLeft_of_arrived (pass := .one) (s := s) (arrived_of_count hok hn)
    simp only [barrierLeft, hpass, hz]
    show workersLeft .two s (pass2 s).workers + 1 + 1 = _
    omega
  | opened _ hpass hn =>
    have hz := workersLeft_of_arrived (pass := .two) (s := s) (arrived_of_count hok hn)
    simp only [barrierLeft, hpass, hz]
    rfl

/-- In `BUILD.S` an action is one step of those left. -/
theorem Acts.left_serial {r c : Nat} {s : State} {x : Action} (h : Acts s (.serial r c) x) (hc : 1 ≤ c) :
    x.left s + 1 = loopLeft r (hp s) c 1 (wp s) := by
  cases h with
  | sCell _ _ hin =>
    obtain ⟨hr, hcw⟩ := hin
    simp only [Action.left, Action.next]
    split
    · rename_i hlt
      exact loopLeft_next_col hr hc hlt
    · exact loopLeft_next_row hr hc hcw (by omega)
  | scanned _ _ hout => exact (loopLeft_of_out hout).symm

theorem remaining_wave (w : Wave) (s : State) :
    remaining (.wave w) s = producerLeft w s + consumerLeft w s + 1 := rfl

/-- In `BUILD.W` an action brings the bound down. -/
theorem Acts.left_wave {w : Wave} {s : State} {x : Action} (h : Acts s (.wave w) x) (hh : 1 ≤ hp s) (hw : waveOk w s) :
    x.left s < remaining (.wave w) s := by
  have hsafe := safeRow_lt_hp hh hw
  obtain ⟨⟨-, hpr⟩, ⟨hpc1, hpc⟩, ⟨-, hcur⟩, ⟨hcc1, hcc⟩, -, -, hdr, -⟩ := hw
  cases h with
  | pCell _ hd hr hc =>
    have := mul_sub_succ (wp s) hr
    simp only [Action.left, Action.next, remaining_wave, producerLeft, consumerLeft, hd, Bool.false_eq_true, if_false]
    omega
  | pRowEnd _ hd hr hc =>
    have := mul_sub_succ (wp s) hr
    simp only [Action.left, Action.next, remaining_wave, producerLeft, consumerLeft, producerRowEnd, hd,
      Bool.false_eq_true, if_false]
    omega
  | pFinal _ hd hr =>
    simp only [Action.left, Action.next, remaining_wave, producerLeft, consumerLeft, hd, Bool.false_eq_true,
      if_false, if_true]
    omega
  | cWake _ hm hr hs =>
    have := mul_sub_succ (wp s + 1) hr
    simp only [Action.left, Action.next, remaining_wave, producerLeft, consumerLeft, hm, reduceCtorEq,
      if_false, if_true]
    omega
  | cCell _ hm hc =>
    have := hdr hm
    have := mul_sub_succ (wp s + 1) (show w.cur < hp s by omega)
    simp only [Action.left, Action.next, remaining_wave, producerLeft, consumerLeft, hm, if_true]
    omega
  | cRowEnd _ hm hc =>
    have := hdr hm
    have := mul_sub_succ (wp s + 1) (show w.cur < hp s by omega)
    have hb : consumerLeft (consumerRowEnd w) s ≤ (hp s - (w.cur + 1)) * (wp s + 1) := Nat.sub_le _ _
    have hc : consumerLeft w s = (hp s - w.cur) * (wp s + 1) - w.cc := by rw [consumerLeft, if_pos hm]
    show producerLeft w s + consumerLeft (consumerRowEnd w) s + 1 < producerLeft w s + consumerLeft w s + 1
    omega
  | joined => exact Nat.succ_pos _

theorem Acts.left_sentinels {k : Strategy} {z : Nat} {s : State} {x : Action} (h : Acts s (.sentinels k z) x)
    (hz : z < hp s + wp s - 1) : x.left s + 1 = remaining (.sentinels k z) s := by
  cases h with
  | zCell =>
    simp only [Action.left, Action.next]
    split
    · simp only [remaining]
      omega
    · rw [remaining_of_not_sentinels (by cases k <;> simp [strategyStart])]
      simp only [remaining]
      omega

/-- The commands whose steps left are counted exactly: all but `BUILD.W`, whose wake-ups depend on the schedule. -/
def counted : CmdState → Prop
  | .sentinels k _ => k ≠ .wavefront
  | .serial _ _ => True
  | .wave _ => False
  | .barrier _ => True
  | .traverse _ _ _ _ => True

/-- An action brings the steps left down, by one where they are counted. -/
theorem Acts.left {c : CmdState} {s : State} {x : Action} (h : Acts s c x) (hk : cmdOk c s) :
    x.left s < remaining c s ∧ (counted c → x.left s + 1 = remaining c s) := by
  cases c with
  | sentinels k z =>
    obtain ⟨-, -, hz⟩ := hk
    have := h.left_sentinels hz
    exact ⟨by omega, fun _ => this⟩
  | serial r c =>
    obtain ⟨-, -, -, -, hc, -⟩ := hk
    have := h.left_serial hc
    simp only [remaining, agentsLeft]
    exact ⟨by omega, fun _ => this⟩
  | wave w =>
    obtain ⟨hc, -, hw⟩ := hk
    exact ⟨h.left_wave (buildChecks_none hc).1 hw, False.elim⟩
  | barrier b =>
    obtain ⟨-, -, hb⟩ := hk
    have := h.left_barrier hb
    simp only [remaining, agentsLeft]
    exact ⟨by omega, fun _ => this⟩
  | traverse => cases h

/-! ## A step of the engine inside a command -/

/-- The steps left of the command in flight, if there is one. -/
def stepsLeft (s : State) : Nat :=
  match s.engine with
  | .busy (.exec c) => remaining c s
  | .busy .fetch => 0
  | .idle => 0
  | .done => 0
  | .faulted => 0

theorem stepsLeft_inCommand {c : CmdState} {s : State} (h : s.engine = .busy (.exec c)) :
    stepsLeft s = remaining c s := by
  simp only [stepsLeft, h]

theorem stepsLeft_not_inCommand {s : State} (h : ¬ inCommand s) : stepsLeft s = 0 := by
  unfold stepsLeft
  cases he : s.engine with
  | busy p =>
    cases p with
    | fetch => rfl
    | exec c => exact absurd ⟨c, he⟩ h
  | idle | done | faulted => rfl

theorem not_inCommand_of_engine {s : State} {e : Engine} (h : s.engine = e) (he : ∀ c, e ≠ .busy (.exec c)) :
    ¬ inCommand s := fun ⟨c, hc⟩ => he c (h.symm.trans hc)

/-- The steps left depend on the parameter registers alone. -/
theorem remaining_of_p {c : CmdState} {s t : State} (h : t.p = s.p) : remaining c t = remaining c s := by
  have hp1 : pass1Worker t = pass1Worker s := by funext i; simp only [pass1Worker, wp_of_p h, h]
  have hp2 : pass2Worker t = pass2Worker s := by funext i; simp only [pass2Worker, hp_of_p h, h]
  have hs : ∀ k, strategyStart k t = strategyStart k s := fun k => by
    cases k <;> simp only [strategyStart, pass1, hp1, h]
  have hw : ∀ pass, Worker.left pass t = Worker.left pass s := fun pass => by
    funext k
    cases pass <;> simp only [Worker.left, hp_of_p h, wp_of_p h]
  have h2 : pass2 t = pass2 s := by simp only [pass2, hp2, h]
  have ha : ∀ c, agentsLeft c t = agentsLeft c s := fun c => by
    cases c with
    | barrier b => simp only [agentsLeft, barrierLeft, workersLeft, hw, h2]
    | sentinels | serial | wave | traverse =>
      simp only [agentsLeft, producerLeft, consumerLeft, hp_of_p h, wp_of_p h, imgH_of_p h, imgW_of_p h]
  cases c <;> simp only [remaining, hp_of_p h, wp_of_p h, hs, ha]

theorem Law.cell_done {law : Law} {s u : State} {r c : Nat} (h : law.cell s r c = .ok u) : CellDone s u := by
  cases law with
  | zero => exact cellDone_of_satW h
  | col => exact cellDone_of_colCell h
  | row => exact cellDone_of_rowCell h
  | serial => exact cellDone_of_serialCell h

/-- An action ends in BusError, or leaves the steps it says. -/
theorem Action.stepsLeft_run {x : Action} {s t : State} (h : x.run s = .next t) :
    t.engine = .faulted ∨ stepsLeft t = x.left s := by
  cases x with
  | cell law r c next =>
    rcases buildStep_next h with ⟨u, hu, rfl⟩ | ⟨a, -, rfl⟩
    · have hp : (setCmd next u).p = s.p := by rw [setCmd_p, (Law.cell_done hu).2]
      exact .inr ((stepsLeft_inCommand rfl).trans (remaining_of_p hp))
    · exact .inl rfl
  | move next =>
    cases h
    exact .inr ((stepsLeft_inCommand rfl).trans (remaining_of_p rfl))
  | complete =>
    cases h
    exact .inr (stepsLeft_not_inCommand (not_inCommand_of_engine rfl (by simp)))

theorem TraverseMove.stepsLeft {ar ac : Nat} {acc : Bool} {old : Memory} {s t : State}
    (hx : TraverseMove ar ac old s t) : stepsLeft t < remaining (.traverse ar ac acc old) s := by
  have hpos : 0 < remaining (.traverse ar ac acc old) s := by
    simp only [remaining, agentsLeft, loopLeft]
    split <;> omega
  cases hx with
  | pixel ar' ac' acc' u q pix hw hin hn =>
    have hp : (setCmd (.traverse ar' ac' acc' old) { u with qs := q, qpix := pix }).p = s.p := by
      obtain ⟨-, rfl⟩ := dstW_ok_iff.mp hw
      rfl
    rw [stepsLeft_inCommand rfl, remaining_of_p hp]
    obtain ⟨hr, hc⟩ := hin
    simp only [remaining, agentsLeft]
    rcases hn with ⟨rfl, rfl, hlt⟩ | ⟨rfl, rfl⟩
    · exact Nat.lt_of_succ_le (Nat.le_of_eq (loopLeft_next_col (by omega) (Nat.zero_le _) (by omega)))
    · exact loopLeft_next_row_lt (by omega) (Nat.zero_le _) (by omega)
  | cut | completed => exact hpos

end Sys2Proof.Machine
end

section
/-! PROOFS. The run by the engine alone: every command in flight ends, or reaches an access without a meaning. -/

namespace Sys2Proof.Machine

/-! ## A step of an enabled agent -/

/-- No reachable state of a command has all agents held (40_build.md R121 T, R125; 60_exceptions.md R225). -/
theorem enabledAgents_ne_nil {c : CmdState} {s : State} (hk : cmdOk c s) : enabledAgents c s ≠ [] := by
  suffices h : ∃ a, a ∈ enabledAgents c s by
    obtain ⟨a, ha⟩ := h
    exact List.ne_nil_of_mem ha
  cases c with
  | sentinels | serial | traverse => exact ⟨.sequencer, List.mem_singleton.mpr rfl⟩
  | wave w =>
    obtain ⟨-, -, -, -, -, -, -, hfin, -, -⟩ := hk
    cases hd : w.pdone with
    | false => exact ⟨.producer, mem_enabledAgents_wave.mpr (.inl ⟨rfl, hd⟩)⟩
    | true =>
      obtain ⟨hsafe, -⟩ := hfin hd
      cases hm : w.mode with
      | draining =>
        exact ⟨.consumer, mem_enabledAgents_wave.mpr (.inr (.inl ⟨rfl, by simp only [consumerEnabled, hm]⟩))⟩
      | waiting =>
        by_cases hr : w.cur < hp s
        · exact ⟨.consumer, mem_enabledAgents_wave.mpr
            (.inr (.inl ⟨rfl, (consumerEnabled_waiting s hm).mpr ⟨hr, by omega⟩⟩))⟩
        · exact ⟨.sequencer, mem_enabledAgents_wave.mpr (.inr (.inr ⟨rfl, by simp [waveJoined, hd, hm]; omega⟩))⟩
  | barrier b =>
    obtain ⟨-, -, -, hcount, -⟩ := hk
    by_cases hall : ∀ k ∈ b.workers, k.arrived = true
    · exact ⟨.sequencer, mem_enabledAgents_barrier.mpr
        (.inr ⟨rfl, hcount.trans (List.countP_eq_length.mpr hall)⟩)⟩
    · push Not at hall
      obtain ⟨k, hk, ha⟩ := hall
      obtain ⟨i, hi⟩ := List.getElem?_of_mem hk
      exact ⟨.worker i, mem_enabledAgents_barrier.mpr (.inl ⟨i, k, rfl, hi, by simpa using ha⟩)⟩

theorem Action.run_ne_fault (x : Action) (s : State) (f : Fault) : x.run s ≠ .fault f := by
  cases x with
  | cell law r c next => exact buildStep_ne_fault
  | move next => exact fun h => by cases h
  | complete => exact fun h => by cases h

theorem traverseStep_ne_fault {ar ac : Nat} {acc : Bool} {old : Memory} {s : State} {f : Fault} :
    traverseStep ar ac acc old s ≠ .fault f := by
  have hq : ∀ (e : Stop) (u : State), queryStop e u ≠ .fault f := fun e u => by cases e <;> simp [queryStop]
  unfold traverseStep
  split
  · split
    · exact hq _ _
    · split
      · exact hq _ _
      · simp
  · simp

/-- An enabled agent has a step. -/
theorem agentStep_ne_fault {a : Agent} {c : CmdState} {s : State} (ha : a ∈ enabledAgents c s) (f : Fault) :
    agentStep a c s ≠ .fault f := by
  rcases isBuild_or_traverse c with hb | ⟨ar, ac, acc, old, rfl⟩
  · obtain ⟨x, -, he⟩ := acts_of_enabled hb ha
    rw [he]
    exact x.run_ne_fault s f
  · obtain rfl : a = .sequencer := List.mem_singleton.mp ha
    exact traverseStep_ne_fault

/-- A step of an enabled agent brings the steps left down. -/
theorem agentStep_stepsLeft {a : Agent} {c : CmdState} {s t : State} (ha : a ∈ enabledAgents c s) (hk : cmdOk c s)
    (h : agentStep a c s = .next t) : stepsLeft t < remaining c s := by
  rcases isBuild_or_traverse c with hb | ⟨ar, ac, acc, old, rfl⟩
  · obtain ⟨x, hx, he⟩ := acts_of_enabled hb ha
    obtain ⟨hlt, -⟩ := hx.left hk
    rcases Action.stepsLeft_run (he ▸ h) with hf | hs
    · rw [stepsLeft_not_inCommand (not_inCommand_of_engine hf (by simp))]
      omega
    · rwa [hs]
  · exact (agentStep_traverse h).stepsLeft

theorem agentStep_env {a : Agent} {c : CmdState} {s t : State} (h : agentStep a c s = .next t) : t.env = s.env := by
  rcases isBuild_or_traverse c with hb | ⟨ar, ac, acc, old, rfl⟩
  · cases agentStep_build hb h with
    | moved c' u hc hu => rw [hu.2]; rfl
    | cut | completed => rfl
  · cases agentStep_traverse h with
    | pixel ar' ac' acc' u q pix hw hin hn =>
      obtain ⟨-, rfl⟩ := dstW_ok_iff.mp hw
      rfl
    | cut | completed => rfl

/-! ## A step of the engine inside a command -/

/-- The state an agent steps from: the turn is taken from the script, and a free choice may have been drawn. -/
def Scheduled (s u : State) : Prop := u = { s with env := u.env, draws := u.draws } ∧ onlyEngineTurns u

theorem scheduled_of_engineMoves {s s' u : State} (ht : onlyEngineTurns s) (hm : engineMoves s s')
    (hu : u = s' ∨ u = { s' with draws := s'.draws + 1 }) : Scheduled s u := by
  have hs : onlyEngineTurns s' := by
    rcases hm with ⟨-, rfl⟩ | ⟨k, rest, he, rfl⟩
    · exact ht
    · exact fun t h => ht t (he ▸ List.mem_cons_of_mem _ h)
  have he := engineMoves_eq hm
  rcases hu with rfl | rfl
  · exact ⟨by rw [he], hs⟩
  · exact ⟨by rw [he], hs⟩

/-- With only engine turns in the script, a step inside a command is a step of an enabled agent (40_build.md R130). -/
theorem step_inCommand {c : CmdState} {s : State} (he : s.engine = .busy (.exec c)) (ht : onlyEngineTurns s)
    (hk : cmdOk c s) : ∃ a u, a ∈ enabledAgents c u ∧ Scheduled s u ∧ step s = agentStep a c u := by
  obtain ⟨s', hm⟩ : ∃ s', engineMoves s s' := by
    rcases turn_cases s with ⟨op, rest, h⟩ | h
    · obtain ⟨k, hk⟩ := ht _ (h ▸ List.mem_cons_self)
      cases hk
    · exact h
  obtain ⟨pick, hp⟩ := step_engine hm
  have heq := engineMoves_eq hm
  have he' : s'.engine = .busy (.exec c) := by rw [heq]; exact he
  have hk' : cmdOk c s' := by rw [heq]; exact hk
  rcases commandStep_cases pick c s' with ⟨hnil, -⟩ | ⟨a, u, ha, hu, hc⟩
  · exact absurd hnil (enabledAgents_ne_nil hk')
  · refine ⟨a, u, ?_, scheduled_of_engineMoves ht hm hu, ?_⟩
    · rcases hu with rfl | rfl <;> exact ha
    · simp only [step, hp, enginePlan, he', hc]

theorem Scheduled.cmdOk {c : CmdState} {s u : State} (h : Scheduled s u) (hk : cmdOk c s) : cmdOk c u := by
  rw [h.1]; exact hk

theorem Scheduled.remaining {s u : State} (h : Scheduled s u) (c : CmdState) : remaining c u = remaining c s :=
  remaining_of_p (by rw [h.1])

theorem onlyEngineTurns_of_env {s t : State} (h : t.env = s.env) (hs : onlyEngineTurns s) : onlyEngineTurns t := by
  unfold onlyEngineTurns at hs ⊢
  rwa [h]

/-! ## Runs -/

theorem run_succ {n : Nat} {s t : State} (h : step s = .next t) :
    Host.Core.run Sys2Proof.core (n + 1) s = Host.Core.run Sys2Proof.core n t := by
  have h' : Sys2Proof.core.step s = .next t := h
  simp only [Host.Core.run, h']

theorem run_refused {n : Nat} {s : State} {r : Refusal} (h : step s = .refused r) :
    Host.Core.run Sys2Proof.core (n + 1) s = .refused r := by
  have h' : Sys2Proof.core.step s = .refused r := h
  simp only [Host.Core.run, h']

theorem commandEndsAt_zero {s : State} (h : ¬ inCommand s) : commandEndsAt 0 s s :=
  ⟨rfl, h, fun m hm => absurd hm (Nat.not_lt_zero m)⟩

theorem commandEndsAt_succ {n : Nat} {s t u : State} (hc : inCommand s) (h : step s = .next t)
    (ht : commandEndsAt n t u) : commandEndsAt (n + 1) s u := by
  obtain ⟨hrun, hend, hbefore⟩ := ht
  refine ⟨(run_succ h).trans hrun, hend, fun m hm => ?_⟩
  cases m with
  | zero => exact ⟨s, rfl, hc⟩
  | succ m =>
    obtain ⟨v, hv, hvc⟩ := hbefore m (by omega)
    exact ⟨v, (run_succ h).trans hv, hvc⟩

/-- A predicate that every step inside the command keeps, while the steps left go down, holds when the command ends;
`exactly` says whether they go down by one. Or a state with the predicate has a step without a meaning. -/
theorem commandEnds_or_refused {I : State → Prop} {exactly : Prop}
    (hstep : ∀ s, I s → inCommand s → (∃ r, step s = .refused r) ∨
      ∃ t, step s = .next t ∧ I t ∧ stepsLeft t < stepsLeft s ∧ (exactly → stepsLeft t + 1 = stepsLeft s)) :
    ∀ s, I s → (∃ n t, commandEndsAt n s t ∧ I t ∧ (exactly → n = stepsLeft s)) ∨
      ∃ n u r, Host.Core.run Sys2Proof.core n s = .refused r ∧ I u ∧ inCommand u ∧ step u = .refused r := by
  intro s hs
  induction hn : stepsLeft s using Nat.strong_induction_on generalizing s with
  | _ n ih =>
    subst hn
    by_cases hc : inCommand s
    · rcases hstep s hs hc with ⟨r, hr⟩ | ⟨t, ht, hI, hlt, hex⟩
      · exact .inr ⟨1, s, r, run_refused hr, hs, hc, hr⟩
      · rcases ih _ hlt t hI rfl with ⟨n, u, hend, hu, hcount⟩ | ⟨n, u, r, hrun, hu⟩
        · refine .inl ⟨n + 1, u, commandEndsAt_succ hc ht hend, hu, fun he => ?_⟩
          rw [← hex he, hcount he]
        · exact .inr ⟨n + 1, u, r, (run_succ ht).trans hrun, hu⟩
    · exact .inl ⟨0, s, commandEndsAt_zero hc, hs, fun _ => (stepsLeft_not_inCommand hc).symm⟩

/-- Settles O31: each step of an enabled agent brings the steps left down, and the invariant is kept. -/
theorem everyCommandEnds : Obligations.EveryCommandEnds := by
  intro s hi hc ht
  have key := commandEnds_or_refused (I := fun s => Inv s ∧ onlyEngineTurns s) (exactly := False) ?_ s ⟨hi, ht⟩
  · rcases key with ⟨n, t, hend, -⟩ | ⟨n, u, r, hrun, -⟩
    · exact ⟨n, .inl ⟨t, hend⟩⟩
    · exact ⟨n, .inr ⟨r, hrun⟩⟩
  · rintro s ⟨hi, ht⟩ ⟨c, he⟩
    have hk := hi.cmdOk he
    obtain ⟨a, u, ha, hu, hstep⟩ := step_inCommand he ht hk
    cases ho : step s with
    | fault f => exact absurd (hstep ▸ ho) (agentStep_ne_fault ha f)
    | refused r => exact .inl ⟨r, rfl⟩
    | next t =>
      rw [hstep] at ho
      refine .inr ⟨t, rfl, ⟨stepKeepsInvariant s t hi (hstep.trans ho), ?_⟩, ?_, False.elim⟩
      · exact onlyEngineTurns_of_env (agentStep_env ho) hu.2
      · rw [stepsLeft_inCommand he, ← hu.remaining c]
        exact agentStep_stepsLeft ha (hu.cmdOk hk) ho

end Sys2Proof.Machine
end

section
/-! PROOFS. What a cell holds while a build goes on: the clamped column sum or the clamped table value, and a flag that
is set exactly when one of them does not fit (40_build.md R128, R129). -/

namespace Sys2Proof.Machine

/-! ## Exact sums -/

theorem sumTo_add (n : Nat) (f g : Nat → Nat) : (sumTo n fun i => f i + g i) = sumTo n f + sumTo n g := by
  induction n with
  | zero => rfl
  | succ n ih => simp only [sumTo, ih]; omega

theorem sumTo_const_zero (n : Nat) : (sumTo n fun _ => 0) = 0 := by
  induction n with
  | zero => rfl
  | succ n ih => rw [sumTo, ih]

/-- The exact sum of a column down to row `r` (40_build.md R128). -/
def colSum (r c : Nat) (f : Nat → Nat → Nat) : Nat := sumTo r fun a => f a c

section
variable (r c : Nat) (f : Nat → Nat → Nat)

theorem colSum_succ : colSum (r + 1) c f = colSum r c f + f (r + 1) c := rfl

theorem satExact_succ_row : satExact (r + 1) c f = satExact r c f + sumTo c fun b => f (r + 1) b := rfl

theorem satExact_succ_col : satExact r (c + 1) f = satExact r c f + colSum r (c + 1) f := sumTo_add r _ _

theorem satExact_zero_col : satExact r 0 f = 0 := sumTo_const_zero r

/-- The recurrence of 40_build.md R110. -/
theorem satExact_recurrence :
    satExact (r + 1) (c + 1) f + satExact r c f = f (r + 1) (c + 1) + satExact r (c + 1) f + satExact (r + 1) c f := by
  have h1 := satExact_succ_col r c f
  have h2 := satExact_succ_col (r + 1) c f
  have h3 := colSum_succ r (c + 1) f
  omega

end

theorem satExact_mono {r c r' c' : Nat} (f : Nat → Nat → Nat) (hr : r ≤ r') (hc : c ≤ c') :
    satExact r c f ≤ satExact r' c' f :=
  calc
    satExact r c f ≤ satExact r' c f :=
      monotone_nat_of_le_succ (f := fun r => satExact r c f)
        (fun r => by rw [satExact_succ_row]; exact Nat.le_add_right _ _) hr
    _ ≤ satExact r' c' f :=
      monotone_nat_of_le_succ (f := fun c => satExact r' c f)
        (fun c => by rw [satExact_succ_col]; exact Nat.le_add_right _ _) hc

/-! ## The stages of a cell -/

/-- What a cell of the SAT grid may hold during a build: its column's sum, or the table's value. -/
inductive Stage where
  | column | full

/-- The exact value of one channel of a cell at a stage. -/
def Stage.exact : Stage → Nat → Nat → (Nat → Nat → Nat) → Nat
  | .column => colSum
  | .full => satExact

theorem exact_column_succ (r c : Nat) (f : Nat → Nat → Nat) :
    Stage.column.exact (r + 1) c f = Stage.column.exact r c f + f (r + 1) c := rfl

theorem exact_full_succ (r c : Nat) (f : Nat → Nat → Nat) :
    Stage.full.exact r (c + 1) f = Stage.full.exact r c f + Stage.column.exact r (c + 1) f := satExact_succ_col r c f

/-- The SatPixel a cell holds at a stage: the exact value, clamped. -/
def Stage.cell (st : Stage) (px : Nat → Nat → Quad Byte) (r c : Nat) : Quad Word :=
  perChannel (fun f => BitVec.ofNat 32 (min maxSum (st.exact r c f))) px

/-- One channel of the Pixels. -/
def channel (px : Nat → Nat → Quad Byte) (ch : Channel) (r c : Nat) : Nat := (chan (px r c) ch).toNat

/-- Some channel of the exact value does not fit. -/
def Stage.over (st : Stage) (px : Nat → Nat → Quad Byte) (r c : Nat) : Prop :=
  ∃ ch, maxSum < st.exact r c (channel px ch)

theorem maxSum_eq : maxSum = 2 ^ 32 - 1 := by decide

theorem chan_stageCell (st : Stage) (px : Nat → Nat → Quad Byte) (r c : Nat) (ch : Channel) :
    (chan (st.cell px r c) ch).toNat = min maxSum (st.exact r c (channel px ch)) := by
  have hm := maxSum_eq
  rw [Stage.cell, chan_perChannel, BitVec.toNat_ofNat]
  exact Nat.mod_eq_of_lt (by omega)

theorem gridOverflows_iff {px : Nat → Nat → Quad Byte} {rows cols : Nat} :
    gridOverflows px rows cols = true ↔ Stage.full.over px (rows - 1) (cols - 1) := by
  simp only [gridOverflows, quad_any_iff, chan_perChannel, decide_eq_true_eq]
  rfl

/-- A border cell at a stage whose sum is empty there: any stage in row 0, the table's in column 0. -/
def Stage.Border (st : Stage) (r c : Nat) : Prop := r = 0 ∨ (c = 0 ∧ st = .full)

theorem Stage.exact_border {st : Stage} {r c : Nat} (h : st.Border r c) (f : Nat → Nat → Nat) :
    st.exact r c f = 0 := by
  rcases h with rfl | ⟨rfl, rfl⟩
  · cases st <;> rfl
  · exact satExact_zero_col r f

/-- A cell that does not fit makes the whole grid overflow (40_build.md R129). -/
theorem Stage.over.grid {st : Stage} {px : Nat → Nat → Quad Byte} {r c rows cols : Nat} (h : st.over px r c)
    (hr : r < rows) (hc : c < cols) (hc1 : st = .column → 1 ≤ c) : gridOverflows px rows cols = true := by
  obtain ⟨ch, h⟩ := h
  refine gridOverflows_iff.mpr ⟨ch, Nat.lt_of_lt_of_le h ?_⟩
  have hle : st.exact r c (channel px ch) ≤ satExact r c (channel px ch) := by
    cases st with
    | full => exact Nat.le_refl _
    | column =>
      obtain ⟨c, rfl⟩ := Nat.exists_eq_add_of_le' (hc1 rfl)
      rw [satExact_succ_col]
      exact Nat.le_add_left _ _
  exact Nat.le_trans hle (satExact_mono _ (by omega) (by omega))

/-- The cell holds its value of the stage, and if the flag is clear the value fits. -/
structure CellHolds (px : Nat → Nat → Quad Byte) (s : State) (st : Stage) (r c : Nat) : Prop where
  read : satR s r c = .ok (st.cell px r c)
  fits : s.satOvf = false → ¬ st.over px r c

/-! ## The laws on stored operands -/

/-- The law's value `x` of one channel stores the clamped exact value `n` and exceeds only if `n` does; if `P` says that
no operand was clamped, it exceeds exactly when `n` does. -/
structure Tracks (P : Prop) (x : Int) (n : Nat) : Prop where
  value : (sat32 x).toNat = min maxSum n
  sound : exceeds x = true → maxSum < n
  complete : P → maxSum < n → exceeds x = true

theorem tracks_iff {P : Prop} {x : Int} {n : Nat} : Tracks P x n ↔
    max 0 (min (2 ^ 32 - 1) x) = ((min (2 ^ 32 - 1) n : Nat) : Int) ∧ ((2 : Int) ^ 32 ≤ x → 2 ^ 32 - 1 < n) ∧
      (P → 2 ^ 32 - 1 < n → (2 : Int) ^ 32 ≤ x) := by
  rw [← sat32_toInt, Int.ofNat_inj]
  simp only [← maxSum_eq, ← exceeds_iff]
  exact ⟨fun h => ⟨h.value, h.sound, h.complete⟩, fun ⟨h1, h2, h3⟩ => ⟨h1, h2, h3⟩⟩

theorem tracks_zero (P : Prop) : Tracks P 0 0 := tracks_iff.mpr (by omega)

/-- A sum of terms of which one may have been clamped. -/
theorem tracks_col {P : Prop} {p u : Nat} (hP : P → u ≤ maxSum) :
    Tracks P ((p : Int) + (min maxSum u : Nat)) (u + p) := by
  rw [maxSum_eq] at hP ⊢
  refine tracks_iff.mpr ⟨by omega, by omega, fun h => ?_⟩
  have := hP h
  omega

theorem tracks_row {P : Prop} {a b : Nat} (hP : P → a ≤ maxSum ∧ b ≤ maxSum) :
    Tracks P ((min maxSum a : Nat) + (min maxSum b : Nat) : Int) (b + a) := by
  rw [maxSum_eq] at hP ⊢
  refine tracks_iff.mpr ⟨by omega, by omega, fun h => ?_⟩
  have := hP h
  omega

/-- The serial law: the clamped diagonal never exceeds the clamped neighbours (40_build.md R128). -/
theorem tracks_serial {P : Prop} {p u l d n : Nat} (hn : n + d = p + u + l) (hu : d ≤ u) (hl : d ≤ l)
    (hP : P → u ≤ maxSum ∧ l ≤ maxSum) :
    Tracks P ((p : Int) + (min maxSum u : Nat) + (min maxSum l : Nat) - (min maxSum d : Nat)) n := by
  rw [maxSum_eq] at hP ⊢
  refine tracks_iff.mpr ⟨by omega, by omega, fun h => ?_⟩
  have := hP h
  omega

/-- The law's value `x` is that of the cell at the stage, in every channel. -/
def UpdateOf (px : Nat → Nat → Quad Byte) (s : State) (x : Quad Int) (r c : Nat) (st : Stage) : Prop :=
  ∀ ch, Tracks (s.satOvf = false) (chan x ch) (st.exact r c (channel px ch))

section
variable {px : Nat → Nat → Quad Byte} {s : State} {x : Quad Int} {st : Stage} {r c : Nat}

theorem UpdateOf.value (h : UpdateOf px s x r c st) : Quad.map sat32 x = st.cell px r c :=
  quad_ext fun ch => BitVec.eq_of_toNat_eq (by rw [chan_map, (h ch).value, chan_stageCell])

theorem UpdateOf.sound (h : UpdateOf px s x r c st) (he : Quad.any exceeds x = true) : st.over px r c := by
  obtain ⟨ch, hch⟩ := (quad_any_iff _ _).mp he
  exact ⟨ch, (h ch).sound hch⟩

theorem UpdateOf.complete (h : UpdateOf px s x r c st) (hs : s.satOvf = false) (ho : st.over px r c) :
    Quad.any exceeds x = true := by
  obtain ⟨ch, hch⟩ := ho
  exact (quad_any_iff _ _).mpr ⟨ch, (h ch).complete hs hch⟩

/-- While the flag is clear no channel of a cell was clamped. -/
theorem CellHolds.le (h : CellHolds px s st r c) (hs : s.satOvf = false) (ch : Channel) :
    st.exact r c (channel px ch) ≤ maxSum := by
  by_contra hlt
  exact h.fits hs ⟨ch, Nat.lt_of_not_le hlt⟩

theorem updateOf_zero (h : st.Border r c) : UpdateOf px s ⟨0, 0, 0, 0⟩ r c st := fun ch => by
  rw [st.exact_border h]
  cases ch <;> exact tracks_zero _

theorem updateOf_col (hup : CellHolds px s .column r c) :
    UpdateOf px s (colExact (px (r + 1) c) (Stage.column.cell px r c)) (r + 1) c .column := fun ch => by
  rw [chan_colExact, chan_stageCell, exact_column_succ]
  exact tracks_col fun h => hup.le h ch

theorem updateOf_row (hx : CellHolds px s .column r (c + 1)) (hl : CellHolds px s .full r c) :
    UpdateOf px s (rowExact (Stage.column.cell px r (c + 1)) (Stage.full.cell px r c)) r (c + 1) .full := fun ch => by
  rw [chan_rowExact, chan_stageCell, chan_stageCell, exact_full_succ]
  exact tracks_row fun h => ⟨hx.le h ch, hl.le h ch⟩

theorem updateOf_serial (hup : CellHolds px s .full r (c + 1)) (hl : CellHolds px s .full (r + 1) c) :
    UpdateOf px s (serialExact (px (r + 1) (c + 1)) (Stage.full.cell px r (c + 1)) (Stage.full.cell px (r + 1) c)
      (Stage.full.cell px r c)) (r + 1) (c + 1) .full := fun ch => by
  rw [chan_serialExact, chan_stageCell, chan_stageCell, chan_stageCell]
  exact tracks_serial (satExact_recurrence r c _) (satExact_mono _ (by omega) (by omega))
    (satExact_mono _ (by omega) (by omega)) fun h => ⟨hup.le h ch, hl.le h ch⟩

end

/-! ## Laws and their operands -/

/-- The operands of a law at cell `(r, c)`, as cells of which `P` holds (40_build.md R115 to R126). -/
def Law.Ready (P : Stage → Nat → Nat → Prop) (r c : Nat) : Law → Prop
  | .zero => r = 0 ∨ c = 0
  | .col => 1 ≤ r ∧ 1 ≤ c ∧ P .column (r - 1) c
  | .row => 1 ≤ r ∧ 1 ≤ c ∧ P .column r c ∧ P .full r (c - 1)
  | .serial => 1 ≤ r ∧ 1 ≤ c ∧ P .full (r - 1) c ∧ P .full r (c - 1) ∧ P .full (r - 1) (c - 1)

/-- The stage of the cell after the law. -/
def Law.Gives (r : Nat) (st : Stage) : Law → Prop
  | .zero => r = 0 ∨ st = .full
  | .col => st = .column
  | .row => st = .full
  | .serial => st = .full

/-- A law gives its cell some stage, and the column's only off column 0. -/
theorem Law.Ready.gives {P : Stage → Nat → Nat → Prop} {law : Law} {r c : Nat} (h : law.Ready P r c) :
    ∃ st, law.Gives r st ∧ (st = .column → 1 ≤ c) := by
  cases law with
  | zero => exact ⟨.full, .inr rfl, fun e => by cases e⟩
  | col =>
    obtain ⟨-, hc, -⟩ := h
    exact ⟨.column, rfl, fun _ => hc⟩
  | row | serial => exact ⟨.full, rfl, fun e => by cases e⟩

theorem Law.Ready.mono {P Q : Stage → Nat → Nat → Prop} {law : Law} {r c : Nat}
    (h : ∀ st r' c', r' ≤ r → c' ≤ c → P st r' c' → Q st r' c') (hl : law.Ready P r c) : law.Ready Q r c := by
  have hr : r - 1 ≤ r := Nat.sub_le _ _
  have hc : c - 1 ≤ c := Nat.sub_le _ _
  cases law with
  | zero => exact hl
  | col =>
    obtain ⟨h1, h2, hup⟩ := hl
    exact ⟨h1, h2, h _ _ _ hr le_rfl hup⟩
  | row =>
    obtain ⟨h1, h2, hx, hleft⟩ := hl
    exact ⟨h1, h2, h _ _ _ le_rfl le_rfl hx, h _ _ _ le_rfl hc hleft⟩
  | serial =>
    obtain ⟨h1, h2, hup, hleft, hd⟩ := hl
    exact ⟨h1, h2, h _ _ _ hr le_rfl hup, h _ _ _ le_rfl hc hleft, h _ _ _ hr hc hd⟩

/-- A law whose operands hold their stages is the cell update of its stage. -/
theorem Law.cell_eq {law : Law} {px : Nat → Nat → Quad Byte} {s : State} {r c : Nat}
    (hpx : 1 ≤ r → 1 ≤ c → readPx s r c = .ok (px r c)) (hl : law.Ready (CellHolds px s) r c) :
    ∃ x, law.cell s r c = cellUpdate s r c x ∧ ∀ st, law.Gives r st → UpdateOf px s x r c st := by
  cases law with
  | zero =>
    refine ⟨_, satW_zero_eq_cellUpdate s r c, fun st hst => updateOf_zero ?_⟩
    rcases hl with h | h
    · exact .inl h
    · exact hst.imp_right fun e => ⟨h, e⟩
  | col =>
    obtain ⟨h1, h2, hup⟩ := hl
    obtain ⟨r, rfl⟩ := Nat.exists_eq_add_of_le' h1
    rw [Nat.add_sub_cancel] at hup
    refine ⟨_, colCell_of_reads (hpx h1 h2) hup.read, ?_⟩
    rintro st rfl
    exact updateOf_col hup
  | row =>
    obtain ⟨h1, h2, hx, hleft⟩ := hl
    obtain ⟨c, rfl⟩ := Nat.exists_eq_add_of_le' h2
    rw [Nat.add_sub_cancel] at hleft
    refine ⟨_, rowCell_of_reads hx.read hleft.read, ?_⟩
    rintro st rfl
    exact updateOf_row hx hleft
  | serial =>
    obtain ⟨h1, h2, hup, hleft, hd⟩ := hl
    obtain ⟨r, rfl⟩ := Nat.exists_eq_add_of_le' h1
    obtain ⟨c, rfl⟩ := Nat.exists_eq_add_of_le' h2
    simp only [Nat.add_sub_cancel] at hup hleft hd
    refine ⟨_, serialCell_of_reads (hpx h1 h2) hup.read hleft.read hd.read, ?_⟩
    rintro st rfl
    exact updateOf_serial hup hleft

end Sys2Proof.Machine
end

section
/-! PROOFS. Which cells of the grid hold which stage while a build goes on, and that every action of an agent keeps that
(40_build.md R117 to R126, I3, I4). -/

namespace Sys2Proof.Machine

/-! ## The cells that are known -/

/-- The cell comes before the cursor `(r0, c0)`, row by row. -/
def passed (r c r0 c0 : Nat) : Prop := r < r0 ∨ (r = r0 ∧ c < c0)

/-- The stage of a cell in the wavefront: the consumer's rows are full, the producer's below them are column sums. -/
def Wave.Has (w : Wave) (r c : Nat) : Stage → Prop
  | .full => r < w.cur ∨ (w.mode = .draining ∧ r = w.cur ∧ c < w.cc)
  | .column => passed r c w.pr w.pc ∧ (w.cur < r ∨ (r = w.cur ∧ (w.mode = .draining → w.cc ≤ c)))

/-- The worker has computed the cell of its span. -/
def Worker.Computed (k : Worker) (r c : Nat) : Prop := k.arrived = true ∨ passed r c k.r k.c

/-- The number of indices of the dimension that a pass divides among its workers (40_build.md R123). -/
def passLen (pass : Pass) (s : State) : Nat :=
  match pass with
  | .one => wp s
  | .two => hp s

/-- The index of a cell in that dimension: its column in pass 1, its row in pass 2. -/
def passIndex (pass : Pass) (r c : Nat) : Nat :=
  match pass with
  | .one => c
  | .two => r

/-- The cell is one of the worker's span. -/
def Worker.Owns (k : Worker) (pass : Pass) (r c : Nat) : Prop :=
  k.lo ≤ passIndex pass r c ∧ passIndex pass r c < k.hi

/-- The stage of a cell of the worker's span: computed it is a column sum in pass 1; in pass 2 it is one until it is
computed and full then. -/
def Worker.Has (k : Worker) (r c : Nat) (st : Stage) (pass : Pass) : Prop :=
  k.Owns pass r c ∧
    match pass with
    | .one => st = .column ∧ k.Computed r c
    | .two => (st = .full ↔ k.Computed r c)

/-- The cell holds the stage when the build is in substate `c`: the cells on the border, and those its agents have
computed. -/
def Known (s : State) (c : CmdState) (st : Stage) (r k : Nat) : Prop :=
  match c with
  | .sentinels _ z => (r = 0 ∧ k < z) ∨ (k = 0 ∧ st = .full ∧ 1 ≤ r ∧ wp s + r ≤ z)
  | .serial r0 k0 => st.Border r k ∨ (st = .full ∧ passed r k r0 k0)
  | .wave w => st.Border r k ∨ (1 ≤ k ∧ w.Has r k st)
  | .barrier b => st.Border r k ∨ (1 ≤ k ∧ ∃ (i : Nat) (w : Worker), b.workers[i]? = some w ∧ w.Has r k st b.pass)
  | .traverse _ _ _ _ => False

/-- The worker's column cursor is inside its loop, if the loop has a column. -/
def Worker.Tidy (s : State) (k : Worker) : Pass → Prop
  | .one => k.lo < k.hi → k.c < k.hi
  | .two => 1 < wp s → k.c < wp s

/-- The column cursors are inside their loops, so that an agent without a cell has passed all of its cells. -/
def Tidy (s : State) (c : CmdState) : Prop :=
  match c with
  | .serial _ k => 1 < wp s → k < wp s
  | .barrier b => ∀ w ∈ b.workers, w.Tidy s b.pass
  | .sentinels _ _ => True
  | .wave _ => True
  | .traverse _ _ _ _ => True

/-- The action keeps the cells known: a cell step has its operands and gives its cell the law's stage, and no cell
becomes known otherwise; the command completes when every cell is full. -/
def Action.Sound (s : State) (c : CmdState) : Action → Prop
  | .cell law r k next => r < hp s ∧ k < wp s ∧ law.Ready (Known s c) r k ∧ Tidy s next ∧
      ∀ st r' k', r' < hp s → k' < wp s → Known s next st r' k' →
        ((r' = r ∧ k' = k) ∧ law.Gives r st) ∨ (¬ (r' = r ∧ k' = k) ∧ Known s c st r' k')
  | .move next => Tidy s next ∧
      ∀ st r k, r < hp s → k < wp s → Known s next st r k → Known s c st r k
  | .complete => ∀ r k, r < hp s → k < wp s → Known s c .full r k

/-! ## Sentinels -/

theorem tidy_strategyStart {k : Strategy} {s : State} : Tidy s (strategyStart k s) := by
  cases k with
  | serial => exact id
  | wavefront => trivial
  | barrier =>
    intro w hw
    obtain ⟨i, -, rfl⟩ := List.mem_map.mp hw
    exact id

/-- When the agents of a strategy start, the border alone is known. -/
theorem border_of_known_start {k : Strategy} {s : State} {st : Stage} {r c : Nat}
    (h : Known s (strategyStart k s) st r c) : st.Border r c := by
  cases k with
  | serial =>
    rcases h with h | ⟨rfl, h | ⟨rfl, h⟩⟩
    · exact h
    · exact .inl (by omega)
    · exact .inr ⟨by omega, rfl⟩
  | wavefront =>
    rcases h with h | ⟨hc, h⟩
    · exact h
    · cases st with
      | full =>
        rcases h with h | ⟨h, -⟩
        · exact .inl (Nat.lt_one_iff.mp h)
        · cases h
      | column =>
        rcases h with ⟨h | ⟨rfl, h⟩, -⟩
        · exact .inl (Nat.lt_one_iff.mp h)
        · exact absurd h (Nat.not_lt.mpr hc)
  | barrier =>
    rcases h with h | ⟨-, i, w, hw, ⟨hlo, -⟩, -, h⟩
    · exact h
    · obtain ⟨j, -, rfl⟩ := List.mem_map.mp (List.mem_of_getElem? hw)
      rcases h with h | h | ⟨rfl, h⟩
      · cases h
      · exact .inl (Nat.lt_one_iff.mp h)
      · exact absurd h (Nat.not_lt.mpr hlo)

/-- One sentinel step more makes its cell known (40_build.md R115). -/
theorem known_sentinels_succ {k : Strategy} {z : Nat} {s : State} {st : Stage} {r c : Nat} (hc : c < wp s)
    (h : Known s (.sentinels k (z + 1)) st r c) :
    ((r = (sentinelCell (wp s) z).1 ∧ c = (sentinelCell (wp s) z).2) ∧ (r = 0 ∨ st = .full)) ∨
      (¬ (r = (sentinelCell (wp s) z).1 ∧ c = (sentinelCell (wp s) z).2) ∧ Known s (.sentinels k z) st r c) := by
  simp only [Known] at h ⊢
  rcases h with ⟨rfl, h⟩ | ⟨rfl, rfl, h1, h⟩
  · by_cases hz : c = z
    · subst hz
      exact .inl ⟨by simp only [sentinelCell, hc, if_true, and_self], .inl rfl⟩
    · refine .inr ⟨fun he => ?_, .inl ⟨rfl, by omega⟩⟩
      unfold sentinelCell at he
      split at he <;> simp only at he <;> omega
  · have hz : sentinelCell (wp s) z = (z - wp s + 1, 0) := if_neg (by omega)
    rw [hz]
    by_cases hr : r = z - wp s + 1
    · exact .inl ⟨⟨hr, rfl⟩, .inr rfl⟩
    · exact .inr ⟨fun he => hr he.1, .inr ⟨rfl, rfl, h1, by omega⟩⟩

/-- After the last sentinel step the whole border is known. -/
theorem known_sentinels_of_border {k : Strategy} {z : Nat} {s : State} {st : Stage} {r c : Nat} (hr : r < hp s)
    (hc : c < wp s) (hz : hp s + wp s - 1 ≤ z) (h : st.Border r c) : Known s (.sentinels k z) st r c := by
  rcases Nat.eq_zero_or_pos r with h0 | h0
  · exact .inl ⟨h0, by omega⟩
  · rcases h with h | ⟨rfl, rfl⟩
    · omega
    · exact .inr ⟨rfl, rfl, h0, by omega⟩

theorem Acts.sound_sentinels {k : Strategy} {z : Nat} {s : State} {x : Action} (h : Acts s (.sentinels k z) x)
    (hk : cmdOk (.sentinels k z) s) : x.Sound s (.sentinels k z) := by
  obtain ⟨hc, -, hz⟩ := hk
  obtain ⟨hh, hw, -⟩ := buildChecks_none hc
  cases h with
  | zCell =>
    obtain ⟨h1, h2⟩ := sentinelCell_inside hh hw hz
    refine ⟨h1, h2, ?_, ?_, fun st r c hr hc hknown => ?_⟩
    · unfold sentinelCell
      split
      · exact .inl rfl
      · exact .inr rfl
    · split
      · trivial
      · exact tidy_strategyStart
    · have hnext : Known s (.sentinels k (z + 1)) st r c := by
        split at hknown
        · exact hknown
        · exact known_sentinels_of_border hr hc (by omega) (border_of_known_start hknown)
      rcases known_sentinels_succ hc hnext with ⟨he, hst⟩ | h
      · exact .inl ⟨he, hst.imp_left fun h0 => he.1 ▸ h0⟩
      · exact .inr h

/-! ## Serial -/

theorem Acts.sound_serial {r c : Nat} {s : State} {x : Action} (h : Acts s (.serial r c) x)
    (hk : cmdOk (.serial r c) s) (ht : Tidy s (.serial r c)) : x.Sound s (.serial r c) := by
  obtain ⟨-, -, hr1, -, hc1, -⟩ := hk
  have known : ∀ {st r' c'}, st = Stage.full → passed r' c' r c → Known s (.serial r c) st r' c' :=
    fun hst hp => .inr ⟨hst, hp⟩
  cases h with
  | sCell _ _ hin =>
    obtain ⟨hr, hc⟩ := hin
    refine ⟨hr, hc, ⟨hr1, hc1, ?_, ?_, ?_⟩, ?_, fun st r' c' hr' hc' hknown => ?_⟩
    · exact known rfl (.inl (by omega))
    · exact known rfl (.inr ⟨rfl, by omega⟩)
    · exact known rfl (.inl (by omega))
    · split
      · rename_i hlt
        exact fun _ => hlt
      · exact id
    · have hnext : st.Border r' c' ∨ (st = .full ∧ (passed r' c' r c ∨ (r' = r ∧ c' = c) ∨ c' = 0)) := by
        split at hknown
        all_goals
          refine hknown.imp_right fun ⟨hst, h⟩ => ⟨hst, ?_⟩
          simp only [passed] at h ⊢
          omega
      by_cases hcell : r' = r ∧ c' = c
      · obtain ⟨rfl, rfl⟩ := hcell
        refine .inl ⟨⟨rfl, rfl⟩, ?_⟩
        rcases hnext with (h0 | ⟨-, hst⟩) | ⟨hst, -⟩
        · omega
        · exact hst
        · exact hst
      · refine .inr ⟨hcell, ?_⟩
        rcases hnext with hb | ⟨hst, hp | he | h0⟩
        · exact .inl hb
        · exact known hst hp
        · exact absurd he hcell
        · exact .inl (.inr ⟨h0, hst⟩)
  | scanned _ _ hout =>
    intro r' c' hr' hc'
    rcases Nat.eq_zero_or_pos c' with h0 | h0
    · exact .inl (.inr ⟨h0, rfl⟩)
    · have := ht (by omega)
      exact known rfl (.inl (by omega))

/-! ## Wavefront -/

section
variable {s : State} {w : Wave}

theorem known_full_of_drained {r c : Nat} (h : r < w.cur ∨ (w.mode = .draining ∧ r = w.cur ∧ c < w.cc)) :
    Known s (.wave w) .full r c := by
  rcases Nat.eq_zero_or_pos c with h0 | h0
  · exact .inl (.inr ⟨h0, rfl⟩)
  · exact .inr ⟨h0, h⟩

/-- The consumer's rows lie above the producer's cursor, and above the row it reads unless that is the border (I3). -/
theorem cur_lt_pr (hw : waveOk w s) (hd : w.pdone = false) :
    w.cur < w.pr ∨ (w.pr = 1 ∧ w.cur = 1 ∧ w.mode = .waiting) := by
  obtain ⟨⟨hpr, -⟩, -, ⟨hcur, -⟩, -, hI1, -, hdr, hwt⟩ := hw
  have := hI1 hd
  cases hm : w.mode with
  | waiting => have := hwt hm; simp only [and_true]; omega
  | draining => have := hdr hm; omega

theorem sound_pCell (hw : waveOk w s) (hd : w.pdone = false) (hr : w.pr < hp s) (hc : w.pc < wp s) :
    Action.Sound s (.wave w) (.cell .col w.pr w.pc (.wave { w with pc := w.pc + 1 })) := by
  have hcur := cur_lt_pr hw hd
  obtain ⟨⟨hpr1, -⟩, ⟨hpc1, -⟩, -, -, hI1, -, hdr, -⟩ := hw
  have hI1 := hI1 hd
  refine ⟨hr, hc, ⟨hpr1, hpc1, ?_⟩, trivial, fun st r c _ _ hknown => ?_⟩
  · by_cases h0 : w.pr - 1 = 0
    · exact .inl (.inl h0)
    · refine .inr ⟨hpc1, .inl (by omega), ?_⟩
      by_cases h1 : w.cur < w.pr - 1
      · exact .inl h1
      · refine .inr ⟨by omega, fun hm => ?_⟩
        have := hdr hm
        omega
  · by_cases hcell : r = w.pr ∧ c = w.pc
    · obtain ⟨rfl, rfl⟩ := hcell
      refine .inl ⟨⟨rfl, rfl⟩, ?_⟩
      rcases hknown with h | ⟨-, h⟩
      · rcases h with h | ⟨h, -⟩ <;> omega
      · cases st with
        | column => rfl
        | full =>
          rcases hcur with hlt | ⟨h1, h2, hm⟩
          · simp only [Wave.Has] at h
            omega
          · simp only [Wave.Has, hm, reduceCtorEq, false_and, or_false] at h
            omega
    · refine .inr ⟨hcell, hknown.imp_right fun ⟨hc1, h⟩ => ⟨hc1, ?_⟩⟩
      cases st with
      | full => exact h
      | column =>
        obtain ⟨h, hcons⟩ := h
        refine ⟨?_, hcons⟩
        simp only [passed] at h ⊢
        omega

theorem sound_pRowEnd (hc : wp s ≤ w.pc) :
    Action.Sound s (.wave w) (.move (.wave (producerRowEnd s.p.batch.toNat w))) := by
  refine ⟨trivial, fun st r c _ hcw hknown => hknown.imp_right fun ⟨hc1, h⟩ => ⟨hc1, ?_⟩⟩
  cases st with
  | full => exact h
  | column =>
    obtain ⟨h, hcons⟩ := h
    refine ⟨?_, hcons⟩
    simp only [passed, producerRowEnd] at h ⊢
    omega

theorem sound_cWake (hm : w.mode = .waiting) :
    Action.Sound s (.wave w) (.move (.wave { w with limit := w.safeRow, mode := .draining, cc := 1 })) := by
  refine ⟨trivial, fun st r c _ _ hknown => hknown.imp_right fun ⟨hc1, h⟩ => ⟨hc1, ?_⟩⟩
  cases st with
  | full =>
    rcases h with h | ⟨-, -, h⟩
    · exact .inl h
    · simp only at h; omega
  | column =>
    obtain ⟨h, hcons⟩ := h
    refine ⟨h, hcons.imp_right fun ⟨he, _⟩ => ⟨he, fun hf => ?_⟩⟩
    rw [hm] at hf
    cases hf

theorem sound_cCell (hw : waveOk w s) (hh : 1 ≤ hp s) (hm : w.mode = .draining) (hc : w.cc < wp s) :
    Action.Sound s (.wave w) (.cell .row w.cur w.cc (.wave { w with cc := w.cc + 1 })) := by
  have hsafe := safeRow_lt_hp hh hw
  obtain ⟨-, -, ⟨hcur1, -⟩, ⟨hcc1, -⟩, hI1, hfin, hdr, -⟩ := hw
  obtain ⟨hl, hls⟩ := hdr hm
  have hpr : w.cur < w.pr := by
    cases hd : w.pdone with
    | false => have := hI1 hd; omega
    | true => have := hfin hd; omega
  refine ⟨by omega, hc, ⟨hcur1, hcc1, ?_, ?_⟩, trivial, fun st r c _ _ hknown => ?_⟩
  · exact .inr ⟨hcc1, .inl hpr, .inr ⟨rfl, fun _ => Nat.le_refl _⟩⟩
  · exact known_full_of_drained (.inr ⟨hm, rfl, by omega⟩)
  · by_cases hcell : r = w.cur ∧ c = w.cc
    · obtain ⟨rfl, rfl⟩ := hcell
      refine .inl ⟨⟨rfl, rfl⟩, ?_⟩
      rcases hknown with (h | ⟨-, h⟩) | ⟨-, h⟩
      · omega
      · exact h
      · cases st with
        | full => rfl
        | column =>
          rcases h with ⟨-, h | ⟨-, h⟩⟩
          · exact absurd h (Nat.lt_irrefl _)
          · exact absurd (h hm) (Nat.not_succ_le_self _)
    · refine .inr ⟨hcell, hknown.imp_right fun ⟨hc1, h⟩ => ⟨hc1, ?_⟩⟩
      cases st with
      | full =>
        rcases h with h | ⟨-, he, h⟩
        · exact .inl h
        · refine .inr ⟨hm, he, ?_⟩
          simp only at he h
          omega
      | column =>
        obtain ⟨h, hcons⟩ := h
        exact ⟨h, hcons.imp_right fun ⟨he, hle⟩ => ⟨he, fun _ => Nat.le_of_succ_le (hle hm)⟩⟩

theorem sound_cRowEnd (hm : w.mode = .draining) (hc : wp s ≤ w.cc) :
    Action.Sound s (.wave w) (.move (.wave (consumerRowEnd w))) := by
  refine ⟨trivial, fun st r c _ hcw hknown => hknown.imp_right fun ⟨hc1, h⟩ => ⟨hc1, ?_⟩⟩
  cases st with
  | full =>
    simp only [Wave.Has, consumerRowEnd, hm, true_and] at h ⊢
    omega
  | column =>
    obtain ⟨h, hcons⟩ := h
    refine ⟨h, .inl ?_⟩
    simp only [consumerRowEnd] at hcons
    omega

theorem Acts.sound_wave {x : Action} (h : Acts s (.wave w) x) (hk : cmdOk (.wave w) s) : x.Sound s (.wave w) := by
  obtain ⟨hchk, -, hw⟩ := hk
  cases h with
  | pCell _ hd hr hc => exact sound_pCell hw hd hr hc
  | pRowEnd _ hd hr hc => exact sound_pRowEnd hc
  | pFinal => exact ⟨trivial, fun st r c _ _ hknown => by cases st <;> exact hknown⟩
  | cWake _ hm => exact sound_cWake hm
  | cCell _ hm hc => exact sound_cCell hw (buildChecks_none hchk).1 hm hc
  | cRowEnd _ hm hc => exact sound_cRowEnd hm hc
  | joined _ hd hm hr => exact fun r c hrow _ => known_full_of_drained (.inl (Nat.lt_of_lt_of_le hrow hr))

end

/-! ## Two-Pass-Barrier -/

section
variable {s : State} {b : Barrier} {i : Nat} {k : Worker}

theorem known_barrier {st : Stage} {r c j : Nat} {w : Worker} (hc : 1 ≤ c) (hw : b.workers[j]? = some w)
    (h : w.Has r c st b.pass) : Known s (.barrier b) st r c := .inr ⟨hc, j, w, hw, h⟩

/-- A worker in its ranges has the span of its number (40_build.md R123). -/
theorem workerOk_span {pass : Pass} (h : workerOk pass i k s) :
    k.lo = spanLo (passLen pass s) s.p.nwork.toNat i ∧ k.hi = spanHi (passLen pass s) s.p.nwork.toNat i := by
  cases pass with
  | one =>
    obtain ⟨hlo, hhi, -⟩ := h
    exact ⟨hlo, hhi⟩
  | two =>
    obtain ⟨hlo, hhi, -⟩ := h
    exact ⟨hlo, hhi⟩

theorem workerOk_of_getElem? (hok : barrierOk b s) (hk : b.workers[i]? = some k) :
    i < s.p.nwork.toNat ∧ workerOk b.pass i k s := by
  obtain ⟨hlen, -, hall⟩ := hok
  obtain ⟨hi, rfl⟩ := List.getElem?_eq_some_iff.mp hk
  exact ⟨hlen ▸ hi, hall i hi⟩

/-- Two workers that own one cell are one worker. -/
theorem worker_unique (hok : barrierOk b s) {j : Nat} {w : Worker} {r c : Nat} (hk : b.workers[i]? = some k)
    (hw : b.workers[j]? = some w) (h : k.Owns b.pass r c) (h' : w.Owns b.pass r c) : i = j := by
  obtain ⟨hlo, hhi⟩ := workerOk_span (workerOk_of_getElem? hok hk).2
  obtain ⟨hlo', hhi'⟩ := workerOk_span (workerOk_of_getElem? hok hw).2
  rw [Worker.Owns, hlo, hhi] at h
  rw [Worker.Owns, hlo', hhi'] at h'
  exact span_unique h h'

/-- Every cell off the border is owned by one of the workers. -/
theorem exists_worker (hok : barrierOk b s) (hn : 1 ≤ s.p.nwork.toNat) {r c : Nat} (h1 : 1 ≤ passIndex b.pass r c)
    (h2 : passIndex b.pass r c < passLen b.pass s) :
    ∃ (j : Nat) (w : Worker), b.workers[j]? = some w ∧ w.Owns b.pass r c := by
  have ⟨hlen, _, hall⟩ := hok
  obtain ⟨j, hj, hspan⟩ := exists_worker_span hn h1 h2
  rw [← hlen] at hj
  obtain ⟨hlo, hhi⟩ := workerOk_span (hall j hj)
  exact ⟨j, _, List.getElem?_eq_getElem hj, by rwa [Worker.Owns, hlo, hhi]⟩

/-- A changed worker: what is known is known by it, or by the border or another worker as before. -/
theorem known_set {n : Nat} {k' : Worker} {st : Stage} {r c : Nat} (hk : b.workers[i]? = some k)
    (h : Known s (.barrier { b with arrivedCount := n, workers := b.workers.set i k' }) st r c) :
    st.Border r c ∨ (1 ≤ c ∧ k'.Has r c st b.pass) ∨
      (1 ≤ c ∧ ∃ (j : Nat) (w : Worker), j ≠ i ∧ b.workers[j]? = some w ∧ w.Has r c st b.pass) := by
  obtain ⟨hi, -⟩ := List.getElem?_eq_some_iff.mp hk
  rcases h with h | ⟨hc, j, w, hw, h⟩
  · exact .inl h
  · by_cases hj : j = i
    · subst hj
      rw [List.getElem?_set_self hi] at hw
      cases hw
      exact .inr (.inl ⟨hc, h⟩)
    · rw [List.getElem?_set_ne (Ne.symm hj)] at hw
      exact .inr (.inr ⟨hc, j, w, hj, hw, h⟩)

theorem tidy_set {n : Nat} {k' : Worker} (ht : Tidy s (.barrier b)) (h : k'.Tidy s b.pass) :
    Tidy s (.barrier { b with arrivedCount := n, workers := b.workers.set i k' }) := by
  intro w hw
  rcases List.mem_or_eq_of_mem_set hw with hw | rfl
  · exact ht w hw
  · exact h

theorem Worker.Tidy.next {pass : Pass} (hin : k.hasCell pass s) (ht : k.Tidy s pass) : (k.next pass s).Tidy s pass := by
  cases pass with
  | one =>
    simp only [Worker.Tidy, Worker.next, nextInPass1] at ht ⊢
    split
    · rename_i h
      exact fun _ => h
    · exact id
  | two =>
    simp only [Worker.Tidy, Worker.next, nextInPass2] at ht ⊢
    split
    · rename_i h
      exact fun _ => h
    · exact id

theorem Worker.next_owns {pass : Pass} {r c : Nat} : (k.next pass s).Owns pass r c ↔ k.Owns pass r c := by
  cases pass with
  | one => simp only [Worker.Owns, Worker.next, nextInPass1]; split <;> rfl
  | two => simp only [Worker.Owns, Worker.next, nextInPass2]; split <;> rfl

/-- After a cell the worker has computed that cell more of those it owns. -/
theorem Worker.next_computed {pass : Pass} {r c : Nat} (ha : k.arrived = false) (hown : k.Owns pass r c)
    (hc : 1 ≤ c ∧ c < wp s) : (k.next pass s).Computed r c ↔ k.Computed r c ∨ (r = k.r ∧ c = k.c) := by
  cases pass with
  | one =>
    simp only [Worker.Owns, passIndex] at hown
    simp only [Worker.next, Worker.Computed, nextInPass1_arrived, ha, Bool.false_eq_true, false_or, passed]
    unfold nextInPass1
    split <;> simp only <;> omega
  | two =>
    simp only [Worker.next, Worker.Computed, nextInPass2_arrived, ha, Bool.false_eq_true, false_or, passed]
    unfold nextInPass2
    split <;> simp only <;> omega

theorem not_computed_cursor (ha : k.arrived = false) : ¬ k.Computed k.r k.c := by
  simp [Worker.Computed, passed, ha]

/-- The worker's cell gets the stage of the pass, its other cells keep theirs. -/
theorem has_next {pass : Pass} {st : Stage} {r c : Nat} (ha : k.arrived = false) (hc : 1 ≤ c ∧ c < wp s)
    (h : (k.next pass s).Has r c st pass) :
    ((r = k.r ∧ c = k.c) ∧ (passLaw pass).Gives k.r st) ∨ (¬ (r = k.r ∧ c = k.c) ∧ k.Has r c st pass) := by
  obtain ⟨hown, h⟩ := h
  rw [Worker.next_owns] at hown
  rw [Worker.next_computed ha hown hc] at h
  by_cases hcell : r = k.r ∧ c = k.c
  · refine .inl ⟨hcell, ?_⟩
    cases pass with
    | one => exact h.1
    | two => exact h.mpr (.inr hcell)
  · rw [or_iff_left hcell] at h
    exact .inr ⟨hcell, hown, h⟩

/-- A worker without a cell has computed all it owns. -/
theorem computed_of_no_cell {pass : Pass} {r c : Nat} (hout : ¬ k.hasCell pass s) (ht : k.Tidy s pass) (hr : r < hp s)
    (hc : 1 ≤ c ∧ c < wp s) (hown : k.Owns pass r c) : k.Computed r c := by
  refine .inr (.inl ?_)
  cases pass <;> simp only [Worker.hasCell, Worker.Tidy, Worker.Owns, passIndex] at hout ht hown <;> omega

/-- The arrival of a worker without a cell makes nothing known. -/
theorem has_of_arrived {pass : Pass} {st : Stage} {r c : Nat} (hout : ¬ k.hasCell pass s) (ht : k.Tidy s pass)
    (hr : r < hp s) (hc : 1 ≤ c ∧ c < wp s) (h : { k with arrived := true }.Has r c st pass) : k.Has r c st pass := by
  obtain ⟨hown, h⟩ := h
  have hcomp : k.Computed r c := computed_of_no_cell hout ht hr hc hown
  refine ⟨hown, ?_⟩
  cases pass with
  | one => exact ⟨h.1, hcomp⟩
  | two => exact iff_of_true (h.mpr (.inl rfl)) hcomp

/-- A worker owns the cell it computes next. -/
theorem owns_cursor {pass : Pass} (hok : workerOk pass i k s) (hin : k.hasCell pass s) : k.Owns pass k.r k.c := by
  cases pass with
  | one =>
    obtain ⟨-, -, -, -, hlo, -⟩ := hok
    exact ⟨hlo, hin.2⟩
  | two =>
    obtain ⟨-, -, hlo, -⟩ := hok
    exact ⟨hlo, hin.1⟩

/-- The cell a worker computes next lies in the grid, off the border. -/
theorem cursor_inside {pass : Pass} (hi : i < s.p.nwork.toNat) (hh : 1 ≤ hp s) (hw : 1 ≤ wp s)
    (hok : workerOk pass i k s) (hin : k.hasCell pass s) : (1 ≤ k.r ∧ k.r < hp s) ∧ 1 ≤ k.c ∧ k.c < wp s := by
  cases pass with
  | one =>
    obtain ⟨hlo, hhi, hr, -, hc, -⟩ := hok
    have h1 := one_le_spanLo (wp s) s.p.nwork.toNat i
    have h2 := spanHi_le hw hi
    obtain ⟨hin1, hin2⟩ := hin
    omega
  | two =>
    obtain ⟨hlo, hhi, hr, -, hc, -⟩ := hok
    have h1 := one_le_spanLo (hp s) s.p.nwork.toNat i
    have h2 := spanHi_le hh hi
    obtain ⟨hin1, hin2⟩ := hin
    omega

/-- A worker's cell has its operands (40_build.md R124, R126). -/
theorem ready_worker {pass : Pass} (hpass : b.pass = pass) (hk : b.workers[i]? = some k) (ha : k.arrived = false)
    (hown : k.Owns pass k.r k.c) (hr : 1 ≤ k.r) (hc : 1 ≤ k.c) :
    (passLaw pass).Ready (Known s (.barrier b)) k.r k.c := by
  cases pass with
  | one =>
    refine ⟨hr, hc, known_barrier hc hk ?_⟩
    rw [hpass]
    exact ⟨hown, rfl, .inr (.inl (by omega))⟩
  | two =>
    refine ⟨hr, hc, known_barrier hc hk ?_, ?_⟩
    · rw [hpass]
      exact ⟨hown, iff_of_false (fun h => by cases h) (not_computed_cursor ha)⟩
    · rcases Nat.eq_zero_or_pos (k.c - 1) with h0 | h0
      · exact .inl (.inr ⟨h0, rfl⟩)
      · refine known_barrier h0 hk ?_
        rw [hpass]
        exact ⟨hown, iff_of_true rfl (.inr (.inr ⟨rfl, by omega⟩))⟩

theorem sound_wCell (hok : barrierOk b s) (hh : 1 ≤ hp s) (hwp : 1 ≤ wp s) (ht : Tidy s (.barrier b))
    (hk : b.workers[i]? = some k) (ha : k.arrived = false) (hin : k.hasCell b.pass s) :
    Action.Sound s (.barrier b)
      (.cell (passLaw b.pass) k.r k.c (.barrier (setWorker b i (k.next b.pass s)))) := by
  obtain ⟨hi, hkok⟩ := workerOk_of_getElem? hok hk
  obtain ⟨⟨hr1, hr⟩, hc1, hc⟩ := cursor_inside hi hh hwp hkok hin
  have hown := owns_cursor hkok hin
  refine ⟨hr, hc, ready_worker rfl hk ha hown hr1 hc1,
    tidy_set ht (Worker.Tidy.next hin (ht k (List.mem_of_getElem? hk))), fun st r c _ hcw hknown => ?_⟩
  rcases known_set hk hknown with hb | ⟨hc1, h⟩ | ⟨hc1, j, w, hj, hw, h⟩
  · refine .inr ⟨?_, .inl hb⟩
    rcases hb with hb | ⟨hb, -⟩ <;> omega
  · exact (has_next ha ⟨hc1, hcw⟩ h).imp_right fun ⟨hne, h⟩ => ⟨hne, known_barrier hc1 hk h⟩
  · refine .inr ⟨?_, known_barrier hc1 hw h⟩
    rintro ⟨rfl, rfl⟩
    exact hj (worker_unique hok hw hk h.1 hown)

theorem sound_arrived (ht : Tidy s (.barrier b)) (hk : b.workers[i]? = some k) (hout : ¬ k.hasCell b.pass s) :
    Action.Sound s (.barrier b) (.move (.barrier (arrive b i k))) := by
  have htk : k.Tidy s b.pass := ht k (List.mem_of_getElem? hk)
  refine ⟨tidy_set ht (by cases hpass : b.pass <;> rw [hpass] at htk <;> exact htk), fun st r c hr hcw hknown => ?_⟩
  rcases known_set hk hknown with hb | ⟨hc1, h⟩ | ⟨hc1, j, w, -, hw, h⟩
  · exact .inl hb
  · exact known_barrier hc1 hk (has_of_arrived hout htk hr ⟨hc1, hcw⟩ h)
  · exact known_barrier hc1 hw h

/-- At the release every column sum of the grid is there, and pass 2 knows no more (40_build.md R125). -/
theorem sound_released (hok : barrierOk b s) (hn : 1 ≤ s.p.nwork.toNat) (hpass : b.pass = .one)
    (hcount : b.arrivedCount = b.workers.length) : Action.Sound s (.barrier b) (.move (.barrier (pass2 s))) := by
  refine ⟨fun w hw => ?_, fun st r c _ hcw hknown => ?_⟩
  · obtain ⟨j, -, rfl⟩ := List.mem_map.mp hw
    exact id
  · rcases hknown with hb | ⟨hc1, j, w, hw, ⟨hlo, -⟩, h⟩
    · exact .inl hb
    · obtain ⟨j, -, rfl⟩ := List.mem_map.mp (List.mem_of_getElem? hw)
      obtain ⟨i, k, hk, hown⟩ := exists_worker (r := r) (c := c) hok hn (by rwa [hpass]) (by rwa [hpass])
      have harr := arrived_of_count hok hcount k (List.mem_of_getElem? hk)
      refine known_barrier hc1 hk ?_
      rw [hpass] at hown ⊢
      refine ⟨hown, ?_, .inl harr⟩
      cases st with
      | column => rfl
      | full =>
        rcases h.mp rfl with h | h | ⟨-, h⟩
        · cases h
        · exact absurd h (Nat.not_lt.mpr hlo)
        · exact absurd h (Nat.not_lt.mpr hc1)

/-- When all workers of pass 2 have arrived every cell is full. -/
theorem sound_opened (hok : barrierOk b s) (hn : 1 ≤ s.p.nwork.toNat) (hpass : b.pass = .two)
    (hcount : b.arrivedCount = b.workers.length) : Action.Sound s (.barrier b) .complete := by
  intro r c hr _
  rcases Nat.eq_zero_or_pos r with h0 | h0
  · exact .inl (.inl h0)
  rcases Nat.eq_zero_or_pos c with hc | hc
  · exact .inl (.inr ⟨hc, rfl⟩)
  obtain ⟨i, k, hk, hown⟩ := exists_worker (r := r) (c := c) hok hn (by rwa [hpass]) (by rwa [hpass])
  have harr := arrived_of_count hok hcount k (List.mem_of_getElem? hk)
  refine known_barrier hc hk ?_
  rw [hpass] at hown ⊢
  exact ⟨hown, iff_of_true rfl (.inl harr)⟩

theorem Acts.sound_barrier {x : Action} (h : Acts s (.barrier b) x) (hk : cmdOk (.barrier b) s)
    (ht : Tidy s (.barrier b)) : x.Sound s (.barrier b) := by
  obtain ⟨hchk, -, hok⟩ := hk
  obtain ⟨hh, hw, -, hn, -⟩ := buildChecks_none hchk
  cases h with
  | wCell _ i k hk ha hin => exact sound_wCell hok hh hw ht hk ha hin
  | arrived _ i k hk ha hout => exact sound_arrived ht hk hout
  | released _ hpass hcount => exact sound_released hok (hn rfl) hpass hcount
  | opened _ hpass hcount => exact sound_opened hok (hn rfl) hpass hcount

end

/-! ## All strategies -/

/-- Every action of an enabled agent of a build keeps the cells known. -/
theorem Acts.sound {c : CmdState} {s : State} {x : Action} (h : Acts s c x) (hk : cmdOk c s) (ht : Tidy s c) :
    x.Sound s c := by
  cases c with
  | sentinels k z => exact h.sound_sentinels hk
  | serial r c => exact h.sound_serial hk ht
  | wave w => exact h.sound_wave hk
  | barrier b => exact h.sound_barrier hk ht
  | traverse => cases h

end Sys2Proof.Machine
end

section
/-! PROOFS. The builds, whole: whatever agent steps, the cells known hold their stages, and at the end every cell is
that of the table and the flag says whether the grid overflows (40_build.md R111, R128, R129). -/

namespace Sys2Proof.Machine

/-! ## A build under way -/

/-- What a build that was started in `s0` leaves as it was, at every moment, and what its overflow flag means. -/
structure Building (px : Nat → Nat → Quad Byte) (s0 s : State) : Prop where
  frame : s = { s0 with cp := s.cp, engine := s.engine, satValid := s.satValid, satOvf := s.satOvf, mem := s.mem,
                        env := s.env, draws := s.draws }
  bytes : sameBytesOutside (inSatGrid s0) s0 s
  turns : onlyEngineTurns s
  flag : s.satOvf = true → gridOverflows px (hp s0) (wp s0) = true

/-- The build is in substate `c`, and the cells known there hold their stages. -/
structure Underway (px : Nat → Nat → Quad Byte) (s0 : State) (c : CmdState) (s : State) : Prop
    extends Building px s0 s where
  engine : s.engine = .busy (.exec c)
  cp : s.cp = s0.cp
  build : isBuild c
  ok : cmdOk c s
  tidy : Tidy s c
  cells : ∀ st r k, r < hp s → k < wp s → Known s c st r k → CellHolds px s st r k

/-- The build has completed: the table, `SATVALID`, `cp`, and the flag (40_build.md R111, R116, R129). -/
structure Finished (px : Nat → Nat → Quad Byte) (s0 s : State) : Prop extends Building px s0 s where
  engine : s.engine = .busy .fetch
  cp : s.cp = (s0.cp + 4#32) &&& 0xFFFFFFFC#32
  valid : s.satValid = true
  table : tableIs (satRef px) s
  ovf : s.satOvf = gridOverflows px (hp s0) (wp s0)

section
variable {px : Nat → Nat → Quad Byte} {s0 s t : State} {c : CmdState}

theorem Building.p (h : Building px s0 s) : s.p = s0.p := by rw [h.frame]

theorem Building.platform (h : Building px s0 s) : s.platform = s0.platform := by rw [h.frame]

/-- The grid of the build does not move. -/
theorem Building.inSatGrid (h : Building px s0 s) {a : Nat} : inSatGrid s a ↔ inSatGrid s0 a := by
  simp only [Machine.inSatGrid, hp_of_p h.p, wp_of_p h.p, h.p]

/-- The Pixels stay as they were: a build writes the SAT grid alone, which lies apart (40_build.md R132). -/
theorem Underway.readPx (h : Underway px s0 c s) (hpx : pixelsAre px s0) {r k : Nat} (hr : r < hp s) (hk : k < wp s)
    (hr1 : 1 ≤ r) (hk1 : 1 ≤ k) : readPx s r k = .ok (px r k) := by
  have hb := h.toBuilding
  rw [← hpx r k hr1 (hp_of_p hb.p ▸ hr) hk1 (wp_of_p hb.p ▸ hk)]
  refine readPx_congr hb.p hb.platform fun x h1 h2 => hb.bytes x fun hx => ?_
  refine pixel_not_inSatGrid (cmdOk_buildChecks h.build h.ok) hr hk ?_ (hb.inSatGrid.mpr hx)
  rw [pxAddr_of_p _ _ hb.p]
  exact ⟨h1, h2⟩

theorem Building.plainBytes (h : Building px s0 s) (hpl : plainWhere (Machine.inSatGrid s0) s0) {r k : Nat}
    (hr : r < hp s) (hk : k < wp s) : plainBytes (satAddr s r k) 16 s := fun a ha => by
  rw [h.platform]
  exact hpl a (h.inSatGrid.mp (inSatGrid_of_cell hr hk ha))

/-! ## A cell step -/

/-- A cell step leaves the other cells of the grid. -/
theorem CellStepped.satR_other {r k r' k' : Nat} {x : Quad Int} {next : CmdState} (h : CellStepped s r k x next t)
    (hk : k < wp s) (hk' : k' < wp s) (hne : ¬ (r' = r ∧ k' = k)) : satR t r' k' = satR s r' k' := by
  have hp : t.p = s.p := by rw [h.only]
  have hpl : t.platform = s.platform := by rw [h.only]
  exact satR_congr hp hpl fun a h1 h2 => h.wrote.2 a fun ha => hne (cell_unique hk' hk ⟨h1, h2⟩ ha)

theorem CellStepped.satOvf_before {r k : Nat} {x : Quad Int} {next : CmdState} (h : CellStepped s r k x next t)
    (ht : t.satOvf = false) : s.satOvf = false ∧ Quad.any exceeds x = false := by
  rw [h.ovf, Bool.or_eq_false_iff] at ht
  exact ht

/-- The updated cell holds the stage of its law. -/
theorem CellStepped.holds_cell {r k : Nat} {x : Quad Int} {next : CmdState} {st : Stage}
    (h : CellStepped s r k x next t) (hx : UpdateOf px s x r k st) : CellHolds px t st r k where
  read := hx.value ▸ h.wrote.1
  fits ht ho := by
    obtain ⟨hs, he⟩ := h.satOvf_before ht
    rw [hx.complete hs ho] at he
    cases he

/-- The other cells hold what they held. -/
theorem CellStepped.holds_other {r k r' k' : Nat} {x : Quad Int} {next : CmdState} {st : Stage}
    (h : CellStepped s r k x next t) (hk : k < wp s) (hk' : k' < wp s) (hne : ¬ (r' = r ∧ k' = k))
    (hc : CellHolds px s st r' k') : CellHolds px t st r' k' where
  read := (h.satR_other hk hk' hne).trans hc.read
  fits ht := hc.fits (h.satOvf_before ht).1

theorem Building.cellStepped {r k : Nat} {x : Quad Int} {next : CmdState} {st : Stage} (hb : Building px s0 s)
    (h : CellStepped s r k x next t) (hr : r < hp s) (hk : k < wp s) (hx : UpdateOf px s x r k st)
    (hst : st = .column → 1 ≤ k) : Building px s0 t where
  frame := by
    rw [h.only, hb.frame]
  bytes a ha := (h.wrote.2 a fun hin => ha (hb.inSatGrid.mp (inSatGrid_of_cell hr hk hin))).trans (hb.bytes a ha)
  turns := onlyEngineTurns_of_env (by rw [h.only]) hb.turns
  flag ht := by
    rw [h.ovf, Bool.or_eq_true] at ht
    rcases ht with ht | ht
    · exact hb.flag ht
    · rw [← hp_of_p hb.p, ← wp_of_p hb.p]
      exact (hx.sound ht).grid hr hk hst

/-! ## An action -/

/-- A step of a build that moves on stays inside its ranges. -/
theorem agentStep_cmdOk {a : Agent} {c' : CmdState} (hb : isBuild c) (hk : cmdOk c s)
    (h : agentStep a c s = .next t) (he : t.engine = .busy (.exec c')) : isBuild c' ∧ cmdOk c' t := by
  cases agentStep_build hb h with
  | moved c'' u hc hu =>
    cases he
    have hok := cmdOk_cellDone hu (hc.2 hk)
    exact ⟨hc.1, hok⟩
  | cut | completed => cases he

theorem tidy_of_p (h : t.p = s.p) : Tidy t c ↔ Tidy s c := by
  cases c with
  | barrier b =>
    simp only [Tidy]
    cases b.pass <;> simp only [Worker.Tidy, wp_of_p h]
  | sentinels | serial | wave | traverse => simp only [Tidy, wp_of_p h]

theorem known_of_p {st : Stage} {r k : Nat} (h : t.p = s.p) : Known t c st r k ↔ Known s c st r k := by
  cases c <;> simp only [Known, wp_of_p h]

/-- A cell step of a build with its Pixels readable and its grid plain goes on. -/
theorem Underway.cell {law : Law} {r k : Nat} {next : CmdState} {a : Agent} (h : Underway px s0 c s)
    (hpx : pixelsAre px s0) (hpl : plainWhere (inSatGrid s0) s0)
    (hx : Action.Sound s c (.cell law r k next)) (ha : agentStep a c s = Action.run s (.cell law r k next)) :
    ∃ t, agentStep a c s = .next t ∧ Underway px s0 next t := by
  obtain ⟨hr, hk, hready, htidy, hkeeps⟩ := hx
  have hb := h.toBuilding
  have hholds : law.Ready (CellHolds px s) r k :=
    hready.mono fun st r' k' hr' hk' hknown => h.cells st r' k' (by omega) (by omega) hknown
  obtain ⟨x, hcell, hupd⟩ := Law.cell_eq (h.readPx hpx hr hk) hholds
  obtain ⟨t, ht, hs⟩ := buildStep_cellUpdate x next (hb.plainBytes hpl hr hk)
  have hstep : agentStep a c s = .next t := by rw [ha, ← ht, ← hcell]; rfl
  have hp : t.p = s.p := by rw [hs.only]
  obtain ⟨st, hst, hcol⟩ := hready.gives
  obtain ⟨hbuild, hok⟩ := agentStep_cmdOk h.build h.ok hstep hs.engine
  refine ⟨t, hstep, ?_⟩
  exact
    { toBuilding := hb.cellStepped hs hr hk (hupd st hst) hcol
      engine := hs.engine
      cp := Eq.trans (by rw [hs.only]) h.cp
      build := hbuild
      ok := hok
      tidy := (tidy_of_p hp).mpr htidy
      cells := fun st r' k' hr' hk' hknown => by
        rw [hp_of_p hp] at hr'
        rw [wp_of_p hp] at hk'
        rcases hkeeps st r' k' hr' hk' ((known_of_p hp).mp hknown) with ⟨⟨rfl, rfl⟩, hg⟩ | ⟨hne, hold⟩
        · exact hs.holds_cell (hupd st hg)
        · exact hs.holds_other hk hk' hne (h.cells st r' k' hr' hk' hold) }

/-- A step that moves the cursors alone changes no cell. -/
theorem Underway.move {next : CmdState} {a : Agent} (h : Underway px s0 c s) (hx : Action.Sound s c (.move next))
    (ha : agentStep a c s = Action.run s (.move next)) :
    ∃ t, agentStep a c s = .next t ∧ Underway px s0 next t := by
  obtain ⟨htidy, hkeeps⟩ := hx
  obtain ⟨hbuild, hok⟩ := agentStep_cmdOk h.build h.ok ha rfl
  refine ⟨_, ha, ?_⟩
  exact
    { frame := by rw [h.frame]; rfl
      bytes := h.bytes
      turns := h.turns
      flag := h.flag
      engine := rfl
      cp := h.cp
      build := hbuild
      ok := hok
      tidy := htidy
      cells := fun st r k hr hk hknown =>
        have hold := h.cells st r k hr hk (hkeeps st r k hr hk hknown)
        ⟨(satR_setCmd next s r k).trans hold.read, hold.fits⟩ }

/-- While the flag is clear the last cell fits, and with it the whole grid (40_build.md R129). -/
theorem Underway.satOvf_eq (h : Underway px s0 c s) (hx : Action.Sound s c .complete) :
    s.satOvf = gridOverflows px (hp s0) (wp s0) := by
  obtain ⟨hh, hw, -⟩ := buildChecks_none (cmdOk_buildChecks h.build h.ok)
  have hlast := h.cells .full (hp s - 1) (wp s - 1) (by omega) (by omega) (hx _ _ (by omega) (by omega))
  cases hs : s.satOvf with
  | true => exact (h.flag hs).symm
  | false =>
    refine ((Bool.not_eq_true _).mp fun ho => hlast.fits hs ?_).symm
    rw [← hp_of_p h.p, ← wp_of_p h.p] at ho
    exact gridOverflows_iff.mp ho

/-- The completion finds every cell full. -/
theorem Underway.complete {a : Agent} (h : Underway px s0 c s) (hx : Action.Sound s c .complete)
    (ha : agentStep a c s = Action.run s .complete) : ∃ t, agentStep a c s = .next t ∧ Finished px s0 t := by
  refine ⟨_, ha, ?_⟩
  exact
    { frame := by rw [h.frame]; rfl
      bytes := h.bytes
      turns := h.turns
      flag := h.flag
      engine := rfl
      cp := by rw [completeBuild_cp, h.cp]
      valid := rfl
      table := fun r k hr hk =>
        (satR_congr rfl rfl fun _ _ _ => rfl : satR (completeBuild s) r k = satR s r k).trans
          (h.cells .full r k hr hk (hx r k hr hk)).read
      ovf := h.satOvf_eq hx }

/-- Taking the turn and drawing a choice changes nothing a build looks at. -/
theorem Underway.scheduled {u : State} (h : Underway px s0 c s) (hu : Scheduled s u) : Underway px s0 c u := by
  obtain ⟨he, ht⟩ := hu
  have hframe : u = { s0 with cp := u.cp, engine := u.engine, satValid := u.satValid, satOvf := u.satOvf,
                              mem := u.mem, env := u.env, draws := u.draws } := by
    rw [he, h.frame]
  rw [he] at ht hframe ⊢
  exact
    { frame := hframe
      bytes := h.bytes
      turns := ht
      flag := h.flag
      engine := h.engine
      cp := h.cp
      build := h.build
      ok := h.ok
      tidy := h.tidy
      cells := fun st r k hr hk hknown =>
        have hold := h.cells st r k hr hk hknown
        ⟨(satR_congr rfl rfl fun _ _ _ => rfl).trans hold.read, hold.fits⟩ }

/-- An action keeps to the commands whose steps are counted: only `BUILD.W` starts a wavefront. -/
theorem Acts.counted {x : Action} {next : CmdState} (h : Acts s c x) (hc : counted c) (hn : x.next = some next) :
    Machine.counted next := by
  cases h with
  | zCell k z =>
    obtain rfl := Option.some.inj hn
    split
    · exact hc
    · cases k with
      | serial | barrier => trivial
      | wavefront => exact absurd rfl hc
  | sCell =>
    obtain rfl := Option.some.inj hn
    split <;> trivial
  | wCell | arrived | released =>
    obtain rfl := Option.some.inj hn
    trivial
  | scanned | opened => cases hn
  | pCell | pRowEnd | pFinal | cWake | cCell | cRowEnd | joined => exact hc.elim

/-- A build under way, where `exactly` says that its steps left are counted, or completed. -/
def BuildRun (px : Nat → Nat → Quad Byte) (s0 : State) (exactly : Prop) (s : State) : Prop :=
  (∃ c, Underway px s0 c s ∧ (exactly → counted c)) ∨ Finished px s0 s

/-- Every step of an enabled agent leads on (40_build.md R130). -/
theorem Underway.agentStep {exactly : Prop} {a : Agent} (h : Underway px s0 c s) (hc : exactly → counted c)
    (hpx : pixelsAre px s0) (hpl : plainWhere (inSatGrid s0) s0) (ha : a ∈ enabledAgents c s) :
    ∃ t, agentStep a c s = .next t ∧ BuildRun px s0 exactly t ∧ stepsLeft t < stepsLeft s ∧
      (exactly → stepsLeft t + 1 = stepsLeft s) := by
  obtain ⟨x, hx, he⟩ := acts_of_enabled h.build ha
  have hsound := hx.sound h.ok h.tidy
  have key : ∃ t, Machine.agentStep a c s = .next t ∧ BuildRun px s0 exactly t ∧ t.engine ≠ .faulted := by
    cases x with
    | cell law r k next =>
      obtain ⟨t, ht, hu⟩ := h.cell hpx hpl hsound he
      exact ⟨t, ht, .inl ⟨next, hu, fun hex => hx.counted (hc hex) rfl⟩, by simp [hu.engine]⟩
    | move next =>
      obtain ⟨t, ht, hu⟩ := h.move hsound he
      exact ⟨t, ht, .inl ⟨next, hu, fun hex => hx.counted (hc hex) rfl⟩, by simp [hu.engine]⟩
    | complete =>
      obtain ⟨t, ht, hu⟩ := h.complete hsound he
      exact ⟨t, ht, .inr hu, by simp [hu.engine]⟩
  obtain ⟨t, ht, hrun, hne⟩ := key
  have hleft : stepsLeft t = x.left s := (Action.stepsLeft_run (he ▸ ht)).resolve_left hne
  obtain ⟨hlt, hex⟩ := hx.left h.ok
  rw [← stepsLeft_inCommand h.engine, ← hleft] at hlt hex
  exact ⟨t, ht, hrun, hlt, fun he => hex (hc he)⟩

end

/-! ## The whole run -/

/-- The state after the start of a build (40_build.md R114). -/
def started (k : Strategy) (s : State) : State :=
  setCmd (.sentinels k 0) { s with satValid := false, satOvf := false }

section
variable {px : Nat → Nat → Quad Byte} {s : State} {k : Strategy}

theorem underway_started (hk : firstFault (buildChecks k s) = none) (ht : onlyEngineTurns s) :
    Underway px s (.sentinels k 0) (started k s) := by
  obtain ⟨hh, hw, -⟩ := buildChecks_none hk
  have hz : 0 < hp s + wp s - 1 := by omega
  exact
    { frame := rfl
      bytes := fun _ _ => rfl
      turns := ht
      flag := fun h => by cases h
      engine := rfl
      cp := rfl
      build := trivial
      ok := ⟨hk, rfl, hz⟩
      tidy := trivial
      cells := fun st r c _ hc hknown => by
        have hwp : wp (started k s) = wp s := rfl
        rcases hknown with ⟨-, h⟩ | ⟨-, -, -, h⟩ <;> omega }

/-- The build runs to its completion, for every script of picks and every free choice (40_build.md R130, R131). -/
theorem build_run (hk : firstFault (buildChecks k s) = none) (hpx : pixelsAre px s)
    (hpl : plainWhere (inSatGrid s) s) (ht : onlyEngineTurns s) :
    ∃ n t, startBuild k s = .next (started k s) ∧ commandEndsAt n (started k s) t ∧ Finished px s t ∧
      (k ≠ .wavefront → n = remaining (.sentinels k 0) s) := by
  have hstep : ∀ u, BuildRun px s (k ≠ .wavefront) u → inCommand u →
      ∃ t, step u = .next t ∧ BuildRun px s (k ≠ .wavefront) t ∧ stepsLeft t < stepsLeft u ∧
        (k ≠ .wavefront → stepsLeft t + 1 = stepsLeft u) := by
    rintro u hu ⟨c, he⟩
    rcases hu with ⟨c', hu, hc⟩ | hu
    · obtain ⟨a, v, ha, hv, hs⟩ := step_inCommand hu.engine hu.turns hu.ok
      have hleft : stepsLeft v = stepsLeft u := by
        rw [stepsLeft_inCommand hu.engine, stepsLeft_inCommand (c := c') (by rw [hv.1]; exact hu.engine),
          hv.remaining]
      rw [hs, ← hleft]
      exact (hu.scheduled hv).agentStep hc hpx hpl ha
    · rw [hu.engine] at he
      cases he
  have hu := underway_started (px := px) hk ht
  rcases commandEnds_or_refused (fun u hu hc => .inr (hstep u hu hc)) (started k s) (.inl ⟨_, hu, id⟩) with
    ⟨n, t, hend, hrun, hcount⟩ | ⟨n, u, r, -, hu, hc, hr⟩
  · have ⟨_, hover, _⟩ := hend
    refine ⟨n, t, startBuild_of_checks hk, hend, ?_, fun h => ?_⟩
    · rcases hrun with ⟨c, hc, -⟩ | h
      · exact absurd ⟨c, hc.engine⟩ hover
      · exact h
    · exact (hcount h).trans ((stepsLeft_inCommand hu.engine).trans (remaining_of_p rfl))
  · obtain ⟨t, ht, -⟩ := hstep u hu hc
    rw [hr] at ht
    cases ht

theorem Finished.buildResult {t : State} (h : Finished px s t) (ha : cpAligned s) : buildResult px s t := by
  refine ⟨h.engine, h.cp.trans (cpAligned_add ha), h.valid, h.table, h.bytes, ?_, ?_, ?_, ?_⟩
  · rw [h.frame]; exact ⟨rfl, rfl, rfl, rfl, rfl, rfl, rfl, rfl⟩
  · rw [h.frame]
  · rw [h.frame]
  · rw [h.frame]

end

/-! ## How many steps a build takes -/

theorem remaining_serial (s : State) :
    remaining (.sentinels .serial 0) s = (hp s + wp s - 1) + (hp s - 1) * (wp s - 1) + 1 := by
  simp only [remaining, strategyStart, agentsLeft, loopLeft_start]
  omega

/-- The lengths of the first `m` spans, `a` steps for each index and one for each worker. -/
theorem sum_spans (a l n m : Nat) :
    ((List.range m).map fun w => a * (spanHi l n w - spanLo l n w) + 1).sum = a * (spanLo l n m - 1) + m := by
  induction m with
  | zero => simp [spanLo_zero]
  | succ m ih =>
    have h1 := spanLo_le_spanHi l n m
    have h2 := one_le_spanLo l n m
    rw [spanHi_eq_spanLo] at h1
    obtain ⟨d, hd⟩ := Nat.exists_eq_add_of_le h1
    have h3 : spanLo l n (m + 1) - 1 = (spanLo l n m - 1) + d := by omega
    rw [List.range_succ, List.map_append, List.sum_append, ih, h3, Nat.mul_add]
    simp only [List.map_cons, List.map_nil, List.sum_cons, List.sum_nil, spanHi_eq_spanLo, hd, Nat.add_sub_cancel_left]
    omega

theorem workersLeft_pass1 {s : State} (hw : 1 ≤ wp s) (hn : 1 ≤ s.p.nwork.toNat) :
    workersLeft .one s (pass1 s).workers = (hp s - 1) * (wp s - 1) + s.p.nwork.toNat := by
  rw [← spanLo_self hw hn, ← sum_spans, workersLeft, pass1, List.map_map]
  refine congrArg List.sum (List.map_congr_left fun w _ => ?_)
  exact loopLeft_start _ _ _ _

theorem workersLeft_pass2 {s : State} (hh : 1 ≤ hp s) (hn : 1 ≤ s.p.nwork.toNat) :
    workersLeft .two s (pass2 s).workers = (hp s - 1) * (wp s - 1) + s.p.nwork.toNat := by
  rw [← spanLo_self hh hn, Nat.mul_comm, ← sum_spans, workersLeft, pass2, List.map_map]
  refine congrArg List.sum (List.map_congr_left fun w _ => ?_)
  rw [Nat.mul_comm]
  exact loopLeft_start _ _ _ _

theorem remaining_barrier {s : State} (hh : 1 ≤ hp s) (hw : 1 ≤ wp s) (hn : 1 ≤ s.p.nwork.toNat) :
    remaining (.sentinels .barrier 0) s =
      (hp s + wp s - 1) + 2 * ((hp s - 1) * (wp s - 1)) + 2 * s.p.nwork.toNat + 2 := by
  have h1 := workersLeft_pass1 hw hn
  have h2 := workersLeft_pass2 hh hn
  have hb : barrierLeft (pass1 s) s =
      workersLeft .one s (pass1 s).workers + 1 + workersLeft .two s (pass2 s).workers + 1 := rfl
  simp only [remaining, strategyStart, agentsLeft, hb, h1, h2]
  omega

/-! ## The obligations -/

/-- Settles O27. -/
theorem serialBuildComputesSatRef : Obligations.SerialBuildComputesSatRef := by
  intro s px hf hpx hpl ht ha
  obtain ⟨n, t, hstart, hend, hfin, hcount⟩ := build_run (buildFaultOf_eq_none.mp hf) hpx hpl ht
  rw [hcount (by decide), remaining_serial] at hend
  exact ⟨_, t, hstart, hend, hfin.buildResult ha⟩

/-- Settles O28. -/
theorem wavefrontBuildComputesSatRef : Obligations.WavefrontBuildComputesSatRef := by
  intro s px hf hpx hpl ht ha
  obtain ⟨n, t, hstart, hend, hfin, -⟩ := build_run (buildFaultOf_eq_none.mp hf) hpx hpl ht
  exact ⟨_, n, t, hstart, hend, hfin.buildResult ha⟩

/-- Settles O29. -/
theorem barrierBuildComputesSatRef : Obligations.BarrierBuildComputesSatRef := by
  intro s px hf hpx hpl ht ha
  have hk := buildFaultOf_eq_none.mp hf
  obtain ⟨hh, hw, -, hn, -⟩ := buildChecks_none hk
  obtain ⟨n, t, hstart, hend, hfin, hcount⟩ := build_run hk hpx hpl ht
  rw [hcount (by decide), remaining_barrier hh hw (hn rfl)] at hend
  exact ⟨_, t, hstart, hend, hfin.buildResult ha⟩

/-- Settles O30. -/
theorem overflowFlagIsStrategyIndependent : Obligations.OverflowFlagIsStrategyIndependent := by
  intro k s px hf hpx hpl ht
  obtain ⟨n, t, hstart, hend, hfin, -⟩ := build_run (buildFaultOf_eq_none.mp hf) hpx hpl ht
  exact ⟨_, n, t, (exec_buildCommand k s).trans hstart, hend, hfin.ovf⟩

end Sys2Proof.Machine
end

section
/-! PROOFS. The queries that are one step: their check lists, what they leave in the result registers, the bytes of an
average. -/

namespace Sys2Proof.Machine

/-! ## Check lists -/

/-- A reported fault that is not BusError is precise (60_exceptions.md R211). -/
theorem reported_precise {l : List (Bool × FaultCode × Word)} {code : BitVec 8} {info : Word}
    (h : reported l = some (code, info)) (hl : ∀ x ∈ l, x.2.1 ≠ .busError) (s : State) :
    ∃ c, firstFault l = some (c, info) ∧ raiseFault c info s = afterFault code info s := by
  rw [reported, Option.map_eq_some_iff] at h
  obtain ⟨⟨c, i⟩, hf, he⟩ := h
  cases he
  exact ⟨c, hf, raiseFault_eq_afterFault (hl _ (firstFault_some_mem hf)) i s⟩

theorem queryChecks_not_busError (k : QueryKind) (s : State) : ∀ x ∈ queryChecks k s, x.2.1 ≠ .busError := by
  simp [queryChecks]

theorem cellChecks_not_busError (s : State) : ∀ x ∈ cellChecks s, x.2.1 ≠ .busError := by
  simp [cellChecks]

theorem queryFaultOf_precise {k : QueryKind} {s : State} {code : BitVec 8} {info : Word}
    (h : queryFaultOf k s = some (code, info)) :
    ∃ c, firstFault (queryChecks k s) = some (c, info) ∧ raiseFault c info s = afterFault code info s :=
  reported_precise (queryFaultOf_eq k s ▸ h) (queryChecks_not_busError k s) s

/-- Settles O34: the list is the table, and none of its faults is the fatal one. -/
theorem queryRaisesFirstFault : Obligations.QueryRaisesFirstFault := by
  intro s code info
  refine ⟨fun h => ?_, fun h => ?_, fun h => ?_⟩ <;> obtain ⟨c, hf, he⟩ := queryFaultOf_precise h
  · simp only [exec, execQsum, hf, he]
  · simp only [exec, execQblur, hf, he]
  · simp only [exec, execQapply, hf, he]

/-- The list the model checks is the table of 41_query.md R158. -/
theorem cellFaultOf_eq (s : State) : cellFaultOf s = reported (cellChecks s) := by
  simp only [cellFaultOf, cellChecks, reported_cons, Bool.or_eq_true, decide_eq_true_eq, Bool.not_eq_true', ge_iff_le,
    FaultCode.number, reported_nil]

theorem cellChecks_of_cellFaultOf {s : State} (h : cellFaultOf s = none) : firstFault (cellChecks s) = none := by
  rwa [cellFaultOf_eq, reported, Option.map_eq_none_iff] at h

/-! ## One step -/

theorem complete_of_aligned {s : State} (h : cpAligned s) :
    complete s = { s with cp := s.cp + 4#32, engine := .busy .fetch } := by
  simp only [complete, setCp, cpAligned_add h]

/-- Settles O37: the list is the table, and the one access is the read of the cell. -/
theorem rdcellCopiesOneCell : Obligations.RdcellCopiesOneCell := by
  refine ⟨rfl, fun s => ⟨fun code info h => ?_, fun q ha hc hq => ?_, fun a hc he => ?_⟩⟩
  · obtain ⟨c, hf, he⟩ := reported_precise (cellFaultOf_eq s ▸ h) (cellChecks_not_busError s) s
    simp only [exec, execRdcell, hf, he]
  · simp only [exec, execRdcell, cellChecks_of_cellFaultOf hc, hq]
    rw [complete_of_aligned]
    exact ha
  · refine ⟨(satR_bus_iff.mp he).1, ?_⟩
    simp only [exec, execRdcell, cellChecks_of_cellFaultOf hc, he]
    rfl

theorem chan_winExact (br bl tr tl : Quad Word) (ch : Channel) :
    chan (winExact br bl tr tl) ch =
      ((chan br ch).toNat : Int) - (chan bl ch).toNat - (chan tr ch).toNat + (chan tl ch).toNat := by
  simp only [winExact, chan_zip, wordInt]

/-- The flag of a window sum: a channel of a corner is at `M` (10_state.md R27). -/
theorem winInexact_iff {br bl tr tl : Quad Word} :
    winInexact br bl tr tl = true ↔ ∃ q ∈ [br, bl, tr, tl], ∃ ch, chan q ch = 0xFFFFFFFF#32 := by
  simp only [winInexact, atMax, Bool.or_eq_true, quad_any_iff, decide_eq_true_eq, List.mem_cons, List.not_mem_nil,
    or_false, exists_eq_or_imp, exists_eq_left, or_assoc]

theorem execQsum_of_winSum {s : State} {x : Quad Int} {inexact : Bool} (hc : queryFaultOf .sum s = none)
    (hw : winSum s s.p.qrow.toNat s.p.qcol.toNat = .ok (x, inexact)) :
    execQsum s = .next (complete { s with qs := Quad.map sat32 x, qInexact := inexact }) := by
  simp only [execQsum, queryChecks_of_queryFaultOf hc, hw]

/-- Settles O35: one clamp of the exact combination in each channel. -/
theorem qsumLeavesWindowSum : Obligations.QsumLeavesWindowSum := by
  intro s br bl tr tl ha hc hbr hbl htr htl
  have hw := winSum_ok_iff.mpr ⟨br, bl, tr, tl, hbr, hbl, htr, htl, rfl, rfl⟩
  refine ⟨_, execQsum_of_winSum hc hw, fun ch => ?_, winInexact_iff, ?_⟩
  · rw [complete_qs, chan_map, sat32_toInt, chan_winExact]
  · rw [complete_of_aligned]
    exact ha

/-! ## The average -/

theorem toNat_append_byte {n : Nat} (x : BitVec n) (b : Byte) : (x ++ b).toNat = 256 * x.toNat + b.toNat := by
  rw [BitVec.toNat_append, ← Nat.shiftLeft_add_eq_or_of_lt b.isLt, Nat.shiftLeft_eq, Nat.mul_comm]

/-- Settles O40: the packed Pixel is its four bytes to base 256. -/
theorem averagePixelBytes : Obligations.AveragePixelBytes := by
  intro area q
  have hb := (avgChannel area q.b).isLt
  have hg := (avgChannel area q.g).isLt
  have hr := (avgChannel area q.r).isLt
  have hv : (avgPix area q).toNat = 256 * (256 * (256 * 255 + (avgChannel area q.b).toNat) +
      (avgChannel area q.g).toNat) + (avgChannel area q.r).toNat := by
    simp only [avgPix, toNat_append_byte, BitVec.toNat_ofNat]
  rw [hv, ← avgChannel_toNat, ← avgChannel_toNat, ← avgChannel_toNat]
  refine ⟨?_, ?_, ?_, ?_⟩ <;> omega

end Sys2Proof.Machine
end

section
/-! PROOFS. A window and its Pixel: what `QBLUR` and one `A-PIXEL` leave. -/

namespace Sys2Proof.Machine

/-! ## One Pixel -/

/-- With the window readable and the Pixel plain, painting goes on from a state with that Pixel written (20_memory.md
R70). -/
theorem paintPixel_of_plain {s : State} (cut : State) {r c : Nat} {x : Quad Int} {inexact : Bool}
    (k : Quad Int → Bool → State → State) (hw : winSum s r c = .ok (x, inexact))
    (hp : plainBytes (dstAddr s r c) 4 s) :
    ∃ u, paintPixel s cut r c k = .next (k x inexact u) ∧ u = { s with mem := u.mem } ∧
      memRead u (dstAddr s r c) 4 = .ok (averagePixel s x).toNat ∧
      sameBytesOutside (inBytes (dstAddr s r c) 4) s u := by
  have hd : dstW s r c (averagePixel s x) = .ok _ :=
    dstW_ok_iff.mpr ⟨fun i hi => hp _ ⟨Nat.le_add_right _ _, Nat.add_lt_add_left hi _⟩, rfl⟩
  refine ⟨_, by simp only [paintPixel, hw, hd], rfl, ?_, dstW_bytes hd⟩
  exact (memRead_memWrite_same hd).trans (congrArg Except.ok (Nat.mod_eq_of_lt (averagePixel s x).isLt))

/-- Settles O36, from what painting one Pixel leaves. -/
theorem qblurWritesOnePixel : Obligations.QblurWritesOnePixel := by
  intro s x inexact ha hc hw hp
  obtain ⟨u, ht, hu, hread, hbytes⟩ := paintPixel_of_plain (cutResults s)
    (fun x inexact t => complete { t with qs := Quad.map sat32 x, qInexact := inexact, qpix := averagePixel s x }) hw hp
  refine ⟨_, (execQblur_eq_paintPixel (queryChecks_of_queryFaultOf hc)).trans ht, rfl, rfl, rfl,
    (memRead_congr rfl fun _ _ _ => rfl).trans hread, hbytes, ?_⟩
  rw [hu, complete_of_aligned]
  exact ha

/-- Settles O38, from what painting one Pixel leaves. -/
theorem qapplyStartsAndSteps : Obligations.QapplyStartsAndSteps := by
  intro s ar ac acc old
  refine ⟨fun hc => ?_, fun x inexact hr hc hw hp => ?_, fun ha hr => ?_⟩
  · simp only [exec, execQapply, queryChecks_of_queryFaultOf hc]
    rfl
  · obtain ⟨u, ht, hu, hread, hbytes⟩ := paintPixel_of_plain (cutTraverse old s) _ hw hp
    refine ⟨_, (traverseStep_eq_paintPixel ⟨hr, hc⟩).trans ht, rfl, rfl,
      (memRead_congr rfl fun _ _ _ => rfl).trans hread, hbytes, rfl, ?_⟩
    rw [hu]
    rfl
  · have hout : ¬ ((ar : Int) < imgH s ∧ (ac : Int) < imgW s) := by omega
    simp only [agentStep, traverseStep, if_neg hout]
    rw [complete_of_aligned]
    exact ha

end Sys2Proof.Machine
end

section
/-! PROOFS. The window sum over a table of the build: exact where no corner was clamped, and the naive blur's sum over
the padded image (41_query.md R160, R164). -/

namespace Sys2Proof.Machine

/-! ## Sums over a window -/

theorem sumTo_split (m n : Nat) (f : Nat → Nat) : sumTo (m + n) f = sumTo m f + sumTo n fun i => f (m + i) := by
  induction n with
  | zero => rfl
  | succ n ih => exact (congrArg (· + f (m + n + 1)) ih).trans (Nat.add_assoc _ _ _)

theorem sumTo_le {f : Nat → Nat} {b : Nat} (h : ∀ i, f i ≤ b) (n : Nat) : sumTo n f ≤ b * n := by
  induction n with
  | zero => exact Nat.le_refl 0
  | succ n ih => exact Nat.add_le_add ih (h _)

theorem satExact_add_rows (r k c : Nat) (f : Nat → Nat → Nat) :
    satExact (r + k) c f = satExact r c f + sumTo k fun i => sumTo c fun b => f (r + i) b := sumTo_split r k _

/-- The inclusion and exclusion of 41_query.md R152, over exact sums. -/
theorem satExact_window (k r c : Nat) (f : Nat → Nat → Nat) :
    satExact (r + k) (c + k) f + satExact r c f =
      satExact (r + k) c f + satExact r (c + k) f + windowSum k r c f := by
  have hcols : (sumTo k fun i => sumTo (c + k) fun b => f (r + i) b) =
      (sumTo k fun i => sumTo c fun b => f (r + i) b) + windowSum k r c f := by
    rw [windowSum, ← sumTo_add]
    exact congrArg (sumTo k) (funext fun i => sumTo_split c k _)
  have h1 := satExact_add_rows r k (c + k) f
  have h2 := satExact_add_rows r k c f
  omega

/-- A window of K by K bytes sums to at most `255 * K * K` (41_query.md R160). -/
theorem windowSum_le (k r c : Nat) (px : Nat → Nat → Quad Byte) (ch : Channel) :
    windowSum k r c (channel px ch) ≤ 255 * (k * k) := by
  rw [← Nat.mul_assoc]
  exact sumTo_le (fun i => sumTo_le (fun j => Nat.le_of_lt_succ (chan (px (r + i) (c + j)) ch).isLt) k) k

/-! ## A table that holds `SatRef` -/

/-- A window inside the grid reads the table's four corners (41_query.md R152). -/
theorem winSum_of_table {cell : Nat → Nat → Quad Word} {s : State} {r c : Nat} (h : tableIs cell s)
    (hr : r + kSize s < hp s) (hc : c + kSize s < wp s) : winSum s r c = .ok (windowOf cell (kSize s) r c) :=
  winSum_ok_iff.mpr ⟨_, _, _, _, h _ _ hr hc, h _ _ hr (by omega), h _ _ (by omega) hc, h _ _ (by omega) (by omega),
    rfl, rfl⟩

/-- A cell whose sums fit holds them. -/
theorem chan_satRef {px : Nat → Nat → Quad Byte} {r c : Nat} (h : ¬ Stage.full.over px r c) (ch : Channel) :
    (chan (satRef px r c) ch).toNat = satExact r c (channel px ch) :=
  (chan_stageCell .full px r c ch).trans (Nat.min_eq_right (Nat.le_of_not_lt fun hlt => h ⟨ch, hlt⟩))

/-- A cell with no channel at `M` was not clamped (10_state.md R27). -/
theorem fits_of_not_atMax {px : Nat → Nat → Quad Byte} {r c : Nat} (h : atMax (satRef px r c) = false) :
    ¬ Stage.full.over px r c := by
  rintro ⟨ch, hlt⟩
  have hv : (chan (satRef px r c) ch).toNat = maxSum :=
    (chan_stageCell .full px r c ch).trans (Nat.min_eq_left (Nat.le_of_lt hlt))
  have hmax : atMax (satRef px r c) = true :=
    (quad_any_iff _ _).mpr ⟨ch, decide_eq_true (BitVec.eq_of_toNat_eq (hv.trans rfl))⟩
  rw [h] at hmax
  cases hmax

/-- Where no corner was clamped the window sum is the direct sum, and it fits. -/
theorem chan_windowOf {px : Nat → Nat → Quad Byte} {k r c : Nat} (hbr : ¬ Stage.full.over px (r + k) (c + k))
    (hbl : ¬ Stage.full.over px (r + k) c) (htr : ¬ Stage.full.over px r (c + k)) (htl : ¬ Stage.full.over px r c)
    (ch : Channel) :
    chan (windowOf (satRef px) k r c).1 ch = (windowSum k r c (channel px ch) : Nat) ∧
      windowSum k r c (channel px ch) ≤ maxSum := by
  have hw := satExact_window k r c (channel px ch)
  have hmono := satExact_mono (channel px ch) (Nat.le_add_right r k) (Nat.le_refl c)
  have hle : satExact (r + k) (c + k) (channel px ch) ≤ maxSum := Nat.le_of_not_lt fun hlt => hbr ⟨ch, hlt⟩
  rw [windowOf, chan_winExact, chan_satRef hbr, chan_satRef hbl, chan_satRef htr, chan_satRef htl]
  omega

/-- The premise of 41_query.md R160: no corner of the window is at `M`, or no sum of the grid exceeds it. -/
theorem windowOf_exact {px : Nat → Nat → Quad Byte} {k r c rows cols : Nat} (hr : r + k < rows) (hc : c + k < cols)
    (h : (windowOf (satRef px) k r c).2 = false ∨ gridOverflows px rows cols = false) (ch : Channel) :
    chan (windowOf (satRef px) k r c).1 ch = (windowSum k r c (channel px ch) : Nat) ∧
      windowSum k r c (channel px ch) ≤ maxSum := by
  rcases h with h | h
  · simp only [windowOf, winInexact, Bool.or_eq_false_iff] at h
    obtain ⟨⟨⟨hbr, hbl⟩, htr⟩, htl⟩ := h
    exact chan_windowOf (fits_of_not_atMax hbr) (fits_of_not_atMax hbl) (fits_of_not_atMax htr)
      (fits_of_not_atMax htl) ch
  · have hfit : ∀ {i j}, i < rows → j < cols → ¬ Stage.full.over px i j := fun hi hj ho =>
      Bool.false_ne_true (h.symm.trans (ho.grid hi hj nofun))
    exact chan_windowOf (hfit hr hc) (hfit hr (by omega)) (hfit (by omega) hc) (hfit (by omega) (by omega)) ch

theorem sat32_natCast {n : Nat} (h : n ≤ maxSum) : (sat32 n).toNat = n :=
  (sat32_toNat n).trans (Nat.min_eq_right h)

/-- Settles O41: the four corners are exact, so their combination is the direct sum, and the clamp keeps it. -/
theorem exactWindowSum : Obligations.ExactWindowSum := by
  intro s px row col x inexact ht hr hc hw hex ch
  have hx : windowOf (satRef px) (kSize s) row col = (x, inexact) :=
    Except.ok.inj ((winSum_of_table ht hr hc).symm.trans hw)
  obtain ⟨hsum, hfits⟩ := windowOf_exact hr hc (by rwa [hx]) ch
  rw [hx] at hsum
  rw [hsum, chan_perChannel, sat32_natCast hfits]
  exact ⟨rfl, by exact_mod_cast windowSum_le (kSize s) row col px ch, rfl⟩

/-! ## The naive blur -/

/-- A window of the padded image is the naive window of the image (41_query.md R163, R164). -/
theorem windowSum_padRef (h w n row col : Nat) (image : Nat → Nat → Quad Byte) (ch : Channel) :
    windowSum (2 * n + 1) row col (channel (padRef image h w (n + 1)) ch) =
      naiveSum h w n row col (channel image ch) := by
  have hidx : ∀ r i : Nat, ((r + i : Nat) : Int) - (n + 1 : Nat) = (r : Int) + ((i : Int) - 1 - n) := by omega
  simp only [windowSum, naiveSum, channel, padRef, hidx]

/-- The average of sums of `area` bytes needs no clamp (41_query.md R154). -/
theorem avgChannel_of_le {area : Nat} {q : Word} (h : q.toNat ≤ 255 * area) :
    avgChannel area q = BitVec.ofNat 8 (q.toNat / area) := by
  rw [avgChannel, Nat.min_eq_right (Nat.div_le_of_le_mul (Nat.mul_comm _ _ ▸ h))]

/-- The average of the naive sums is the naive average (41_query.md R163). -/
theorem avgPix_naive {h w n row col : Nat} {image : Nat → Nat → Quad Byte} {q : Quad Word}
    (hq : ∀ ch, (chan q ch).toNat = naiveSum h w n row col (channel image ch)) :
    avgPix ((2 * n + 1) * (2 * n + 1)) q = naiveAvg h w n row col image := by
  have havg : ∀ ch, avgChannel ((2 * n + 1) * (2 * n + 1)) (chan q ch) =
      BitVec.ofNat 8 (naiveSum h w n row col (channel image ch) / ((2 * n + 1) * (2 * n + 1))) := fun ch => by
    have hle := windowSum_le (2 * n + 1) row col (padRef image h w (n + 1)) ch
    rw [windowSum_padRef, ← hq] at hle
    rw [avgChannel_of_le hle, hq]
  have hr := havg .r
  have hg := havg .g
  have hb := havg .b
  simp only [chan] at hr hg hb
  rw [avgPix, hr, hg, hb]
  rfl

/-- The window of a row of the image lies inside the grid (41_query.md R150). -/
theorem row_inside {s : State} {r : Nat} (h : (r : Int) < imgH s) : r + kSize s < hp s := by
  simp only [imgH] at h
  omega

theorem col_inside {s : State} {c : Nat} (h : (c : Int) < imgW s) : c + kSize s < wp s := by
  simp only [imgW] at h
  omega

/-- The position a query accepts, and its window, lie inside the grid (41_query.md R151). -/
theorem position_inside {s : State} (h : queryFaultOf .sum s = none) :
    s.p.qrow.toNat + kSize s < hp s ∧ s.p.qcol.toNat + kSize s < wp s := by
  have hc := queryChecks_of_queryFaultOf h
  rw [firstFault_eq_none] at hc
  simp only [queryChecks, QueryKind.takesPosition, List.mem_cons, List.not_mem_nil, or_false, forall_eq_or_imp,
    forall_eq, Bool.true_and, decide_eq_false_iff_not, Int.not_le] at hc
  obtain ⟨-, -, -, -, -, hr, hk, -⟩ := hc
  exact ⟨row_inside hr, col_inside hk⟩

/-- Settles O42: the query's window over the padded image is the naive window, and its average needs no clamp. -/
theorem qsumEqualsNaiveSum : Obligations.QsumEqualsNaiveSum := by
  intro s t image h w n ha hc hk hh hw ht he hq
  obtain ⟨hr, hcol⟩ := position_inside hc
  obtain rfl := Host.Outcome.next.inj ((execQsum_of_winSum hc (winSum_of_table ht hr hcol)).symm.trans he)
  have hsum : ∀ ch, (chan (Quad.map sat32 (windowOf (satRef (padRef image h w (n + 1))) (kSize s)
      s.p.qrow.toNat s.p.qcol.toNat).1) ch).toNat =
      naiveSum h w n s.p.qrow.toNat s.p.qcol.toNat (channel image ch) := fun ch => by
    obtain ⟨hsum, hfits⟩ := windowOf_exact hr hcol (.inl hq) ch
    rw [chan_map, hsum, sat32_natCast hfits, kSize, hk, windowSum_padRef]
  refine ⟨fun ch => (hsum ch).trans (chan_perChannel _ _ _).symm, ?_⟩
  rw [hk]
  exact avgPix_naive hsum

end Sys2Proof.Machine
end

section
/-! PROOFS. The traversal of `QAPPLY`, whole: the Pixels are written in row-major order, and Pixel number `m` of the
image is the one at row `m / W` and column `m % W` (41_query.md R157). -/

namespace Sys2Proof.Machine

/-! ## Pixels by their number -/

/-- How many Pixels the output image has. -/
def imageSize (s : State) : Nat := (imgH s).toNat * (imgW s).toNat

/-- The window sum of Pixel number `m` over a table, with its flag. -/
def windowAt (cell : Nat → Nat → Quad Word) (s : State) (m : Nat) : Quad Int × Bool :=
  windowOf cell (kSize s) (m / (imgW s).toNat) (m % (imgW s).toNat)

/-- The four clamped sums of Pixel number `m`. -/
def sumsAt (cell : Nat → Nat → Quad Word) (s : State) (m : Nat) : Quad Word := Quad.map sat32 (windowAt cell s m).1

/-- The average that Pixel number `m` gets. -/
def pixelAt (cell : Nat → Nat → Quad Word) (s : State) (m : Nat) : Word :=
  avgPix (kSize s * kSize s) (sumsAt cell s m)

theorem dstAddr_pixel (s : State) (m : Nat) :
    dstAddr s (m / (imgW s).toNat) (m % (imgW s).toNat) = s.p.dst.toNat + 4 * m := by
  rw [dstAddr, gridAddr, Nat.div_add_mod']

theorem pixel_inside {s : State} {m : Nat} (hm : m < imageSize s) :
    ((m / (imgW s).toNat : Nat) : Int) < imgH s ∧ ((m % (imgW s).toNat : Nat) : Int) < imgW s := by
  rw [imageSize, Nat.mul_comm] at hm
  have hw : 0 < (imgW s).toNat := Nat.pos_of_mul_pos_right (Nat.zero_lt_of_lt hm)
  exact ⟨Int.lt_toNat.mp (Nat.div_lt_of_lt_mul hm), Int.lt_toNat.mp (Nat.mod_lt m hw)⟩

theorem inImage_of_number {s : State} {m a : Nat} (hm : m < imageSize s)
    (ha : inBytes (s.p.dst.toNat + 4 * m) 4 a) : inImage s a :=
  inImage_of_pixel (pixel_inside hm).1 (pixel_inside hm).2 (dstAddr_pixel s m ▸ ha)

/-- The number of the Pixel at `(r, c)`. -/
theorem pixel_number {s : State} {r c : Nat} (hr : (r : Int) < imgH s) (hc : (c : Int) < imgW s) :
    r * (imgW s).toNat + c < imageSize s ∧ (r * (imgW s).toNat + c) / (imgW s).toNat = r ∧
      (r * (imgW s).toNat + c) % (imgW s).toNat = c := by
  have hw : c < (imgW s).toNat := by omega
  refine ⟨?_, (Nat.div_mod_unique (Nat.zero_lt_of_lt hw)).mpr ⟨by rw [Nat.mul_comm]; omega, hw⟩⟩
  have := Nat.mul_le_mul_right (imgW s).toNat (show r + 1 ≤ (imgH s).toNat by omega)
  rw [Nat.succ_mul] at this
  rw [imageSize]
  omega

/-- The cursor moves to the next number (10_state.md R49). -/
theorem cursor_succ {s : State} {m : Nat} (acc : Bool) (old : Memory) (hm : m < imageSize s) :
    (if ((m % (imgW s).toNat : Nat) : Int) + 1 < imgW s then
        CmdState.traverse (m / (imgW s).toNat) (m % (imgW s).toNat + 1) acc old
      else .traverse (m / (imgW s).toNat + 1) 0 acc old) =
      .traverse ((m + 1) / (imgW s).toNat) ((m + 1) % (imgW s).toNat) acc old := by
  obtain ⟨-, hc⟩ := pixel_inside hm
  have hw : 0 < (imgW s).toNat := by omega
  have hm := Nat.mod_add_div m (imgW s).toNat
  split
  · obtain ⟨hr, hk⟩ := (Nat.div_mod_unique (a := m + 1) hw).mpr
      ⟨show m % (imgW s).toNat + 1 + (imgW s).toNat * (m / (imgW s).toNat) = m + 1 by omega, by omega⟩
    rw [hr, hk]
  · obtain ⟨hr, hk⟩ := (Nat.div_mod_unique (a := m + 1) hw).mpr
      ⟨show 0 + (imgW s).toNat * (m / (imgW s).toNat + 1) = m + 1 by rw [Nat.mul_succ]; omega, hw⟩
    rw [hr, hk]

/-- The output image lies apart from the table (41_query.md R151). -/
theorem cell_not_inImage {s : State} {r c a : Nat} (h : firstFault (queryChecks .apply s) = none) (hr : r < hp s)
    (hc : c < wp s) (ha : inBytes (satAddr s r c) 16 a) : ¬ inImage s a := by
  obtain ⟨hh, hw, -⟩ := queryChecks_none h
  rw [firstFault_eq_none] at h
  have harea : imgH s * imgW s = (((imgH s).toNat * (imgW s).toNat : Nat) : Int) := by
    rw [Nat.cast_mul, Int.toNat_of_nonneg (by omega), Int.toNat_of_nonneg (by omega)]
  simp only [queryChecks, QueryKind.writesImage, List.mem_cons, List.not_mem_nil, or_false, forall_eq_or_imp, forall_eq,
    Bool.true_and, Bool.and_eq_false_iff, decide_eq_false_iff_not, harea] at h
  obtain ⟨-, -, -, -, -, -, -, -, hov⟩ := h
  have hin := inSatGrid_of_cell hr hc ha
  simp only [inSatGrid] at hin
  simp only [inImage]
  omega

/-! ## The traversal under way -/

/-- `QAPPLY` was started in `s0` and the Pixels before number `n` are written: they, the results of the last one and the
flag of all, and everything else as it was. -/
structure Applying (cell : Nat → Nat → Quad Word) (s0 : State) (n : Nat) (acc : Bool) (s : State) : Prop where
  frame : s = { s0 with qs := s.qs, qpix := s.qpix, mem := s.mem, engine := s.engine, env := s.env }
  bytes : sameBytesOutside (inImage s0) s0 s
  turns : onlyEngineTurns s
  engine : s.engine = .busy (.exec (.traverse (n / (imgW s0).toNat) (n % (imgW s0).toNat) acc s0.mem))
  flag : acc = true ↔ ∃ m, m < n ∧ (windowAt cell s0 m).2 = true
  pixels : ∀ m, m < n → memRead s (s0.p.dst.toNat + 4 * m) 4 = .ok (pixelAt cell s0 m).toNat
  results : ∀ m, n = m + 1 → s.qs = sumsAt cell s0 m ∧ s.qpix = pixelAt cell s0 m

section
variable {cell : Nat → Nat → Quad Word} {s0 s : State} {n : Nat} {acc : Bool}

theorem Applying.p (h : Applying cell s0 n acc s) : s.p = s0.p := by rw [h.frame]

theorem Applying.platform (h : Applying cell s0 n acc s) : s.platform = s0.platform := by rw [h.frame]

theorem Applying.started (ht : onlyEngineTurns s0) :
    Applying cell s0 0 false (setCmd (.traverse 0 0 false s0.mem) s0) where
  frame := rfl
  bytes _ _ := rfl
  turns := ht
  engine := by rw [Nat.zero_div, Nat.zero_mod]; rfl
  flag := by simp
  pixels m hm := absurd hm (Nat.not_lt_zero m)
  results m hm := by omega

/-- The table stays as it was: `QAPPLY` writes the image alone. -/
theorem Applying.table (h : Applying cell s0 n acc s) (hc : firstFault (queryChecks .apply s0) = none)
    (ht : tableIs cell s0) : tableIs cell s := by
  intro r c hr hk
  rw [hp_of_p h.p] at hr
  rw [wp_of_p h.p] at hk
  rw [← ht r c hr hk]
  exact satR_congr h.p h.platform fun x h1 h2 => h.bytes x (cell_not_inImage hc hr hk ⟨h1, h2⟩)

/-- The window of the next Pixel is read from the table. -/
theorem Applying.window (h : Applying cell s0 n acc s) (hc : firstFault (queryChecks .apply s0) = none)
    (ht : tableIs cell s0) (hn : n < imageSize s0) :
    winSum s (n / (imgW s0).toNat) (n % (imgW s0).toNat) = .ok (windowAt cell s0 n) := by
  obtain ⟨hr, hk⟩ := pixel_inside hn
  rw [windowAt, ← kSize_of_p h.p]
  exact winSum_of_table (h.table hc ht) (row_inside (by rwa [imgH_of_p h.p])) (col_inside (by rwa [imgW_of_p h.p]))

/-- With no host turn due, the turn is the engine's. -/
theorem exists_engineMoves (ht : onlyEngineTurns s) : ∃ u, engineMoves s u := by
  rcases turn_cases s with ⟨op, rest, he⟩ | hm
  · obtain ⟨k, hk⟩ := ht _ (he ▸ List.mem_cons_self)
    cases hk
  · exact hm

/-- The sequencer steps alone, from the state without its turn in the script (41_query.md R157). -/
theorem Applying.step (h : Applying cell s0 n acc s) : ∃ u, Applying cell s0 n acc u ∧
    Machine.step s = agentStep .sequencer (.traverse (n / (imgW s0).toNat) (n % (imgW s0).toNat) acc s0.mem) u := by
  obtain ⟨u, hm⟩ := exists_engineMoves h.turns
  have hu := engineMoves_eq hm
  obtain ⟨-, hturns⟩ := scheduled_of_engineMoves h.turns hm (.inl rfl)
  obtain ⟨pick, hp⟩ := step_engine hm
  have he : u.engine = _ := (congrArg State.engine hu).trans h.engine
  refine ⟨u, ?_, by simp only [Machine.step, hp, enginePlan, he]; rfl⟩
  rw [hu] at hturns ⊢
  exact
    { frame := by rw [h.frame]
      bytes := h.bytes
      turns := hturns
      engine := h.engine
      flag := h.flag
      pixels := fun m hm => (memRead_congr rfl fun _ _ _ => rfl).trans (h.pixels m hm)
      results := h.results }

/-- One `A-PIXEL` (41_query.md R157). -/
theorem Applying.pixel (h : Applying cell s0 n acc s) (hc : firstFault (queryChecks .apply s0) = none)
    (ht : tableIs cell s0) (hpl : plainWhere (inImage s0) s0) (hn : n < imageSize s0) :
    ∃ t, Machine.step s = .next t ∧ Applying cell s0 (n + 1) (acc || (windowAt cell s0 n).2) t := by
  obtain ⟨u, hu, hstep⟩ := h.step
  obtain ⟨hr, hk⟩ := pixel_inside hn
  obtain ⟨-, hpixel, -⟩ :=
    qapplyStartsAndSteps u (n / (imgW s0).toNat) (n % (imgW s0).toNat) acc s0.mem
  rw [imgH_of_p hu.p, imgW_of_p hu.p, dstAddr_of_p _ _ hu.p, dstAddr_pixel] at hpixel
  obtain ⟨t, hnext, hqs, hpix, hread, hbytes, heng, ht⟩ := hpixel _ _ hr hk (hu.window hc ht hn) fun a ha => by
    rw [hu.platform]
    exact hpl a (inImage_of_number hn ha)
  have hpix : t.qpix = pixelAt cell s0 n := by
    rw [hpix, hqs, ← kSize, kSize_of_p hu.p]
    rfl
  refine ⟨t, hstep.trans hnext, ?_, ?_, ?_, ?_, ?_, ?_, ?_⟩
  · rw [ht, hu.frame]
  · exact fun a ha => (hbytes a fun hb => ha (inImage_of_number hn hb)).trans (hu.bytes a ha)
  · exact onlyEngineTurns_of_env (by rw [ht]) hu.turns
  · rw [heng, cursor_succ _ _ hn]
    rfl
  · rw [Bool.or_eq_true, hu.flag]
    exact Nat.exists_lt_succ_right.symm
  · intro m hm
    rcases Nat.lt_succ_iff_lt_or_eq.mp hm with hlt | rfl
    · rw [← hu.pixels m hlt]
      exact memRead_congr (by rw [ht]) fun x h1 h2 => hbytes x fun hb => by
        simp only [inBytes] at hb
        omega
    · rw [hread, hpix]
  · intro m hm
    obtain rfl : n = m := Nat.succ.inj hm
    exact ⟨hqs, hpix⟩

/-- The state in which the traversal ends, with the flag written. -/
def applied (acc : Bool) (s : State) : State :=
  { s with qInexact := acc, cp := s.cp + 4#32, engine := .busy .fetch }

/-- The end of the traversal (41_query.md R157). -/
theorem Applying.finish (h : Applying cell s0 (imageSize s0) acc s) (hw : 1 ≤ imgW s0) (ha : cpAligned s0) :
    ∃ u, Applying cell s0 (imageSize s0) acc u ∧ Machine.step s = .next (applied acc u) := by
  obtain ⟨u, hu, hstep⟩ := h.step
  refine ⟨u, hu, hstep.trans ((qapplyStartsAndSteps u _ _ acc s0.mem).2.2 ?_ ?_)⟩
  · rw [hu.frame]
    exact ha
  · rw [imgH_of_p hu.p, imageSize, Nat.mul_div_cancel _ (by omega)]
    exact Int.self_le_toNat _

/-- From `k` Pixels before the end the traversal takes `k + 1` steps. -/
theorem Applying.ends (hc : firstFault (queryChecks .apply s0) = none) (ht : tableIs cell s0)
    (hpl : plainWhere (inImage s0) s0) (ha : cpAligned s0) (k : Nat) :
    ∀ {n acc s}, Applying cell s0 n acc s → n + k = imageSize s0 →
      ∃ acc' u, Applying cell s0 (imageSize s0) acc' u ∧ commandEndsAt (k + 1) s (applied acc' u) := by
  induction k with
  | zero =>
    intro n acc s h hn
    obtain rfl : n = imageSize s0 := hn
    obtain ⟨u, hu, hstep⟩ := h.finish (queryChecks_none hc).2.1 ha
    exact ⟨acc, u, hu, commandEndsAt_succ ⟨_, h.engine⟩ hstep
      (commandEndsAt_zero (not_inCommand_of_engine (e := .busy .fetch) rfl (by simp)))⟩
  | succ k ih =>
    intro n acc s h hn
    obtain ⟨t, hstep, hnext⟩ := h.pixel hc ht hpl (by omega)
    obtain ⟨acc', u, hu, hend⟩ := ih hnext (by omega)
    exact ⟨acc', u, hu, commandEndsAt_succ ⟨_, h.engine⟩ hstep hend⟩

/-- Every Pixel by its place: it holds the average of its own window. -/
theorem Applying.pixel_at (h : Applying cell s0 (imageSize s0) acc s) {r c : Nat} (hr : (r : Int) < imgH s0)
    (hc : (c : Int) < imgW s0) :
    memRead s (dstAddr s0 r c) 4 =
      .ok (avgPix (kSize s0 * kSize s0) (Quad.map sat32 (windowOf cell (kSize s0) r c).1)).toNat := by
  obtain ⟨hlt, hdiv, hmod⟩ := pixel_number hr hc
  have hm := h.pixels _ hlt
  simp only [pixelAt, sumsAt, windowAt, hdiv, hmod] at hm
  exact hm

/-- The flag by places: some window of the image is inexact. -/
theorem Applying.flag_iff (h : Applying cell s0 (imageSize s0) acc s) : acc = true ↔
      ∃ r c : Nat, (r : Int) < imgH s0 ∧ (c : Int) < imgW s0 ∧ (windowOf cell (kSize s0) r c).2 = true := by
  rw [h.flag]
  constructor
  · rintro ⟨m, hm, hi⟩
    obtain ⟨hr, hc⟩ := pixel_inside hm
    exact ⟨_, _, hr, hc, hi⟩
  · rintro ⟨r, c, hr, hc, hi⟩
    obtain ⟨hlt, hdiv, hmod⟩ := pixel_number hr hc
    exact ⟨_, hlt, by rw [windowAt, hdiv, hmod]; exact hi⟩

/-- The result registers are those of the last Pixel. -/
theorem Applying.last (h : Applying cell s0 (imageSize s0) acc s) (hh : 1 ≤ imgH s0) (hw : 1 ≤ imgW s0) :
    s.qs = Quad.map sat32 (windowOf cell (kSize s0) ((imgH s0).toNat - 1) ((imgW s0).toNat - 1)).1 ∧
      s.qpix = avgPix (kSize s0 * kSize s0) s.qs := by
  obtain ⟨-, hdiv, hmod⟩ := pixel_number (s := s0) (r := (imgH s0).toNat - 1) (c := (imgW s0).toNat - 1) (by omega)
    (by omega)
  have hsize : imageSize s0 = ((imgH s0).toNat - 1) * (imgW s0).toNat + ((imgW s0).toNat - 1) + 1 := by
    have := Nat.succ_mul ((imgH s0).toNat - 1) (imgW s0).toNat
    rw [show ((imgH s0).toNat - 1).succ = (imgH s0).toNat by omega] at this
    rw [imageSize]
    omega
  obtain ⟨hqs, hqpix⟩ := h.results _ hsize
  rw [hqpix, pixelAt, ← hqs]
  exact ⟨by rw [hqs, sumsAt, windowAt, hdiv, hmod], rfl⟩

end

/-- Settles O39: the traversal ends with every Pixel written, and the number of a Pixel gives its place. -/
theorem qapplyBlursWholeImage : Obligations.QapplyBlursWholeImage := by
  intro s cell hf ht hpl henv ha
  have hc := queryChecks_of_queryFaultOf hf
  obtain ⟨hh, hw, -⟩ := queryChecks_none hc
  obtain ⟨acc, u, hu, hend⟩ := (Applying.started henv).ends hc ht hpl ha (imageSize s) (Nat.zero_add _)
  obtain ⟨hqs, hqpix⟩ := hu.last hh hw
  have hframe := hu.frame
  refine ⟨_, applied acc u, (qapplyStartsAndSteps s 0 0 false s.mem).1 hf, hend, rfl, ?_, ?_, ?_,
    fun r c hr hk => (memRead_congr rfl fun _ _ _ => rfl).trans (hu.pixel_at hr hk), hu.flag_iff, hqs, hqpix,
    hu.bytes, ?_⟩
  · rw [hframe]; rfl
  · rw [hframe]; rfl
  · rw [hframe]; rfl
  · rw [hframe]; exact ⟨rfl, rfl, rfl, rfl, rfl, rfl, rfl, rfl⟩

end Sys2Proof.Machine
end

section
/-! PROOFS. The sequencer: the step in FETCH runs the command whose bytes stand at `cp`, and what `NOP`, `HALT`, `JMP`,
`SETL` and `SETH` change and leave alone (42_sequencer.md R180 to R186). -/

namespace Sys2Proof.Machine

/-! ## The fetch of a command -/

theorem decodeWord_of_decodeBytes {b0 b1 b2 b3 : Byte} {i : Instr} (h : decodeBytes [b0, b1, b2, b3] = .ok (i, [])) :
    decodeWord (b3 ++ b2 ++ b1 ++ b0) = .ok i := by
  simp only [decodeBytes] at h
  split at h
  · rename_i hd
    cases h
    exact hd
  · cases h

/-- The word at `cp` is its four bytes, the first at bits 7:0 (20_memory.md R60, 30_encoding.md R90). -/
theorem fetchWord_of_bytes {s : State} {b0 b1 b2 b3 : Byte} (hp : plainBytes s.cp.toNat 4 s)
    (h0 : s.mem.byteAt s.cp.toNat = some b0) (h1 : s.mem.byteAt (s.cp.toNat + 1) = some b1)
    (h2 : s.mem.byteAt (s.cp.toNat + 2) = some b2) (h3 : s.mem.byteAt (s.cp.toNat + 3) = some b3) :
    fetchWord s = .ok (b3 ++ b2 ++ b1 ++ b0) := by
  have hport : portCheck s.platform s.cp.toNat 4 = .ok () :=
    portCheck_ok_iff.mpr fun i hi => hp _ ⟨Nat.le_add_right _ i, Nat.add_lt_add_left hi _⟩
  have hread : s.mem.readLE s.cp.toNat 4 = some (b3 ++ b2 ++ b1 ++ b0).toNat := by
    rw [toNat_append_eq, toNat_append_eq, toNat_append_eq]
    simp only [Memory.readLE, h0, h1, h2, h3, Nat.add_assoc, Nat.reduceAdd, Option.some.injEq]
    omega
  simp only [fetchWord, memRead_ok_iff.mpr ⟨hport, hread⟩, BitVec.ofNat_toNat, BitVec.setWidth_eq]

/-- The footprint of a command holds its own word (20_memory.md R73). -/
theorem fetchSpan_mem_footprint (i : Instr) (s : State) : fetchSpan s ∈ (footprint i s).spans := by
  cases i with
  | nop | halt | jmp | setl | seth => exact List.mem_cons_self
  | buildS | buildW | buildB | qsum | qblur | qapply | rdcell =>
    simp only [footprint]
    split <;> exact List.mem_cons_self

theorem contractBroken_mono {spans spans' : List Span} {s : State} (hs : ∀ x ∈ spans, x ∈ spans')
    (h : contractBroken spans' s = false) : contractBroken spans s = false := by
  rw [← Bool.not_eq_true, contractBroken_iff] at h ⊢
  rintro ⟨a, ha, x, hx, hin⟩
  exact h ⟨a, ha, x, hs x hx, hin⟩

theorem fetchPlan_exec {s : State} {w : Word} {i : Instr} (hw : fetchWord s = .ok w) (hd : decodeWord w = .ok i)
    (hc : contractBroken (footprint i s).spans s = false) :
    fetchPlan s = .exec i (noteFootprint (footprint i s) s) := by
  have hown : contractBroken [fetchSpan s] s = false :=
    contractBroken_mono (by simpa using fetchSpan_mem_footprint i s) hc
  simp only [fetchPlan, hown, hw, hd, hc, Bool.false_eq_true, if_false]

/-- Settles O7: the four bytes are the fetched word, and no host write broke the contract of 20_memory.md R77. -/
theorem stepRunsDecodedCommand : Obligations.StepRunsDecodedCommand := by
  intro s s' b0 b1 b2 b3 i hm he hp h0 h1 h2 h3 hd hc
  have hs := engineMoves_eq hm
  have he' : s'.engine = .busy .fetch := by rw [hs]; exact he
  have hw : fetchWord s' = .ok (b3 ++ b2 ++ b1 ++ b0) := by rw [hs]; exact fetchWord_of_bytes hp h0 h1 h2 h3
  have hc' : contractBroken (footprint i s').spans s' = false := by rw [hs]; exact hc
  simp only [step, plan_fetch hm he', fetchPlan_exec hw (decodeWord_of_decodeBytes hd) hc']

/-! ## `NOP`, `HALT`, `JMP` -/

/-- Settles O8. -/
theorem nopOnlyAdvances : Obligations.NopOnlyAdvances := by
  refine ⟨rfl, fun s ha => ⟨complete s, rfl, ?_, ?_⟩⟩ <;> rw [complete_of_aligned ha]
  exact BitVec.toNat_add _ _

/-- Settles O9. -/
theorem haltEndsRun : Obligations.HaltEndsRun := by
  refine ⟨rfl, fun s ha => ⟨_, rfl, ?_, rfl, rfl⟩⟩
  rw [setCp_cp, cpAligned_add ha]
  exact BitVec.toNat_add _ _

/-- The target of a `JMP` as a number: `(cp + 4 * sext(off24)) mod 2^32` (42_sequencer.md R184). -/
theorem jmpTarget_toNat (cp : Word) (off : BitVec 24) :
    ((jmpTarget cp off).toNat : Int) = ((cp.toNat : Int) + 4 * off.toInt) % 2 ^ 32 := by
  rw [jmpTarget, BitVec.toNat_ofInt]
  omega

/-- Whole command words from an aligned address lead to an aligned address. -/
theorem jmpTarget_aligned {cp : Word} (h : cp.toNat % 4 = 0) (off : BitVec 24) : (jmpTarget cp off).toNat % 4 = 0 := by
  have ht := jmpTarget_toNat cp off
  omega

/-- Settles O10: the target is aligned, so `cp` takes it whole. -/
theorem jmpGoesToTarget : Obligations.JmpGoesToTarget := by
  intro s off ha
  refine ⟨?_, _, rfl, ?_, aligned_toNat _, rfl⟩
  · rw [encode, toNat_append_eq]
    simp [Instr.opcode, Instr.operandField]
  · rw [setCp_cp, aligned_eq_self (jmpTarget_aligned ha off)]
    exact jmpTarget_toNat s.cp off

/-! ## `SETL`, `SETH` -/

/-- A word of format I that sets one of bits 19:16 or names a register above 9 is no command (30_encoding.md R96, cases
(c) and (d)). -/
theorem decodeWord_error_of_formatI {w : Word} (hop : w.toNat / 2 ^ 24 = 0x08 ∨ w.toNat / 2 ^ 24 = 0x09)
    (h : w.toNat / 2 ^ 20 % 16 ≥ 10 ∨ w.toNat / 2 ^ 16 % 16 ≠ 0) : ∃ e, decodeWord w = .error e := by
  have ho : (w.extractLsb' 24 8).toNat = w.toNat / 2 ^ 24 % 2 ^ 8 := by
    rw [BitVec.extractLsb'_toNat, Nat.shiftRight_eq_div_pow]
  have hill : illegalWord w := by
    simp only [illegalWord, ho]
    omega
  cases hd : decodeWord w with
  | error e => exact ⟨e, rfl⟩
  | ok i => exact absurd ⟨i, hd⟩ (illegalWord_iff.mp hill)

/-- A parameter write that completes: the register, `SATVALID` and `cp`, and nothing else (10_state.md R21, R24). -/
theorem complete_setParam_effect {s : State} (ha : cpAligned s) (r : PReg) (v : Word) :
    (complete (setParam r v s)).p.get r = v ∧
    (∀ r', r' ≠ r → (complete (setParam r v s)).p.get r' = s.p.get r') ∧
    (complete (setParam r v s)).satValid = (s.satValid && decide (r ∉ [PReg.src, .sat, .rows, .cols])) ∧
    (complete (setParam r v s)).cp = s.cp + 4#32 ∧
    complete (setParam r v s) =
      { s with
        p := (complete (setParam r v s)).p, satValid := (complete (setParam r v s)).satValid
        cp := (complete (setParam r v s)).cp, engine := .busy .fetch } := by
  refine ⟨get_set_same _ _ _, fun r' hr => get_set_other _ _ hr, ?_, cpAligned_add ha, rfl⟩
  rw [complete_satValid, setParam_satValid, clearsSatValid_eq]

/-- Settles O11: the register holds the zero-extended immediate after the write. -/
theorem setlWritesZeroExtended : Obligations.SetlWritesZeroExtended := by
  intro s r imm ha
  obtain ⟨hget, hframe⟩ := complete_setParam_effect ha r (imm.zeroExtend 32)
  refine ⟨?_, fun w hop => decodeWord_error_of_formatI (.inl hop), _, exec_setl_number r imm s, ?_, hframe⟩
  · rw [encode, Instr.operandField, formatI_toNat]
    simp [Instr.opcode, Nat.mul_comm]
  · rw [hget, BitVec.zeroExtend, BitVec.toNat_setWidth_of_le (by decide)]

/-- Settles O12: the register holds the immediate over its old low half after the write. -/
theorem sethReplacesHighHalf : Obligations.SethReplacesHighHalf := by
  intro s r imm ha
  obtain ⟨hget, hframe⟩ := complete_setParam_effect ha r (imm ++ (s.p.get r).extractLsb' 0 16)
  refine ⟨?_, fun w hop => decodeWord_error_of_formatI (.inr hop), _, exec_seth_number r imm s, ?_, hframe⟩
  · rw [encode, Instr.operandField, formatI_toNat]
    simp [Instr.opcode, Nat.mul_comm]
  · rw [hget, toNat_append_eq, Nat.mul_comm, BitVec.extractLsb'_toNat, Nat.shiftRight_zero]

/-! ## The frame of the five commands -/

/-- The commands of 42_sequencer.md. -/
def IsSequencer (i : Instr) : Prop :=
  i = .nop ∨ i = .halt ∨ (∃ off, i = .jmp off) ∨ (∃ pd imm, i = .setl pd imm) ∨ ∃ pd imm, i = .seth pd imm

theorem not_isSequencer_buildCommand (k : Strategy) : ¬ IsSequencer (buildCommand k) := by
  cases k <;> simp [IsSequencer, buildCommand]

theorem pregOf_eq_some_iff {pd : BitVec 4} {r : PReg} : pregOf pd = some r ↔ pd = PReg.number r := by
  revert pd
  cases r <;> decide

/-- A number up to 9 names a register (10_state.md R20). -/
theorem exists_number {pd : BitVec 4} (h : pd.toNat ≤ 9) : ∃ r, pd = PReg.number r := by
  have hr : ∀ pd : BitVec 4, pd.toNat ≤ 9 → (pregOf pd).isSome := by decide
  obtain ⟨r, hr⟩ := Option.isSome_iff_exists.mp (hr pd h)
  exact ⟨r, pregOf_eq_some_iff.mp hr⟩

/-- A sequencer command changes nothing but the parameter registers, `cp`, `STATE`, `SATVALID` and the fault record. -/
theorem ExecMove.sequencer_frame {i : Instr} {s t : State} (hi : IsSequencer i) (hx : ExecMove s i t) :
    t = { s with p := t.p, cp := t.cp, engine := t.engine, satValid := t.satValid, fault := t.fault } := by
  cases hx with
  | raised | nop | halt | jmp | setl | seth => rfl
  | summed | blurred | blurCut | applied | copied => simp [IsSequencer] at hi
  | build _ k hk => exact absurd (hk ▸ hi) (not_isSequencer_buildCommand k)

/-- A well-formed sequencer command raises no fault (42_sequencer.md R182 to R186). -/
theorem exec_sequencer_fault {i : Instr} {s t : State} (hi : IsSequencer i) (hw : i.wellFormed = true)
    (h : exec i s = .next t) : t.fault = s.fault := by
  rcases hi with rfl | rfl | ⟨off, rfl⟩ | ⟨pd, imm, rfl⟩ | ⟨pd, imm, rfl⟩
  · cases h; rfl
  · cases h; rfl
  · cases h; rfl
  · obtain ⟨r, rfl⟩ := exists_number (of_decide_eq_true hw)
    rw [exec_setl_number] at h
    cases h; rfl
  · obtain ⟨r, rfl⟩ := exists_number (of_decide_eq_true hw)
    rw [exec_seth_number] at h
    cases h; rfl

/-- A register reads as before a write, or is the one written. -/
theorem get_set_or (p : Params) (r r' : PReg) (v : Word) : (p.set r' v).get r = p.get r ∨ r = r' :=
  (eq_or_ne r r').symm.imp_left (get_set_other p v)

/-- A command changes a parameter register only as the destination of a `SETL` or a `SETH` (10_state.md R21). -/
theorem ExecMove.get_or_destination {i : Instr} {s t : State} (hx : ExecMove s i t) (r : PReg) :
    t.p.get r = s.p.get r ∨ ∃ imm, i = .setl (PReg.number r) imm ∨ i = .seth (PReg.number r) imm := by
  cases hx with
  | setl pd imm r' hr =>
    obtain rfl := pregOf_eq_some_iff.mp hr
    exact (get_set_or s.p r r' _).imp_right fun (h : r = r') => ⟨imm, .inl (h ▸ rfl)⟩
  | seth pd imm r' hr =>
    obtain rfl := pregOf_eq_some_iff.mp hr
    exact (get_set_or s.p r r' _).imp_right fun (h : r = r') => ⟨imm, .inr (h ▸ rfl)⟩
  | blurred u pix q inexact hw =>
    obtain ⟨-, rfl⟩ := dstW_ok_iff.mp hw
    exact .inl rfl
  | _ => exact .inl rfl

/-- Of the sequencer commands only `SETL` and `SETH` write `SATVALID` (10_state.md R25). -/
theorem ExecMove.sequencer_satValid {i : Instr} {s t : State} (hi : IsSequencer i) (hx : ExecMove s i t)
    (hn : ∀ pd imm, i ≠ .setl pd imm ∧ i ≠ .seth pd imm) : t.satValid = s.satValid := by
  cases hx with
  | setl pd imm => exact absurd rfl (hn pd imm).1
  | seth pd imm => exact absurd rfl (hn pd imm).2
  | build _ k hk => exact absurd (hk ▸ hi) (not_isSequencer_buildCommand k)
  | blurred => simp [IsSequencer] at hi
  | _ => rfl

/-- Settles O14, by the outcomes of the five commands. -/
theorem sequencerCommandsFrame : Obligations.SequencerCommandsFrame := by
  intro s t i hi h
  have hx := exec_move h
  have hframe := hx.sequencer_frame hi
  refine ⟨fun a => ?_, ?_, ?_, ?_, ?_, ?_, ?_, hx.platform, fun hw => exec_sequencer_fault hi hw h,
    hx.get_or_destination, hx.sequencer_satValid hi⟩ <;> rw [hframe]

end Sys2Proof.Machine
end

section
/-! PROOFS. Whose turn a step is, that no step finds all agents held, and what CLR does. -/

namespace Sys2Proof.Machine

/-! ## `CLR` -/

/-- CLR acknowledges DONE (60_exceptions.md R215). -/
theorem clrAction_done {s : State} (he : s.engine = .done) : clrAction s = { s with engine := .idle } := by
  simp only [clrAction, he]

/-- CLR acknowledges a fault that is not fatal (60_exceptions.md R215). -/
theorem clrAction_nonfatal {s : State} (he : s.engine = .faulted) (hf : s.fault.fatal = false) :
    clrAction s = { s with fault := FaultRecord.none, engine := .idle } := by
  simp only [clrAction, he, hf, Bool.false_eq_true, if_false]

/-- CLR does nothing where there is nothing it may acknowledge (60_exceptions.md R215). -/
theorem clrAction_of_not_acknowledged {s : State} (hd : s.engine ≠ .done)
    (hf : s.engine = .faulted → s.fault.fatal = true) : clrAction s = s := by
  rcases clrAction_cases s with ⟨he, -⟩ | ⟨he, hn, -⟩ | h
  · exact absurd he hd
  · rw [hf he] at hn
    cases hn
  · exact h

/-- Settles O46, by the three cases of R215. -/
theorem clrAcknowledges : Obligations.ClrAcknowledges := by
  intro s
  refine ⟨clrAction_done, clrAction_nonfatal, ?_⟩
  rintro (he | hb | ⟨he, hf⟩)
  · exact clrAction_of_not_acknowledged (by simp [he]) (by simp [he])
  · refine clrAction_of_not_acknowledged ?_ ?_ <;> intro he <;> simp [isBusy, he] at hb
  · exact clrAction_of_not_acknowledged (by simp [he]) fun _ => hf

/-! ## The engine's turn -/

/-- Which agents have a step depends on the parameter registers and the substate of the command alone. -/
theorem enabledAgents_of_p {s t : State} (c : CmdState) (h : t.p = s.p) : enabledAgents c t = enabledAgents c s := by
  cases c with
  | sentinels | serial | traverse | barrier => rfl
  | wave w =>
    have hh : hp t = hp s := by simp only [hp, h]
    have hc : consumerEnabled w t = consumerEnabled w s := by
      cases hm : w.mode <;> simp only [consumerEnabled, hm, hh]
    have hj : waveJoined w t = waveJoined w s := by rw [waveJoined, hh, ← waveJoined]
    simp only [enabledAgents, hc, hj]

/-- In a quiescent state the engine's turn is taken from the script, and nothing else happens (60_exceptions.md R224). -/
theorem step_of_quiescent {s s' : State} (hm : engineMoves s s') (hb : isBusy s = false) : step s = .next s' := by
  obtain ⟨onScript, onFree⟩ := step_quiescent hb
  rcases hm with ⟨h, rfl⟩ | ⟨k, rest, h, rfl⟩
  · exact onFree h
  · exact onScript k rest h

/-- Inside a command with an enabled agent, the engine's turn is a step of one (40_build.md R130). -/
theorem step_of_enabled {s s' : State} {c : CmdState} (hm : engineMoves s s') (he : s.engine = .busy (.exec c))
    (hn : enabledAgents c s ≠ []) :
    ∃ a u, a ∈ enabledAgents c s ∧ (u = s' ∨ u = { s' with draws := s'.draws + 1 }) ∧ step s = agentStep a c u := by
  have hp : s'.p = s.p := by rw [engineMoves_eq hm]
  obtain ⟨pick, hstep⟩ : ∃ pick, step s = commandStep pick c s' := by
    obtain ⟨onScript, onFree⟩ := step_command he
    rcases hm with ⟨h, rfl⟩ | ⟨k, rest, h, rfl⟩
    · exact ⟨none, onFree h⟩
    · exact ⟨some k, onScript k rest h⟩
  rw [hstep, ← enabledAgents_of_p c hp]
  rcases commandStep_cases pick c s' with ⟨hnil, -⟩ | h
  · exact absurd ((enabledAgents_of_p c hp).symm.trans hnil) hn
  · exact h

/-- A pick of the script reaches every enabled agent: its place in the list (40_build.md R130). -/
theorem exists_pick {a first : Agent} {others : List Agent} (s : State) (ha : a ∈ first :: others) :
    ∃ k, chooseAgent (some k) first others s = (a, s) := by
  cases others with
  | nil => exact ⟨0, by rw [List.mem_singleton.mp ha]; rfl⟩
  | cons second rest =>
    obtain ⟨k, hk, rfl⟩ := List.getElem_of_mem ha
    refine ⟨k, ?_⟩
    simp only [chooseAgent, Nat.mod_eq_of_lt hk, List.getD_eq_getElem _ _ hk]

theorem exists_commandStep_eq {a : Agent} {c : CmdState} {s : State} (ha : a ∈ enabledAgents c s) :
    ∃ k, commandStep (some k) c s = agentStep a c s := by
  cases hl : enabledAgents c s with
  | nil => rw [hl] at ha; cases ha
  | cons first others =>
    obtain ⟨k, hk⟩ := exists_pick s (hl ▸ ha)
    exact ⟨k, by simp only [commandStep, hl, hk]⟩

/-- Settles O53: a turn of the host, of a quiescent engine, of an enabled agent, and the turn that picks a given one. -/
theorem turnsOfHostAndEngine : Obligations.TurnsOfHostAndEngine := by
  refine ⟨fun s op rest => step_host, fun s s' => step_of_quiescent, fun s s' c => step_of_enabled,
    fun s c a rest he ha => ?_⟩
  have ha' : a ∈ enabledAgents c { s with env := rest } := by rwa [enabledAgents_of_p c rfl]
  obtain ⟨k, hk⟩ := exists_commandStep_eq ha'
  obtain ⟨onScript, -⟩ := step_command (s := { s with env := .engine k :: rest }) he
  exact ⟨k, (onScript k rest rfl).trans hk⟩

/-! ## No step answers the fault -/

theorem hostStep_ne_fault (op : HostOp) (s : State) (f : Fault) : hostStep op s ≠ .fault f := by
  cases op with
  | regRead | regWrite | resetInput => exact fun h => by cases h
  | memRead addr n =>
    simp only [hostStep]
    split <;> simp
  | memWrite addr bs =>
    simp only [hostStep]
    split
    · split
      · split <;> simp
      · simp
    · simp

theorem queryStop_ne_fault (e : Stop) (u : State) (f : Fault) : queryStop e u ≠ .fault f := by
  cases e <;> exact fun h => by cases h

theorem writeParam_ne_fault (pd : BitVec 4) (word : Word) (value : Word → Word) (s : State) (f : Fault) :
    writeParam pd word value s ≠ .fault f := by
  unfold writeParam
  split <;> simp

theorem startBuild_ne_fault (k : Strategy) (s : State) (f : Fault) : startBuild k s ≠ .fault f := by
  rcases startBuild_cases k s with ⟨c, i, -, e⟩ | ⟨-, e⟩ <;> rw [e] <;> simp

/-- No command raises the model's fault in its first step. -/
theorem exec_ne_fault (i : Instr) (s : State) (f : Fault) : exec i s ≠ .fault f := by
  cases i with
  | nop | halt | jmp => exact fun h => by cases h
  | setl | seth =>
    simp only [exec, execSetl, execSeth]
    exact writeParam_ne_fault _ _ _ s f
  | buildS => exact startBuild_ne_fault .serial s f
  | buildW => exact startBuild_ne_fault .wavefront s f
  | buildB => exact startBuild_ne_fault .barrier s f
  | qsum =>
    simp only [exec, execQsum]
    split
    · simp
    · split
      · exact queryStop_ne_fault _ _ f
      · simp
  | qblur =>
    simp only [exec, execQblur]
    split
    · simp
    · split
      · exact queryStop_ne_fault _ _ f
      · split
        · exact queryStop_ne_fault _ _ f
        · simp
  | qapply =>
    simp only [exec, execQapply]
    split <;> simp
  | rdcell =>
    simp only [exec, execRdcell]
    split
    · simp
    · split
      · exact queryStop_ne_fault _ _ f
      · simp

theorem step_fetch_ne_fault {s s' : State} (hm : engineMoves s s') (he : s'.engine = .busy .fetch) (f : Fault) :
    step s ≠ .fault f := by
  simp only [step, plan_fetch hm he]
  rcases fetchPlan_cases s' with e | ⟨a, -, e⟩ | ⟨why, -, e⟩ | ⟨w, e', -, -, e⟩ | ⟨w, i, -, -, e⟩ <;> rw [e]
  case inr.inr.inr.inr => exact exec_ne_fault i _ f
  all_goals simp

/-- Settles O56: only a command in flight could answer the fault, and under the invariant it has an enabled agent. -/
theorem noDeadlock : Obligations.NoDeadlock := by
  intro s f hi
  rcases turn_cases s with ⟨op, rest, h⟩ | ⟨s', hm⟩
  · rw [step_host h]
    exact hostStep_ne_fault op _ f
  · cases he : s.engine with
    | idle | done | faulted =>
      rw [step_of_quiescent hm (by simp only [isBusy, he])]
      simp
    | busy phase =>
      cases phase with
      | fetch => exact step_fetch_ne_fault hm (by rw [engineMoves_eq hm]; exact he) f
      | exec c =>
        obtain ⟨a, u, ha, hu, hstep⟩ := step_of_enabled hm he (enabledAgents_ne_nil (hi.cmdOk he))
        have hp : u.p = s.p := by
          rw [engineMoves_eq hm] at hu
          rcases hu with rfl | rfl <;> rfl
        rw [hstep]
        exact agentStep_ne_fault (by rwa [enabledAgents_of_p c hp]) f

end Sys2Proof.Machine
end

section
/-! PROOFS. The sample words of the test vectors. -/

namespace Sys2Proof.Machine

/-- Settles O5: each of the words is the encoding of a well-formed command, and the decoder answers that command. -/
theorem sampleWordsDecode : Obligations.SampleWordsDecode := by
  unfold Obligations.SampleWordsDecode
  simp only [decodeWord_ok_iff]
  decide

end Sys2Proof.Machine
end
